-- ==== Sys2Proof/Word.lean ====
section
/-!
DEFINITION. The word types of TOS-AUD and the plainest arithmetic on them (00_scope.md R12, R13).
-/

namespace Sys2Proof

/-- A byte: an operand field, a voice register, a port value (R65, R91). -/
abbrev Byte := BitVec 8

/-- A command, event or response word (R63 (c), R90): a 32-bit value without byte order. -/
abbrev Word := BitVec 32

/-- One output sample, 16-bit two's complement (R100). -/
abbrev Sample := BitVec 16

/-- A port address (R60): 16 bits. -/
abbrev PortAddr := BitVec 16

/-- Text of the diagnostic line (R102), a list of characters. -/
abbrev Text := List Char

end Sys2Proof
end

