-- ==== Sys2Proof/Config.lean ====
section
/-!
DEFINITION. What an implementation fixes (00_scope.md R9, R10; 20_memory.md R68) and the free values of the model.
The configuration is a structure of plain data, held in one field of the state that no step writes (log entry 1); the free
values are constants without a body (log entry 3).
-/

namespace Sys2Proof

/-- The backend of the build (R95): exactly one is active. -/
inductive Backend where
  | fm
  | pcm
  deriving DecidableEq, Repr

/-- The two register banks of the FM chip (R62): primary is bank 0, secondary bank 1. -/
inductive Bank where
  | primary
  | secondary
  deriving DecidableEq, Repr

/-- The port map and the device command bytes (20_memory.md R68), one field per row. -/
structure PortMap where
  dspMixerAddr : PortAddr
  dspMixerData : PortAddr
  dspReset : PortAddr
  dspRead : PortAddr
  dspWrite : PortAddr
  dspRstatus : PortAddr
  dspAck16 : PortAddr
  mixerRegIrq : Byte
  mixerIrqValue : Byte
  dspCmdVersion : Byte
  dspCmdRate : Byte
  dspCmdPlay : Byte
  dspMode : Byte
  dspCmdGo1 : Byte
  dspCmdGo2 : Byte
  dmaMask : PortAddr
  dmaMaskOff : Byte
  dmaMaskOn : Byte
  dmaClearFf : PortAddr
  dmaMode : PortAddr
  dmaModeValue : Byte
  dmaAddr : PortAddr
  dmaCount : PortAddr
  dmaPage : PortAddr
  pic1Cmd : PortAddr
  pic2Cmd : PortAddr
  picEoi : Byte
  pitCmd : PortAddr
  pitCh0 : PortAddr
  pitMode : Byte
  fmIndex0 : PortAddr
  fmData0 : PortAddr
  fmIndex1 : PortAddr
  fmData1 : PortAddr
  deriving DecidableEq, Repr

/-- The register family bases of the FM chip (10_state.md R44). -/
structure FmMap where
  tvsm : Byte
  kslTl : Byte
  ad : Byte
  sr : Byte
  wave : Byte
  fbSyn : Byte
  freq : Byte
  key : Byte
  deriving DecidableEq, Repr

/-- One operator of a patch (30_encoding.md R99), the document's field order. -/
structure Operator where
  attackDecay : Byte
  sustainRelease : Byte
  keyScaleAndOutputLevel : Byte
  waveformSelect : Byte
  tremoloVibratoSustainMultiplier : Byte
  deriving DecidableEq, Repr

/-- An instrument patch, 11 bytes (30_encoding.md R99). -/
structure Patch where
  feedbackAndSynthType : Byte
  operator1 : Operator
  operator2 : Operator
  deriving DecidableEq, Repr

/-- The parameters of 00_scope.md R10, the constant tables of 10_state.md R38 to R45 and the port map of R68.
`HALF_SAMPLES`, `PHASE_MOD` and `NUM_PATCHES` are computed from these. -/
structure Config where
  backend : Backend
  sampleRate : BitVec 16
  bufferSamples : Nat
  samplesPerTick : BitVec 32
  tickCntReset : BitVec 32
  waveLen : Nat
  /-- `WAVE_TABLE[WAVE_SINE]`: signed bytes -/
  sineTable : List Byte
  /-- `WAVE_TABLE[WAVE_SQUARE]`: signed bytes -/
  squareTable : List Byte
  /-- `WAVE_TABLE[WAVE_TRIANGLE]`: signed bytes -/
  triangleTable : List Byte
  waveSine : Byte
  waveSquare : Byte
  waveNoise : Byte
  waveTriangle : Byte
  defaultWave : Byte
  refWave : Byte
  /-- `NOTE_BASE[1..12]`: entry `n` stands at place `n - 1` -/
  noteBase : List (BitVec 16)
  /-- `OCT_MUL[0..NUM_OCTAVES-1]` -/
  octMul : List Nat
  numOctaves : Nat
  /-- `FNUM[1..12]`: entry `n` stands at place `n - 1` -/
  fnum : List (BitVec 10)
  fmNoteNone : Byte
  fmVoices : Nat
  op1Slot : List Byte
  op2Slot : List Byte
  fmMap : FmMap
  /-- `PATCH[0..NUM_PATCHES-1]` -/
  patches : List Patch
  /-- `FM_INIT_SEQ`: (bank, register, value) in order -/
  fmInitSeq : List (Bank × Byte × Byte)
  ports : PortMap
  pcmIrqLine : BitVec 4
  bufPhys : BitVec 24
  resetPollMax : Nat
  dspAck : Byte
  dspMinMajor : Byte
  deviceName : Text
  timerTargetHz : BitVec 16
  /-- `BASE_CLOCK` in hertz is `clockNum / clockDen`, an exact rational -/
  clockNum : Nat
  clockDen : Nat
  deriving DecidableEq, Repr

/-- A turn of the schedule (R8, R48): which agent steps next. A Host turn carries how many accesses the Host makes
before another agent may step (`none`: all of the command's), since an interrupt lands only between two accesses (R74). -/
inductive Turn where
  | host (slice : Option Nat)
  | sequencer
  | fill
  | timerIrq
  | dma
  | timerDev
  deriving DecidableEq, Repr, Inhabited

/-- FREE VALUE: the schedule after its listed turns (R8: "any enabled agent may step"; U13). -/
opaque Config.freeTurn : Nat → Turn

/-- FREE VALUE: the PortDev oracle's answers after the listed ones (R70, U10). -/
opaque Config.freePortByte : Nat → Byte

/-- FREE VALUE: the draws of `NoiseDraw()` after the listed ones (R203, U9), a signed byte. -/
opaque Config.freeNoise : Nat → Byte

/-- FREE VALUE: the order of the two stores of `PCM_SET_WAVEFORM` (R181, U6); true means volume first. -/
opaque Config.freeVolumeFirst : Nat → Bool

/-- FREE VALUE: `timer_freq` where the achieved rate in hertz does not fit its 32 bits, a case for which R122 states no
result; applied to that rate. -/
opaque Config.freeTimerFreq : Nat → BitVec 32

end Sys2Proof
end

