-- ==== Sys2Proof/Syntax.lean ====
section
/-!
DEFINITION. The operations of TOS-AUD as syntax: one constructor per row of the opcode map (30_encoding.md R92).
-/

namespace Sys2Proof

/-- An operation (00_scope.md R2): a command word accepted on `cmd`, or an event. Every operand is the unsigned
byte of its field (R91). -/
inductive Instr where
  /-- 0x01, R120 -/
  | timerInit
  /-- 0x02, R123 -/
  | timerGetTicks
  /-- 0x10, R131 -/
  | fmInit
  /-- 0x11, R132 -/
  | fmAssignInstrument (voice patch : Byte)
  /-- 0x12, R134 and R135 -/
  | fmSetNote (voice octave note : Byte)
  /-- 0x13, R136 -/
  | fmSetMaster (volume : Byte)
  /-- 0x20, R150 -/
  | pcmInit
  /-- 0x21, R180 -/
  | pcmSetNote (voice octave note : Byte)
  /-- 0x22, R181 -/
  | pcmSetWaveform (voice waveform volume : Byte)
  /-- 0x23, R182 -/
  | pcmSetVolume (voice volume : Byte)
  /-- 0x24, R183 -/
  | pcmSetMaster (volume : Byte)
  /-- 0x80, R124 -/
  | evTimerIrq
  /-- 0x81, R190 -/
  | evFillIrq
  /-- 0x82, R197 -/
  | evTickReturn
  deriving DecidableEq, Repr

end Sys2Proof
end

