-- ==== Sys2Proof/WellFormed.lean ====
section
/-!
DEFINITION. The operand ranges that hold in every configuration (70_reset_and_hazards.md R266 (a)): the host's
static duty. An operation outside them is still encodable and decodable (R91: nothing is checked at decode); executing it
raises the command fault of 60_exceptions.md R237. Ranges that depend on the configuration (waveform, patch, FM note) are not here.
-/

namespace Sys2Proof

/-- The voice index of the PCM path (R9 `NUM_VOICES`, R184). -/
def pcmVoiceOk (voice : Byte) : Bool := decide (voice.toNat < 8)

/-- The voice index of the FM path: the slot tables have 6 entries (R43, R140). -/
def fmVoiceOk (voice : Byte) : Bool := decide (voice.toNat < 6)

/-- The note operand of `PCM_SET_NOTE` (R180): at most 12. -/
def pcmNoteOk (note : Byte) : Bool := decide (note.toNat ≤ 12)

/-- The octave operand of `PCM_SET_NOTE` fits its four bits (R180). -/
def pcmOctaveOk (octave : Byte) : Bool := decide (octave.toNat ≤ 15)

/-- Operands inside the ranges that no configuration widens (R237). -/
def Instr.wellFormed : Instr → Bool
  | .timerInit => true
  | .timerGetTicks => true
  | .fmInit => true
  | .fmAssignInstrument voice _ => fmVoiceOk voice
  | .fmSetNote voice _ _ => fmVoiceOk voice
  | .fmSetMaster _ => true
  | .pcmInit => true
  | .pcmSetNote voice octave note => pcmVoiceOk voice && pcmNoteOk note && pcmOctaveOk octave
  | .pcmSetWaveform voice _ _ => pcmVoiceOk voice
  | .pcmSetVolume voice _ => pcmVoiceOk voice
  | .pcmSetMaster _ => true
  | .evTimerIrq => true
  | .evFillIrq => true
  | .evTickReturn => true

end Sys2Proof
end

