-- ==== Sys2Proof/Decode.lean ====
section
/-!
DEFINITION. The operation encodings (30_encoding.md Part A): the decoder, total on every 32-bit word, rejecting by name, and
the encoder, both from the format of R90 and the opcode map of R92.
-/

namespace Sys2Proof

/-- The rows of the opcode map (R92), without operands. -/
inductive Op where
  | timerInit
  | timerGetTicks
  | fmInit
  | fmAssignInstrument
  | fmSetNote
  | fmSetMaster
  | pcmInit
  | pcmSetNote
  | pcmSetWaveform
  | pcmSetVolume
  | pcmSetMaster
  | evTimerIrq
  | evFillIrq
  | evTickReturn
  deriving DecidableEq, Repr

/-- What the decoder answers. -/
inductive Decoded where
  /-- the operation and its operands -/
  | instr (i : Instr)
  /-- `W[31:24]` is in no row of R92 (R94 (a)) -/
  | illegalOpcode (op : Byte)
  /-- a reserved field of this operation is not zero (R94 (c)) -/
  | reservedField (op : Op)
  deriving DecidableEq, Repr

/-- The `op` column of R92. -/
def Op.byte : Op → Byte
  | .timerInit => 0x01
  | .timerGetTicks => 0x02
  | .fmInit => 0x10
  | .fmAssignInstrument => 0x11
  | .fmSetNote => 0x12
  | .fmSetMaster => 0x13
  | .pcmInit => 0x20
  | .pcmSetNote => 0x21
  | .pcmSetWaveform => 0x22
  | .pcmSetVolume => 0x23
  | .pcmSetMaster => 0x24
  | .evTimerIrq => 0x80
  | .evFillIrq => 0x81
  | .evTickReturn => 0x82

/-- The row of R92 that a value of `W[31:24]` selects. -/
def Op.ofByte (b : Byte) : Option Op :=
  match b.toNat with
  | 0x01 => some .timerInit
  | 0x02 => some .timerGetTicks
  | 0x10 => some .fmInit
  | 0x11 => some .fmAssignInstrument
  | 0x12 => some .fmSetNote
  | 0x13 => some .fmSetMaster
  | 0x20 => some .pcmInit
  | 0x21 => some .pcmSetNote
  | 0x22 => some .pcmSetWaveform
  | 0x23 => some .pcmSetVolume
  | 0x24 => some .pcmSetMaster
  | 0x80 => some .evTimerIrq
  | 0x81 => some .evFillIrq
  | 0x82 => some .evTickReturn
  | _ => none

/-- The `format` column of R92: true for format E, the event words, which have bit 31 set. -/
def Op.isEvent : Op → Bool
  | .evTimerIrq => true
  | .evFillIrq => true
  | .evTickReturn => true
  | _ => false

/-- The `backend` column of R92; `none` means any. -/
def Op.backend : Op → Option Backend
  | .timerInit => none
  | .timerGetTicks => none
  | .fmInit => some .fm
  | .fmAssignInstrument => some .fm
  | .fmSetNote => some .fm
  | .fmSetMaster => some .fm
  | .pcmInit => some .pcm
  | .pcmSetNote => some .pcm
  | .pcmSetWaveform => some .pcm
  | .pcmSetVolume => some .pcm
  | .pcmSetMaster => some .pcm
  | .evTimerIrq => none
  | .evFillIrq => some .pcm
  | .evTickReturn => some .pcm

/-- The operation exists in this build (R95). -/
def Op.inBuild (op : Op) (b : Backend) : Bool :=
  match op.backend with
  | none => true
  | some b' => decide (b' = b)

/-- The `voice` column of R92: the operation uses `W[23:16]`; otherwise that field is reserved. -/
def Op.usesVoice : Op → Bool
  | .fmAssignInstrument => true
  | .fmSetNote => true
  | .pcmSetNote => true
  | .pcmSetWaveform => true
  | .pcmSetVolume => true
  | _ => false

/-- The `a` column of R92: the operation uses `W[15:8]`. -/
def Op.usesA : Op → Bool
  | .fmAssignInstrument => true
  | .fmSetNote => true
  | .pcmSetNote => true
  | .pcmSetWaveform => true
  | _ => false

/-- The `b` column of R92: the operation uses `W[7:0]`. -/
def Op.usesB : Op → Bool
  | .fmSetNote => true
  | .fmSetMaster => true
  | .pcmSetNote => true
  | .pcmSetWaveform => true
  | .pcmSetVolume => true
  | .pcmSetMaster => true
  | _ => false

/-- The operation with its operands, taken unchanged from the three byte fields (R91). -/
def Op.build (op : Op) (voice a b : Byte) : Instr :=
  match op with
  | .timerInit => .timerInit
  | .timerGetTicks => .timerGetTicks
  | .fmInit => .fmInit
  | .fmAssignInstrument => .fmAssignInstrument voice a
  | .fmSetNote => .fmSetNote voice a b
  | .fmSetMaster => .fmSetMaster b
  | .pcmInit => .pcmInit
  | .pcmSetNote => .pcmSetNote voice a b
  | .pcmSetWaveform => .pcmSetWaveform voice a b
  | .pcmSetVolume => .pcmSetVolume voice b
  | .pcmSetMaster => .pcmSetMaster b
  | .evTimerIrq => .evTimerIrq
  | .evFillIrq => .evFillIrq
  | .evTickReturn => .evTickReturn

/-- `W[31:24]` (R90). -/
def opField (w : Word) : Byte := w.extractLsb' 24 8

/-- `W[23:16]` (R90). -/
def voiceField (w : Word) : Byte := w.extractLsb' 16 8

/-- `W[15:8]` (R90). -/
def aField (w : Word) : Byte := w.extractLsb' 8 8

/-- `W[7:0]` (R90). -/
def bField (w : Word) : Byte := w.extractLsb' 0 8

/-- Every field the operation does not use is zero (R94 (c)). -/
def Op.reservedZero (op : Op) (voice a b : Byte) : Bool :=
  (op.usesVoice || decide (voice = 0)) && (op.usesA || decide (a = 0)) && (op.usesB || decide (b = 0))

/-- The decoder (R92): the row is chosen by `W[31:24]` alone, then the reserved fields are checked. -/
def decode (w : Word) : Decoded :=
  match Op.ofByte (opField w) with
  | none => .illegalOpcode (opField w)
  | some op =>
    if op.reservedZero (voiceField w) (aField w) (bField w) then
      .instr (op.build (voiceField w) (aField w) (bField w))
    else .reservedField op

/-- The row of an operation. -/
def Instr.op : Instr → Op
  | .timerInit => .timerInit
  | .timerGetTicks => .timerGetTicks
  | .fmInit => .fmInit
  | .fmAssignInstrument _ _ => .fmAssignInstrument
  | .fmSetNote _ _ _ => .fmSetNote
  | .fmSetMaster _ => .fmSetMaster
  | .pcmInit => .pcmInit
  | .pcmSetNote _ _ _ => .pcmSetNote
  | .pcmSetWaveform _ _ _ => .pcmSetWaveform
  | .pcmSetVolume _ _ => .pcmSetVolume
  | .pcmSetMaster _ => .pcmSetMaster
  | .evTimerIrq => .evTimerIrq
  | .evFillIrq => .evFillIrq
  | .evTickReturn => .evTickReturn

/-- The operation is an event (format E). -/
def Instr.isEvent (i : Instr) : Bool := i.op.isEvent

/-- The word with the four fields of R90: `op` in bits 31:24, `voice` in 23:16, `a` in 15:8, `b` in 7:0. -/
def packWord (op voice a b : Byte) : Word :=
  BitVec.ofNat 32 (op.toNat * 2 ^ 24 + voice.toNat * 2 ^ 16 + a.toNat * 2 ^ 8 + b.toNat)

/-- The encoder: the word of an operation by the opcode map (R92), unused fields zero. -/
def encode : Instr → Word
  | .timerInit => packWord 0x01 0 0 0
  | .timerGetTicks => packWord 0x02 0 0 0
  | .fmInit => packWord 0x10 0 0 0
  | .fmAssignInstrument voice patch => packWord 0x11 voice patch 0
  | .fmSetNote voice octave note => packWord 0x12 voice octave note
  | .fmSetMaster volume => packWord 0x13 0 0 volume
  | .pcmInit => packWord 0x20 0 0 0
  | .pcmSetNote voice octave note => packWord 0x21 voice octave note
  | .pcmSetWaveform voice waveform volume => packWord 0x22 voice waveform volume
  | .pcmSetVolume voice volume => packWord 0x23 voice 0 volume
  | .pcmSetMaster volume => packWord 0x24 0 0 volume
  | .evTimerIrq => packWord 0x80 0 0 0
  | .evFillIrq => packWord 0x81 0 0 0
  | .evTickReturn => packWord 0x82 0 0 0

/-- The instruction the decoder reads from a table row's bits: one 32-bit value, without byte order (R63 (c)), so bit 0
of the table is bit 0 of the word and every row has 32 bits. -/
def decodeTableWord (nbits w : Nat) : Option Instr :=
  if nbits = 32 ∧ w < 2 ^ 32 then
    match decode (BitVec.ofNat 32 w) with
    | .instr i => some i
    | .illegalOpcode _ => none
    | .reservedField _ => none
  else none

/-- The mnemonic column of R92. -/
def Instr.mnemonic : Instr → String
  | .timerInit => "TIMER_INIT"
  | .timerGetTicks => "TIMER_GET_TICKS"
  | .fmInit => "FM_INIT"
  | .fmAssignInstrument _ _ => "FM_ASSIGN_INSTRUMENT"
  | .fmSetNote _ _ _ => "FM_SET_NOTE"
  | .fmSetMaster _ => "FM_SET_MASTER"
  | .pcmInit => "PCM_INIT"
  | .pcmSetNote _ _ _ => "PCM_SET_NOTE"
  | .pcmSetWaveform _ _ _ => "PCM_SET_WAVEFORM"
  | .pcmSetVolume _ _ => "PCM_SET_VOLUME"
  | .pcmSetMaster _ => "PCM_SET_MASTER"
  | .evTimerIrq => "EV_TIMER_IRQ"
  | .evFillIrq => "EV_FILL_IRQ"
  | .evTickReturn => "EV_TICK_RETURN"

/-- The used operands in the order voice, a, b (R103). -/
def Instr.operands : Instr → List Byte
  | .timerInit => []
  | .timerGetTicks => []
  | .fmInit => []
  | .fmAssignInstrument voice patch => [voice, patch]
  | .fmSetNote voice octave note => [voice, octave, note]
  | .fmSetMaster volume => [volume]
  | .pcmInit => []
  | .pcmSetNote voice octave note => [voice, octave, note]
  | .pcmSetWaveform voice waveform volume => [voice, waveform, volume]
  | .pcmSetVolume voice volume => [voice, volume]
  | .pcmSetMaster volume => [volume]
  | .evTimerIrq => []
  | .evFillIrq => []
  | .evTickReturn => []

/-- The assembler line of an operation (R103): mnemonic, then the used operands in decimal, separated by commas. -/
def Instr.asm (i : Instr) : String :=
  match i.operands with
  | [] => i.mnemonic
  | ops => i.mnemonic ++ " " ++ ", ".intercalate (ops.map fun b => toString b.toNat)

/-! The pseudo-operations (R104): the document's uniform call names, each one operation chosen by `BACKEND`; `none` where
the table says "(does not exist)". -/

/-- `initialize`, `FM_INIT` or `PCM_INIT`. -/
def pseudoInit : Backend → Instr
  | .fm => .fmInit
  | .pcm => .pcmInit

/-- `set_note v, o, n`. -/
def pseudoSetNote (bk : Backend) (voice octave note : Byte) : Instr :=
  match bk with
  | .fm => .fmSetNote voice octave note
  | .pcm => .pcmSetNote voice octave note

/-- `set_master_volume x`. -/
def pseudoSetMasterVolume (bk : Backend) (x : Byte) : Instr :=
  match bk with
  | .fm => .fmSetMaster x
  | .pcm => .pcmSetMaster x

/-- `assign_instrument v, p`. -/
def pseudoAssignInstrument (bk : Backend) (voice patch : Byte) : Option Instr :=
  match bk with
  | .fm => some (.fmAssignInstrument voice patch)
  | .pcm => none

/-- `set_waveform v, w, x`. -/
def pseudoSetWaveform (bk : Backend) (voice w x : Byte) : Option Instr :=
  match bk with
  | .fm => none
  | .pcm => some (.pcmSetWaveform voice w x)

/-- `set_volume v, x`. -/
def pseudoSetVolume (bk : Backend) (voice x : Byte) : Option Instr :=
  match bk with
  | .fm => none
  | .pcm => some (.pcmSetVolume voice x)

/-- `note_off v`: on the FM path the note operand is the sentinel `FM_NOTE_NONE`. -/
def pseudoNoteOff (cfg : Config) (voice : Byte) : Instr :=
  match cfg.backend with
  | .fm => .fmSetNote voice 0 cfg.fmNoteNone
  | .pcm => .pcmSetNote voice 0 0

/-- `timer_initialize`. -/
def pseudoTimerInit : Backend → Instr
  | .fm => .timerInit
  | .pcm => .timerInit

/-- `get_ticks`. -/
def pseudoGetTicks : Backend → Instr
  | .fm => .timerGetTicks
  | .pcm => .timerGetTicks

end Sys2Proof
end

