-- ==== Sys2Proof/Machine/Tables.lean ====
section
/-!
DEFINITION. The default contents of the constant tables (10_state.md R38 to R45) and of the port map (20_memory.md R68),
the test configuration of 95_test_vectors.md, the quantities derived from a configuration, and the constraints of R10 and R64
outside which the model refuses a configuration.
-/

namespace Sys2Proof

/-! ## Quantities derived from a configuration -/

/-- `HALF_SAMPLES = BUFFER_SAMPLES / 2` (R10). -/
def Config.halfSamples (c : Config) : Nat := c.bufferSamples / 2

/-- `PHASE_MOD = WAVE_LEN * 256` (R11). -/
def Config.phaseMod (c : Config) : Nat := c.waveLen * 256

/-- `NUM_PATCHES` (R10, R45). -/
def Config.numPatches (c : Config) : Nat := c.patches.length

/-- The four waveform identifiers (R181). -/
def Config.waveIds (c : Config) : List Byte := [c.waveSine, c.waveSquare, c.waveNoise, c.waveTriangle]

/-- `w` names a table or the noise source (R181). -/
def Config.isWave (c : Config) (w : Byte) : Bool := decide (w ∈ c.waveIds)

/-- `WAVE_TABLE[w]` for the identifier of a table waveform (R40); the noise waveform has none (R41). -/
def Config.waveTable (c : Config) (w : Byte) : Option (List Byte) :=
  if w = c.waveSine then some c.sineTable
  else if w = c.waveSquare then some c.squareTable
  else if w = c.waveTriangle then some c.triangleTable
  else none

/-- `MemRead(NOTE_BASE, n, 16)` (R38): no entry for 0 and above 12. -/
def Config.noteBaseAt (c : Config) (n : Nat) : Option (BitVec 16) :=
  match n with
  | 0 => none
  | k + 1 => c.noteBase[k]?

/-- `FNUM[n]` (R42): no entry for 0 and above 12. -/
def Config.fnumAt (c : Config) (n : Nat) : Option (BitVec 10) :=
  match n with
  | 0 => none
  | k + 1 => c.fnum[k]?

/-- The note byte's note field `nb[3:0]` (R96). -/
def noteOf (nb : Byte) : Nat := nb.toNat % 16

/-- The note byte's octave field `nb[7:4]` (R96). -/
def octaveOf (nb : Byte) : Nat := nb.toNat / 16

/-- What R22 says a voice's note register always satisfies. -/
def Config.noteByteOk (c : Config) (nb : Byte) : Bool :=
  decide (noteOf nb ≤ 12) && (decide (noteOf nb = 0) || decide (octaveOf nb < c.numOctaves))

/-! ## The constraints on a configuration -/

/-- `BUFFER_SAMPLES` even, 2 to 65536; `BUF_PHYS` even; the buffer inside one 128 KiB page (R10, R64). -/
def Config.wfBuffer (c : Config) : Bool :=
  decide (c.bufferSamples % 2 = 0) && decide (2 ≤ c.bufferSamples) && decide (c.bufferSamples ≤ 65536) &&
  decide (c.bufPhys.toNat % 2 = 0) && decide (c.bufPhys.toNat % 131072 + 2 * c.bufferSamples ≤ 131072)

/-- The rates and counts of R10 that are at least 1. -/
def Config.wfRates (c : Config) : Bool :=
  decide (c.sampleRate ≠ 0) && decide (c.samplesPerTick ≠ 0) && decide (c.tickCntReset ≠ 0) &&
  decide (c.timerTargetHz ≠ 0) && decide (1 ≤ c.clockNum) && decide (1 ≤ c.clockDen) && decide (1 ≤ c.resetPollMax) &&
  decide (c.pcmIrqLine ≠ 0)

/-- The list has exactly `n` entries, counted down so that a long table is checked entry by entry. -/
def hasLength {α : Type} : List α → Nat → Bool
  | [], 0 => true
  | [], _ + 1 => false
  | _ :: _, 0 => false
  | _ :: xs, n + 1 => hasLength xs n

/-- `WAVE_LEN` 1 to 2^24, tables of that length, four different identifiers, 0 and `DEFAULT_WAVE` among them (R202, U20),
`REF_WAVE` the identifier of a table (R10). -/
def Config.wfWaves (c : Config) : Bool :=
  decide (1 ≤ c.waveLen) && decide (c.waveLen ≤ 2 ^ 24) && hasLength c.sineTable c.waveLen &&
  hasLength c.squareTable c.waveLen && hasLength c.triangleTable c.waveLen && decide (c.waveIds.Nodup) &&
  c.isWave 0 && c.isWave c.defaultWave && c.isWave c.refWave && decide (c.refWave ≠ c.waveNoise)

/-- Twelve semitones, 1 to 16 octaves with a multiplier each (R10, R38, R39), which is at most `2^15`, the largest of R39, so that
the widths of R211 hold (DEDUCED, log entry 15). -/
def Config.wfNotes (c : Config) : Bool :=
  decide (c.noteBase.length = 12) && decide (1 ≤ c.numOctaves) && decide (c.numOctaves ≤ 16) &&
  decide (c.octMul.length = c.numOctaves) && c.octMul.all (fun m => decide (m ≤ 2 ^ 15))

/-- The largest byte of a list, 0 for the empty list. -/
def maxByte : List Byte → Nat
  | [] => 0
  | b :: bs => max b.toNat (maxByte bs)

/-- Twelve F-numbers, two disjoint slot tables of 6 entries, at most 6 voices, at least 2 patches, and no register address
that leaves the low byte (R9, R10, R43, R101). DESIGN CHOICE (log entry 25): a slot table that repeats an entry, and register
families that overlap, are legal, although R133 and R138 take the registers as different. -/
def Config.wfFm (c : Config) : Bool :=
  decide (c.fnum.length = 12) && decide (c.fmVoices ≤ 6) && decide (c.op1Slot.length = 6) && decide (c.op2Slot.length = 6) &&
  c.op1Slot.all (fun b => decide (b ∉ c.op2Slot)) && decide (2 ≤ c.patches.length) &&
  decide (maxByte [c.fmMap.tvsm, c.fmMap.kslTl, c.fmMap.ad, c.fmMap.sr, c.fmMap.wave] +
    maxByte (c.op1Slot ++ c.op2Slot) ≤ 255) &&
  decide (maxByte [c.fmMap.fbSyn, c.fmMap.freq, c.fmMap.key] + 5 ≤ 255)

/-- The model runs this configuration; any other is refused (R64, U20; DEDUCED, log entry 15). -/
def Config.wf (c : Config) : Bool :=
  c.wfBuffer && c.wfRates && c.wfWaves && c.wfNotes && c.wfFm

/-! ## Default contents -/

/-- `NOTE_BASE[1..12]` (R38). -/
def defaultNoteBase : List (BitVec 16) :=
  [4186, 4435, 4699, 4978, 5274, 5588, 5920, 6272, 6645, 7040, 7459, 7902]

/-- `OCT_MUL[o] = 2^o` for `n` octaves (R39). -/
def powersOfTwo (n : Nat) : List Nat := (List.range n).map (2 ^ ·)

/-- `WAVE_TABLE[0][0..127]` (R40, the listed numbers). -/
def sineHalf : List Int :=
  [0, 3, 6, 9, 12, 16, 19, 22, 25, 28, 31, 34, 37, 40, 43, 46] ++
  [49, 51, 54, 57, 60, 63, 65, 68, 71, 73, 76, 78, 81, 83, 85, 88] ++
  [90, 92, 94, 96, 98, 100, 102, 104, 106, 107, 109, 111, 112, 113, 115, 116] ++
  [117, 118, 120, 121, 122, 122, 123, 124, 125, 125, 126, 126, 126, 127, 127, 127] ++
  [127, 127, 127, 127, 126, 126, 126, 125, 125, 124, 123, 122, 122, 121, 120, 118] ++
  [117, 116, 115, 113, 112, 111, 109, 107, 106, 104, 102, 100, 98, 96, 94, 92] ++
  [90, 88, 85, 83, 81, 78, 76, 73, 71, 68, 65, 63, 60, 57, 54, 51] ++
  [49, 46, 43, 40, 37, 34, 31, 28, 25, 22, 19, 16, 12, 9, 6, 3]

/-- `WAVE_TABLE[3][0..127]` (R40, the listed numbers). -/
def triangleHalf : List Int :=
  [0, 2, 4, 6, 8, 10, 12, 14, 16, 18, 20, 22, 24, 26, 28, 30] ++
  [32, 34, 36, 38, 40, 42, 44, 46, 48, 50, 52, 54, 56, 58, 60, 62] ++
  [64, 65, 67, 69, 71, 73, 75, 77, 79, 81, 83, 85, 87, 89, 91, 93] ++
  [95, 97, 99, 101, 103, 105, 107, 109, 111, 113, 115, 117, 119, 121, 123, 125] ++
  [127, 125, 123, 121, 119, 117, 115, 113, 111, 109, 107, 105, 103, 101, 99, 97] ++
  [95, 93, 91, 89, 87, 85, 83, 81, 79, 77, 75, 73, 71, 69, 67, 65] ++
  [64, 62, 60, 58, 56, 54, 52, 50, 48, 46, 44, 42, 40, 38, 36, 34] ++
  [32, 30, 28, 26, 24, 22, 20, 18, 16, 14, 12, 10, 8, 6, 4, 2]

/-- A half wave followed by its negation, as signed bytes (R40: "`WAVE_TABLE[w][k] = -WAVE_TABLE[w][k - 128]`"). -/
def oddWave (half : List Int) : List Byte :=
  half.map (BitVec.ofInt 8) ++ half.map (fun t => BitVec.ofInt 8 (-t))

/-- `WAVE_TABLE[0]`, sine (R40). -/
def defaultSine : List Byte := oddWave sineHalf

/-- `WAVE_TABLE[1]`, square: +127 for 0 to 127, -127 for 128 to 255 (R40). -/
def defaultSquare : List Byte := oddWave (List.replicate 128 127)

/-- `WAVE_TABLE[3]`, triangle (R40). -/
def defaultTriangle : List Byte := oddWave triangleHalf

/-- `FNUM[1..12]` (R42). -/
def defaultFnum : List (BitVec 10) :=
  [0x159, 0x16D, 0x183, 0x19A, 0x1B3, 0x1CC, 0x1E8, 0x205, 0x223, 0x244, 0x267, 0x28B]

/-- `OP1_SLOT` (R43). -/
def defaultOp1Slot : List Byte := [0x00, 0x01, 0x02, 0x08, 0x09, 0x0A]

/-- `OP2_SLOT` (R43). -/
def defaultOp2Slot : List Byte := [0x03, 0x04, 0x05, 0x0B, 0x0C, 0x0D]

/-- The register family bases (R44). -/
def defaultFmMap : FmMap where
  tvsm := 0x20
  kslTl := 0x40
  ad := 0x60
  sr := 0x80
  wave := 0xE0
  fbSyn := 0xC0
  freq := 0xA0
  key := 0xB0

/-- `FM_INIT_SEQ` (R131). -/
def defaultFmInitSeq : List (Bank × Byte × Byte) :=
  [(.secondary, 0x05, 0x01), (.primary, 0x01, 0x20)]

/-- The default of `MIXER_IRQ_VALUE` for a playback line (R68): lines 2, 5, 7 and 10. -/
def mixerIrqValueOf (line : BitVec 4) : Option Byte :=
  match line.toNat with
  | 2 => some 0x01
  | 5 => some 0x02
  | 7 => some 0x04
  | 10 => some 0x08
  | _ => none

/-- The port map and command bytes (R68); `MIXER_IRQ_VALUE` for line 5. -/
def defaultPorts : PortMap where
  dspMixerAddr := 0x224
  dspMixerData := 0x225
  dspReset := 0x226
  dspRead := 0x22A
  dspWrite := 0x22C
  dspRstatus := 0x22E
  dspAck16 := 0x22F
  mixerRegIrq := 0x80
  mixerIrqValue := 0x02
  dspCmdVersion := 0xE1
  dspCmdRate := 0x41
  dspCmdPlay := 0xB6
  dspMode := 0x10
  dspCmdGo1 := 0xD1
  dspCmdGo2 := 0xD6
  dmaMask := 0xD4
  dmaMaskOff := 0x05
  dmaMaskOn := 0x01
  dmaClearFf := 0xD8
  dmaMode := 0xD6
  dmaModeValue := 0x59
  dmaAddr := 0xC4
  dmaCount := 0xC6
  dmaPage := 0x8B
  pic1Cmd := 0x20
  pic2Cmd := 0xA0
  picEoi := 0x20
  pitCmd := 0x43
  pitCh0 := 0x40
  pitMode := 0x36
  fmIndex0 := 0x388
  fmData0 := 0x389
  fmIndex1 := 0x38A
  fmData1 := 0x38B

/-- `PATCH[0]` of the test configuration (95_test_vectors.md): bytes 0x10 to 0x1A. -/
def testPatch0 : Patch where
  feedbackAndSynthType := 0x10
  operator1 := ⟨0x11, 0x12, 0x13, 0x14, 0x15⟩
  operator2 := ⟨0x16, 0x17, 0x18, 0x19, 0x1A⟩

/-- `PATCH[1]` of the test configuration: bytes 0x30 to 0x3A. -/
def testPatch1 : Patch where
  feedbackAndSynthType := 0x30
  operator1 := ⟨0x31, 0x32, 0x33, 0x34, 0x35⟩
  operator2 := ⟨0x36, 0x37, 0x38, 0x39, 0x3A⟩

/-- The defaults of R10 and, for the OPEN parameters, the test configuration of 95_test_vectors.md, with the given backend. DESIGN
CHOICE (log entry 1): R10 makes no value of an OPEN parameter normative, and statements range over every configuration. -/
def Config.reference (bk : Backend) : Config where
  backend := bk
  sampleRate := 22050
  bufferSamples := 8
  samplesPerTick := 3
  tickCntReset := 3
  waveLen := 256
  sineTable := defaultSine
  squareTable := defaultSquare
  triangleTable := defaultTriangle
  waveSine := 0
  waveSquare := 1
  waveNoise := 2
  waveTriangle := 3
  defaultWave := 0
  refWave := 0
  noteBase := defaultNoteBase
  octMul := powersOfTwo 8
  numOctaves := 8
  fnum := defaultFnum
  fmNoteNone := 0
  fmVoices := 6
  op1Slot := defaultOp1Slot
  op2Slot := defaultOp2Slot
  fmMap := defaultFmMap
  patches := [testPatch0, testPatch1]
  fmInitSeq := defaultFmInitSeq
  ports := defaultPorts
  pcmIrqLine := 5
  bufPhys := 0x012340
  resetPollMax := 3
  dspAck := 0xAA
  dspMinMajor := 4
  deviceName := ['S', 'B', '1', '6']
  timerTargetHz := 1000
  clockNum := 3579545
  clockDen := 3

end Sys2Proof
end

