-- ==== Sys2Proof/Machine/State.lean ====
section
/-!
DEFINITION. The state of TOS-AUD as plain data (10_state.md R20 to R37), the reasons a step can stop, and the state after
power-on reset (R46, R260).
-/

namespace Sys2Proof.Machine

/-- Reasons a step can stop the model. Both kinds of failure the spec describes, `Fatal` and `CmdFault`, are NEXT states
(R231, R236), not these. DESIGN CHOICE (log entry 14). -/
inductive Fault where
  /-- The fill engine stores or the `Dma` agent reads a sample index outside `0 .. BUFFER_SAMPLES - 1`, which R60 says does
  not exist. Raised by `mixStep` and `dmaStep`. Safe: the model stops, and no state that keeps the invariant reaches it. -/
  | bufferIndex
  /-- The mixer reads past `NOTE_BASE`, `OCT_MUL` or a wave table (R60). Raised by `mixVoice`. Safe, as above. -/
  | tableIndex
  /-- A sounding voice's waveform register names neither a table nor the noise source (R202 says it always does). Raised by
  `mixVoice`. Safe, as above. -/
  | noWaveform
  /-- The fill engine is in COUNT with `fill_i` above `HALF_SAMPLES`, for which R210 has no row. Raised by `countStep`. Safe,
  as above. -/
  | fillIndex
  deriving DecidableEq, Repr

/-- Reasons the model gives no meaning. -/
inductive Refusal where
  /-- An instruction without a meaning yet; raised by `exec` only. Safe: the model stops. -/
  | notModelled (mnemonic : String)
  /-- The configuration breaks a constraint of R10 or R64; raised by `step`. The spec's own treatment (U20 "refuse: the
  model rejects the configuration"). Safe: the model stops. -/
  | configuration
  deriving DecidableEq, Repr

/-- The four registers of one voice (R21). -/
structure Voice where
  note : Byte
  wave : Byte
  vol : Byte
  phase : BitVec 32
  deriving DecidableEq, Repr

/-- A half of the sample buffer (R17, R25): the front is value 0 of the flip flag, the back value 1. -/
inductive Half where
  | front
  | back
  deriving DecidableEq, Repr

/-- The fill engine's step (R27, R210). -/
inductive FillState where
  | idle
  | count
  | waitTick
  | mix
  | exit
  deriving DecidableEq, Repr

/-- The initialisation state machine of the PCM path (R29, R151). -/
inductive PcmState where
  | unreset
  | resetPulsed
  | awaitingAck
  | versionChecked
  | ready
  | armed
  | failed
  deriving DecidableEq, Repr

/-- A record of the port trace (R15, R37). -/
inductive PortAccess where
  | write (addr : PortAddr) (val : Byte)
  | read (addr : PortAddr) (val : Byte)
  deriving DecidableEq, Repr

/-- A record of the FM trace (R37, R130). -/
structure FmRecord where
  bank : Bank
  reg : Byte
  val : Byte
  deriving DecidableEq, Repr

/-- One atomic access of a command (R66, R74): a port access, a register or buffer store, or a change of the sequencing
state that stands between two accesses. A command is a list of these, in the order its rule gives. -/
inductive Access where
  /-- `PortWrite(addr, val)` of a timer operation (R120) -/
  | portWrite (addr : PortAddr) (val : Byte)
  /-- the end of `TIMER_INIT`: handler installed, `timer_run <- 1` (R120) -/
  | timerStart
  /-- the index write of an `FmWrite` (R130) -/
  | fmIndex (bank : Bank) (reg : Byte)
  /-- the data write of an `FmWrite`, with its shadow and trace record (R130) -/
  | fmData (bank : Bank) (reg val : Byte)
  /-- `keycache[i] <- k` (R135) -/
  | cacheKey (i : Fin 6) (k : Byte)
  /-- a `PortWrite` of `PCM_INIT`, counted by `init_step` (R27) -/
  | initWrite (addr : PortAddr) (val : Byte)
  /-- `pcm_state <- p` (R151) -/
  | enterState (p : PcmState)
  /-- the start of the polling loop (R153) -/
  | startPoll
  /-- one status read of the polling loop (R153) -/
  | poll
  /-- the acknowledgement read and its check (R154) -/
  | readAck
  /-- the first read of the version query (R155) -/
  | readMajor
  /-- the second read of the version query, and the check (R155, R156) -/
  | readMinor (major : Byte)
  /-- the mixer read-back and its check (R158) -/
  | readMixer
  /-- `dma_run <- 1` after the second "go" (R162) -/
  | dmaStart
  /-- `v[j].note <- b` -/
  | storeNote (j : Fin 8) (b : Byte)
  /-- `v[j].wave <- b` -/
  | storeWave (j : Fin 8) (b : Byte)
  /-- `v[j].vol <- b` -/
  | storeVol (j : Fin 8) (b : Byte)
  /-- the preload's store of sample `k` (R164) -/
  | preload (k : Nat)
  deriving DecidableEq, Repr

/-- What the Sequencer does in a tick window (R8, R196): presents a word on `cmd`, or returns from the tick. -/
inductive SeqAct where
  | command (w : Word)
  | tickReturn
  deriving DecidableEq, Repr

/-- Memory as its listed bytes, addresses strictly rising, none equal to what an unlisted address reads as. -/
abbrev Memory := List Host.Cell

/-- The FM register image as its written registers, keys strictly rising. -/
abbrev FmImage := List Host.Cell

/-- A source of values the environment chooses: the values listed next, then a free value at a counter (log entry 3). -/
structure Source (α : Type) where
  listed : List α
  drawn : Nat
  deriving DecidableEq, Repr

/-- The whole state (R20). The fields after `rsp` are the model's own, no registers of the spec (INVENTORY.md). -/
structure State where
  /-- the configuration (R10); no step writes it (R48, log entry 1) -/
  cfg : Config
  /-- `v[0..7]` (R21) -/
  voices : Vector Voice 8
  /-- `master` (R24) -/
  master : Byte
  /-- `drain_half`, the flip flag (R25) -/
  drainHalf : Half
  /-- `tick_cnt` (R26) -/
  tickCnt : BitVec 32
  /-- `fill_state` (R27) -/
  fillState : FillState
  /-- `fill_i` (R27) -/
  fillI : Nat
  /-- `init_step` (R27): port accesses `PCM_INIT` has made (DEDUCED, log entry 24) -/
  initStep : Nat
  /-- `poll_cnt` (R27) -/
  pollCnt : Nat
  /-- `pend_fill` (R28) -/
  pendFill : Bool
  /-- `pend_timer` (R28) -/
  pendTimer : Bool
  /-- `in_fill` (R28) -/
  inFill : Bool
  /-- `tick_open` (R28) -/
  tickOpen : Bool
  /-- `fill_overrun` (R28) -/
  fillOverrun : Bool
  /-- `pcm_state` (R29) -/
  pcmState : PcmState
  /-- `fault_code` (R30) -/
  faultCode : Byte
  /-- `fault_diag` (R30) -/
  faultDiag : Byte
  /-- `halted` (R30) -/
  halted : Bool
  /-- `timer_inited` (R31) -/
  timerInited : Bool
  /-- `fm_inited` (R31) -/
  fmInited : Bool
  /-- `pcm_inited` (R31) -/
  pcmInited : Bool
  /-- `timer_freq` (R32) -/
  timerFreq : BitVec 32
  /-- `timer_div` (R32) -/
  timerDiv : BitVec 17
  /-- `tick_count` (R32) -/
  tickCount : BitVec 32
  /-- `keycache[0..5]` (R33) -/
  keycache : Vector Byte 6
  /-- `fm_image` (R34): register `r` of bank `b` at key `256 * b + r`; an unlisted key is `unwritten` -/
  fmImage : FmImage
  /-- the memory that holds `buf` (R35, R63): physical byte addresses; an unlisted byte reads 0 (R46) -/
  mem : Memory
  /-- `dma_run` (R36) -/
  dmaRun : Bool
  /-- `drain_pos` (R36) -/
  drainPos : Nat
  /-- `timer_run` (R36) -/
  timerRun : Bool
  /-- `port_trace` (R37), oldest first -/
  portTrace : List PortAccess
  /-- `fm_trace` (R37), oldest first -/
  fmTrace : List FmRecord
  /-- `pcm_out` (R37), oldest first -/
  pcmOut : List Sample
  /-- `tick_trace` (R37), oldest first -/
  tickTrace : List Nat
  /-- `diag_line` (R37): no line, or one line (DEDUCED, log entry 12) -/
  diagLine : Option Text
  /-- `rsp` (R37, R107): no response yet, or the last response word (DEDUCED, log entry 12) -/
  rsp : Option Word
  /-- how many samples have been produced so far (the value R196 records; DEDUCED, log entry 5) -/
  samplesDone : Nat
  /-- what is left of a Host command that an interrupt cut between two accesses (R74) -/
  hostOps : List Access
  /-- how many accesses the Host makes in this turn before another agent may step; `none`: no cut (log entry 4) -/
  slice : Option Nat
  /-- the schedule of the agents (R8, R48) -/
  turns : Source Turn
  /-- the `PortDev` oracle's answers (R70) -/
  portDev : Source Byte
  /-- the values of `NoiseDraw()` (R203) -/
  noise : Source Byte
  /-- the order of the two stores of each `PCM_SET_WAVEFORM` (R181): true means volume first -/
  storeOrder : Source Bool
  /-- the words the Host presents on `cmd`, in order (R7) -/
  hostWords : List Word
  /-- what the Sequencer does, in order (R7) -/
  seqActs : List SeqAct
  deriving DecidableEq, Repr

/-- A source with nothing listed and nothing drawn. -/
def Source.fresh {α : Type} : Source α := ⟨[], 0⟩

/-- A voice at power-on (R21, R46). -/
def Voice.reset : Voice := ⟨0, 0, 0, 0⟩

/-- The state right after power-on reset (R46, R260) of a block with configuration `c`. -/
def State.resetWith (c : Config) : State where
  cfg := c
  voices := Vector.replicate 8 Voice.reset
  master := 0
  drainHalf := .front
  tickCnt := c.tickCntReset
  fillState := .idle
  fillI := 0
  initStep := 0
  pollCnt := 0
  pendFill := false
  pendTimer := false
  inFill := false
  tickOpen := false
  fillOverrun := false
  pcmState := .unreset
  faultCode := 0
  faultDiag := 0
  halted := false
  timerInited := false
  fmInited := false
  pcmInited := false
  timerFreq := 0
  timerDiv := 0
  tickCount := 0
  keycache := Vector.replicate 6 0
  fmImage := []
  mem := []
  dmaRun := false
  drainPos := 0
  timerRun := false
  portTrace := []
  fmTrace := []
  pcmOut := []
  tickTrace := []
  diagLine := none
  rsp := none
  samplesDone := 0
  hostOps := []
  slice := none
  turns := Source.fresh
  portDev := Source.fresh
  noise := Source.fresh
  storeOrder := Source.fresh
  hostWords := []
  seqActs := []

/-- The state after reset of the reference configuration, PCM build (log entry 1). -/
def State.reset : State := State.resetWith (Config.reference .pcm)

end Sys2Proof.Machine
end

