-- ==== Sys2Proof/Machine/Ops.lean ====
section
/-!
DEFINITION. The named operations over memory, registers, ports and sources, and the exceptions of the block: `Fatal` (R231),
`CmdFault` (R236), entry into and return from the playback handler (R242, R243), each as one shared operation.
-/

namespace Sys2Proof.Machine

/-! ## Arithmetic (00_scope.md R13) -/

/-- `asr(v, k) = floor(v / 2^k)`: rounds toward minus infinity. -/
def asr (v : Int) (k : Nat) : Int := v / 2 ^ k

/-- `trunc_16(v)` for any integer (R13, R207). -/
def trunc16 (v : Int) : Sample := BitVec.ofInt 16 v

/-- Bits 7:0 of a 16-bit value. -/
def lowByte (x : BitVec 16) : Byte := x.extractLsb' 0 8

/-- Bits 15:8 of a 16-bit value. -/
def highByte (x : BitVec 16) : Byte := x.extractLsb' 8 8

/-! ## Sources of values the environment chooses -/

/-- The next value of a source: the first listed one, or the free value at the counter; the counter advances. -/
def Source.next {α : Type} (free : Nat → α) (src : Source α) : α × Source α :=
  match src.listed with
  | x :: xs => (x, ⟨xs, src.drawn + 1⟩)
  | [] => (free src.drawn, ⟨[], src.drawn + 1⟩)

/-! ## Cells: lists of keys and bytes, keys strictly rising -/

/-- The byte listed at key `a`. -/
def cellFind (a : Nat) : List Host.Cell → Option Byte
  | [] => none
  | (k, v) :: rest => if k = a then some v else cellFind a rest

/-- List byte `v` at key `a`, in its place. -/
def cellPut (a : Nat) (v : Byte) : List Host.Cell → List Host.Cell
  | [] => [(a, v)]
  | (k, w) :: rest =>
    if a < k then (a, v) :: (k, w) :: rest
    else if a = k then (a, v) :: rest
    else (k, w) :: cellPut a v rest

/-- Take key `a` out of the list. -/
def cellDrop (a : Nat) : List Host.Cell → List Host.Cell
  | [] => []
  | (k, w) :: rest => if k = a then rest else (k, w) :: cellDrop a rest

/-- Keys strictly rising. -/
def cellsSorted (m : List Host.Cell) : Bool := decide (m.Pairwise fun c d => c.1 < d.1)

/-! ## Memory: the bytes of the sample buffer (R35, R63) -/

/-- What a byte of memory reads as: 0 where nothing is listed (R46: every `buf` element is 0 at reset;
log entry 11). -/
def Memory.read (m : Memory) (a : Nat) : Byte := (cellFind a m).getD 0

/-- Store a byte; storing 0 removes the entry, so that equal memories are equal lists. -/
def Memory.write (m : Memory) (a : Nat) (v : Byte) : Memory :=
  if v = 0 then cellDrop a m else cellPut a v m

/-- The canonical form: addresses strictly rising, no entry equal to what an unlisted address reads as. -/
def Memory.wf (m : Memory) : Bool := cellsSorted m && m.all fun c => decide (c.2 ≠ 0)

/-- The 16-bit sample at byte address `a`, low byte first (R63 (a)). -/
def Memory.readSample (m : Memory) (a : Nat) : Sample :=
  BitVec.ofNat 16 ((m.read (a + 1)).toNat * 256 + (m.read a).toNat)

/-- Store a 16-bit sample at byte address `a`, low byte first (R63 (a)). -/
def Memory.writeSample (m : Memory) (a : Nat) (v : Sample) : Memory :=
  (m.write a (lowByte v)).write (a + 1) (highByte v)

/-- The byte address of `buf[k]` (R63 (a)): `BUF_PHYS + 2k`. -/
def State.sampleAddr (s : State) (k : Nat) : Nat := s.cfg.bufPhys.toNat + 2 * k

/-- `MemRead(buf, k, 16)` (R15). -/
def State.sample (s : State) (k : Nat) : Sample := s.mem.readSample (s.sampleAddr k)

/-- `MemWrite(buf, k, 16, v)` (R15). -/
def State.setSample (s : State) (k : Nat) (v : Sample) : State :=
  { s with mem := s.mem.writeSample (s.sampleAddr k) v }

/-! ## The flip flag (R25) -/

/-- `1 - h`. -/
def Half.other : Half → Half
  | .front => .back
  | .back => .front

/-- The value of the flip flag. -/
def Half.index : Half → Nat
  | .front => 0
  | .back => 1

/-! ## Voice registers (R21) -/

/-- `v[j].note <- b`. -/
def State.setNote (s : State) (j : Fin 8) (b : Byte) : State :=
  { s with voices := s.voices.set j { s.voices[j] with note := b } }

/-- `v[j].wave <- b`. -/
def State.setWave (s : State) (j : Fin 8) (b : Byte) : State :=
  { s with voices := s.voices.set j { s.voices[j] with wave := b } }

/-- `v[j].vol <- b`. -/
def State.setVol (s : State) (j : Fin 8) (b : Byte) : State :=
  { s with voices := s.voices.set j { s.voices[j] with vol := b } }

/-! ## Ports (R15, R61, R67) -/

/-- `PortWrite(a, v)`: recorded in the port trace. -/
def State.portWrite (s : State) (a : PortAddr) (v : Byte) : State :=
  { s with portTrace := s.portTrace ++ [.write a v] }

/-- The byte the `PortDev` oracle gives for the next port read (R70). -/
def State.portAnswer (s : State) : Byte := (s.portDev.next Config.freePortByte).1

/-- `PortRead(a)`: takes the oracle's next answer, recorded in the port trace. Its value is `portAnswer`. -/
def State.portRead (s : State) (a : PortAddr) : State :=
  { s with
    portDev := (s.portDev.next Config.freePortByte).2
    portTrace := s.portTrace ++ [.read a s.portAnswer] }

/-! ## The FM chip (R62, R130) -/

/-- The index port of a bank. -/
def fmIndexPort (p : PortMap) : Bank → PortAddr
  | .primary => p.fmIndex0
  | .secondary => p.fmIndex1

/-- The data port of a bank. -/
def fmDataPort (p : PortMap) : Bank → PortAddr
  | .primary => p.fmData0
  | .secondary => p.fmData1

/-- The key of a register in `fm_image`. -/
def fmKey (bank : Bank) (reg : Byte) : Nat :=
  match bank with
  | .primary => reg.toNat
  | .secondary => 256 + reg.toNat

/-- `fm_image[bank][reg]`: `none` is `unwritten` (R34). -/
def State.fmImageAt (s : State) (bank : Bank) (reg : Byte) : Option Byte := cellFind (fmKey bank reg) s.fmImage

/-- The index write of `FmWrite` (R130). -/
def State.fmSelect (s : State) (bank : Bank) (reg : Byte) : State :=
  s.portWrite (fmIndexPort s.cfg.ports bank) reg

/-- The data write of `FmWrite` with the shadow and the trace record (R130). -/
def State.fmStore (s : State) (bank : Bank) (reg val : Byte) : State :=
  { s with
    portTrace := s.portTrace ++ [.write (fmDataPort s.cfg.ports bank) val]
    fmImage := cellPut (fmKey bank reg) val s.fmImage
    fmTrace := s.fmTrace ++ [⟨bank, reg, val⟩] }

/-! ## The diagnostic line (R102) -/

/-- A decimal digit. -/
def digit (n : Nat) : Char := Char.ofNat (48 + n)

/-- A byte in decimal, without sign or padding (R102 (a)). -/
def decimal (b : Byte) : Text :=
  let n := b.toNat
  if n < 10 then [digit n]
  else if n < 100 then [digit (n / 10), digit (n % 10)]
  else [digit (n / 100), digit (n / 10 % 10), digit (n % 10)]

/-- `"FAILED TO RESET <DEVICE>: <reason>/<diagnostic>"` (R102 (a)). -/
def resetFailureLine (device : Text) (reason diag : Byte) : Text :=
  ['F', 'A', 'I', 'L', 'E', 'D', ' ', 'T', 'O', ' ', 'R', 'E', 'S', 'E', 'T', ' '] ++ device ++ [':', ' '] ++
    decimal reason ++ ['/'] ++ decimal diag

/-- `"<DEVICE> IRQ MISMATCH: <expected>/<observed>"` (R102 (c)). -/
def mismatchLine (device : Text) (expected observed : Byte) : Text :=
  device ++ [' ', 'I', 'R', 'Q', ' ', 'M', 'I', 'S', 'M', 'A', 'T', 'C', 'H', ':', ' '] ++
    decimal expected ++ ['/'] ++ decimal observed

/-- The packed version (R102 (b)): major in the high nibble, the low nibble of minor. -/
def packVersion (major minor : Byte) : Byte := (major <<< 4) ||| (minor &&& 0x0F)

/-! ## Exceptions -/

/-- `RESET_NO_ACK` and `RESET_BAD_ACK` (R232). -/
def codeDetection : Byte := 0x01

/-- `VERSION_TOO_LOW` (R232). -/
def codeVersion : Byte := 0x03

/-- `IRQ_CONFIG_MISMATCH` (R232). -/
def codeMismatch : Byte := 0x10

/-- `CMD_ILLEGAL_OPCODE` (R237). -/
def cmdIllegalOpcode : Byte := 0x20

/-- `CMD_WRONG_BACKEND` (R237). -/
def cmdWrongBackend : Byte := 0x21

/-- `CMD_VOICE_RANGE` (R237). -/
def cmdVoiceRange : Byte := 0x22

/-- `CMD_NOTE_RANGE` (R237). -/
def cmdNoteRange : Byte := 0x23

/-- `CMD_OCTAVE_RANGE` (R237). -/
def cmdOctaveRange : Byte := 0x24

/-- `CMD_WAVEFORM_RANGE` (R237). -/
def cmdWaveformRange : Byte := 0x25

/-- `CMD_PATCH_RANGE` (R237). -/
def cmdPatchRange : Byte := 0x26

/-- `CMD_REINIT` (R237). -/
def cmdReinit : Byte := 0x27

/-- `CMD_RESERVED_FIELD` (R237). -/
def cmdReservedField : Byte := 0x28

/-- The line a fatal failure emits (R231): R102 (c) for code 0x10, R102 (a) otherwise. -/
def fatalLine (c : Config) (code diag : Byte) : Text :=
  if code = codeMismatch then mismatchLine c.deviceName c.ports.mixerIrqValue diag
  else resetFailureLine c.deviceName code diag

/-- `raise Fatal(code, diag)` (R231). -/
def State.raiseFatal (s : State) (code diag : Byte) : State :=
  { s with
    faultCode := code
    faultDiag := diag
    pcmState := .failed
    diagLine := some (fatalLine s.cfg code diag)
    halted := true }

/-- `raise CmdFault(code)` (R236); `opcode` is the opcode byte of the offending word. -/
def State.raiseCmdFault (s : State) (code opcode : Byte) : State :=
  { s with
    faultCode := code
    faultDiag := opcode
    halted := true }

/-- Entry into the playback handler (R190, R191, R242): the latch is cleared, the line masked, the flip flag inverted. -/
def State.enterFill (s : State) : State :=
  { s with
    pendFill := false
    inFill := true
    drainHalf := s.drainHalf.other
    fillI := 0
    fillState := .count }

/-- Return from the playback handler (R208, R243), after the acknowledge: the line is unmasked. -/
def State.leaveFill (s : State) : State :=
  { s with
    inFill := false
    fillState := .idle }

/-- `Tick()` (R196): the strobe, the open tick window. -/
def State.openTick (s : State) : State :=
  { s with
    tickTrace := s.tickTrace ++ [s.samplesDone]
    tickOpen := true
    fillState := .waitTick }

end Sys2Proof.Machine
end

