-- ==== Sys2Proof/Machine/Flags.lean ====
section
/-!
DEFINITION. The context flags and what they admit: who may use the command port (20_memory.md R75), when an event is accepted
(60_exceptions.md R240, 44_pcm_fill.md R197), and the acceptance of a command word (R237 checks 0 and 2).
-/

namespace Sys2Proof.Machine

/-- The `Host` may start a command: no handler runs (R75 (b)), no tick window is open, and no command of its own is
unfinished ("A `Host` command that has started is finished before the `Host` issues the next one"; DEDUCED, log entry 13). -/
def State.hostReady (s : State) : Bool := !s.inFill && !s.tickOpen && s.hostOps.isEmpty

/-- The command port takes a word (R75): from the `Sequencer` in a tick window, else from the `Host` when it may start. -/
def State.cmdReady (s : State) : Bool := s.tickOpen || s.hostReady

/-- Acceptance of the timer interrupt (R240). -/
def State.acceptsTimer (s : State) : Bool := s.pendTimer && !s.halted

/-- Acceptance of the playback interrupt (R240), in a build that has the source (R92, R238: PCM only;
DEDUCED, log entry 9). -/
def State.acceptsFill (s : State) : Bool :=
  s.pendFill && !s.inFill && !s.halted && decide (s.cfg.backend = .pcm)

/-- Acceptance of the tick's return (R197; not when halted, R233), in a build that has the tick (R92: PCM only;
DEDUCED, log entry 9). -/
def State.acceptsTickReturn (s : State) : Bool :=
  decide (s.fillState = .waitTick) && !s.halted && decide (s.cfg.backend = .pcm)

/-- Acceptance of a command: a halted block ignores the word (R233); a word nobody may present yet waits (R75 (c)); an
operation of the other backend is a command fault (R95); otherwise the operation acts. -/
def State.command (s : State) (op : Op) (act : State → State) : State :=
  if s.halted then s
  else if !s.cmdReady then s
  else if !op.inBuild s.cfg.backend then s.raiseCmdFault cmdWrongBackend op.byte
  else act s

end Sys2Proof.Machine
end

