-- ==== Sys2Proof/Machine/Fill.lean ====
section
/-!
DEFINITION. The fill engine (44_pcm_fill.md): `EV_FILL_IRQ`, `EV_TICK_RETURN`, the quantum counter, the voices, the mixer, the
store and the acknowledge, as the small-step machine of R210.
-/

namespace Sys2Proof.Machine

/-- `EV_FILL_IRQ` (R190, R191); a request that is not accepted changes nothing and stays pending (R240; DEDUCED, log entry 8). -/
def execEvFillIrq (s : State) : Host.Outcome State Fault Refusal :=
  .next (if s.acceptsFill then s.enterFill else s)

/-- `EV_TICK_RETURN` (R197); outside `WAIT_TICK` the event cannot occur, and nothing changes. -/
def execEvTickReturn (s : State) : Host.Outcome State Fault Refusal :=
  .next (if s.acceptsTickReturn then { s with tickOpen := false, fillState := .mix } else s)

/-! ## One voice (R198 to R204) -/

/-- The phase increment of a note byte (R199, R200); `none` where a table has no entry. The multiplier is read whole (DEDUCED,
log entry 16); the widths of R211 hold where the configuration is well formed. -/
def phaseInc (c : Config) (nb : Byte) : Option Nat :=
  match c.noteBaseAt (noteOf nb), c.octMul[octaveOf nb]? with
  | some base, some mul => some (base.toNat * mul * c.waveLen / c.sampleRate.toNat)
  | _, _ => none

/-- The accumulator after one sample (R201). -/
def advancePhase (c : Config) (phase : BitVec 32) (inc : Nat) : BitVec 32 :=
  BitVec.ofNat 32 ((phase.toNat + inc) % c.phaseMod)

/-- The contribution of a table value at a volume (R204): `asr(t * 128 * vol, 8)`. -/
def voiceScale (t : Int) (vol : Byte) : Int := asr (t * 128 * vol.toNat) 8

/-- The value of `NoiseDraw()` (R203): a signed byte. -/
def noiseValue (src : Source Byte) : Int := (src.next Config.freeNoise).1.toInt

/-- The waveform value of a voice whose accumulator is `phase` (R202, R203), and the noise source after it. -/
def waveValue (c : Config) (w : Byte) (phase : BitVec 32) (src : Source Byte) : Except Fault (Int × Source Byte) :=
  if w = c.waveNoise then .ok (noiseValue src, (src.next Config.freeNoise).2)
  else match c.waveTable w with
    | none => .error .noWaveform
    | some table =>
      match table[phase.toNat / 256]? with
      | none => .error .tableIndex
      | some t => .ok (t.toInt, src)

/-- One voice for one sample (R198 to R204): the voice after it, its contribution, and the noise source after it. -/
def mixVoice (c : Config) (v : Voice) (src : Source Byte) : Except Fault (Voice × Int × Source Byte) :=
  if noteOf v.note = 0 then .ok ({ v with phase := 0 }, 0, src)
  else match phaseInc c v.note with
    | none => .error .tableIndex
    | some inc =>
      let phase := advancePhase c v.phase inc
      match waveValue c v.wave phase src with
      | .error f => .error f
      | .ok (t, src') => .ok ({ v with phase := phase }, voiceScale t v.vol, src')

/-! ## One sample (R193, R205 to R207) -/

/-- The voices in index order (R193), with the sum of their contributions so far (R205). -/
def mixVoices : List (Fin 8) → State → Int → Except Fault (State × Int)
  | [], s, acc => .ok (s, acc)
  | j :: js, s, acc =>
    match mixVoice s.cfg s.voices[j] s.noise with
    | .error f => .error f
    | .ok (v, c, src) => mixVoices js { s with voices := s.voices.set j v, noise := src } (acc + c)

/-- The eight voices (R9). -/
def allVoices : List (Fin 8) := [0, 1, 2, 3, 4, 5, 6, 7]

/-- The master scaling (R206): `asr(acc * master, 8)`. -/
def masterScale (acc : Int) (master : Byte) : Int := asr (acc * master.toNat) 8

/-- The first index of the half being written (R192): `(1 - drain_half) * HALF_SAMPLES`. -/
def State.fillBase (s : State) : Nat := s.drainHalf.other.index * s.cfg.halfSamples

/-- The index of the sample being produced (R192). -/
def State.fillIndex (s : State) : Nat := s.fillBase + s.fillI

/-- MIX (R210): all voices, one sample stored, `fill_i` plus 1. -/
def mixStep (s : State) : Host.Outcome State Fault Refusal :=
  match mixVoices allVoices s 0 with
  | .error f => .fault f
  | .ok (t, acc) =>
    if s.fillIndex < s.cfg.bufferSamples then
      let t := t.setSample s.fillIndex (trunc16 (masterScale acc s.master))
      .next { t with fillI := s.fillI + 1, samplesDone := s.samplesDone + 1, fillState := .count }
    else .fault .bufferIndex

/-- The decrement of COUNT (R194), with the reload and the tick when it gives zero (R196). -/
def State.countDown (s : State) : State :=
  let n := s.tickCnt - 1
  if n = 0 then State.openTick { s with tickCnt := s.cfg.samplesPerTick }
  else { s with tickCnt := n, fillState := .mix }

/-- COUNT (R210): the counter for the next sample, or the end of the half. -/
def countStep (s : State) : Host.Outcome State Fault Refusal :=
  if s.fillI < s.cfg.halfSamples then .next s.countDown
  else if s.fillI = s.cfg.halfSamples then .next { s with fillState := .exit }
  else .fault .fillIndex

/-- The acknowledge (R208): the device, then the second controller for lines 8 to 15, then the first. -/
def State.acknowledge (s : State) : State :=
  let t := s.portRead s.cfg.ports.dspAck16
  let t := if 8 ≤ s.cfg.pcmIrqLine.toNat then t.portWrite s.cfg.ports.pic2Cmd s.cfg.ports.picEoi else t
  t.portWrite s.cfg.ports.pic1Cmd s.cfg.ports.picEoi

/-- EXIT (R208, R210). -/
def exitStep (s : State) : Host.Outcome State Fault Refusal := .next s.acknowledge.leaveFill

/-- One step of the running engine (R210); idle and waiting engines have none, nor has a halted block (R233).
A row of R210 is one step (DEDUCED, log entry 19). -/
def engineStep (s : State) : Host.Outcome State Fault Refusal :=
  if s.halted then .next s
  else match s.fillState with
    | .idle => .next s
    | .count => countStep s
    | .waitTick => .next s
    | .mix => mixStep s
    | .exit => exitStep s

end Sys2Proof.Machine
end

