-- ==== Sys2Proof/Machine/Operands.lean ====
section
/-!
DEFINITION. The operand forms: the voice index of each path, the packed note byte, the range checks of R237 in their
order, and the byte pairs of 16-bit quantities (R105).
-/

namespace Sys2Proof.Machine

/-- The PCM voice of an operand inside its range (R9, R184). -/
def pcmVoice (voice : Byte) : Fin 8 := Fin.ofNat 8 voice.toNat

/-- The FM voice of an operand inside its range (R140). -/
def fmVoice (voice : Byte) : Fin 6 := Fin.ofNat 6 voice.toNat

/-- `(octave << 4) | note` (R96, R180). -/
def packNote (octave note : Byte) : Byte := (octave <<< 4) ||| note

/-- `PCM_SET_NOTE`'s range checks, the first that fails (R180, R237). -/
def pcmNoteFault (c : Config) (voice octave note : Byte) : Option Byte :=
  if 8 ≤ voice.toNat then some cmdVoiceRange
  else if 12 < note.toNat then some cmdNoteRange
  else if 15 < octave.toNat then some cmdOctaveRange
  else if note ≠ 0 ∧ c.numOctaves ≤ octave.toNat then some cmdOctaveRange
  else none

/-- `PCM_SET_WAVEFORM`'s range checks (R181). -/
def pcmWaveformFault (c : Config) (voice w : Byte) : Option Byte :=
  if 8 ≤ voice.toNat then some cmdVoiceRange
  else if !c.isWave w then some cmdWaveformRange
  else none

/-- `PCM_SET_VOLUME`'s range check (R182). -/
def pcmVolumeFault (voice : Byte) : Option Byte :=
  if 8 ≤ voice.toNat then some cmdVoiceRange else none

/-- The voice check of the FM path (R140, R237): no slot above 5, and not above `FM_VOICES`. -/
def fmVoiceFault (c : Config) (voice : Byte) : Option Byte :=
  if c.fmVoices ≤ voice.toNat ∨ 6 ≤ voice.toNat then some cmdVoiceRange else none

/-- `FM_ASSIGN_INSTRUMENT`'s range checks (R132). -/
def fmAssignFault (c : Config) (voice patch : Byte) : Option Byte :=
  match fmVoiceFault c voice with
  | some code => some code
  | none => if c.numPatches ≤ patch.toNat then some cmdPatchRange else none

/-- `FM_SET_NOTE`'s range checks: the voice for both arms (R134), note and octave for the note-on arm only (R135). -/
def fmNoteFault (c : Config) (voice octave note : Byte) : Option Byte :=
  match fmVoiceFault c voice with
  | some code => some code
  | none =>
    if note = c.fmNoteNone then none
    else if note.toNat < 1 ∨ 12 < note.toNat then some cmdNoteRange
    else if 7 < octave.toNat then some cmdOctaveRange
    else none

/-- Run `act`, or raise the command fault the checks found (R236). -/
def State.checked (s : State) (op : Op) (fault : Option Byte) (act : State → State) : State :=
  match fault with
  | some code => s.raiseCmdFault code op.byte
  | none => act s

end Sys2Proof.Machine
end

