-- ==== Sys2Proof/Machine/Access.lean ====
section
/-!
DEFINITION. What one atomic access of a command does (20_memory.md R66, R74), and how a command runs as a list of accesses: whole
from the Sequencer (R196), and from the Host up to the place where an interrupt cuts it (R74, R150).
-/

namespace Sys2Proof.Machine

/-- A port write of `PCM_INIT`, counted (R27). -/
def State.initWrite (s : State) (a : PortAddr) (v : Byte) : State :=
  { s.portWrite a v with initStep := s.initStep + 1 }

/-- A port read of `PCM_INIT`, counted (R27). -/
def State.initRead (s : State) (a : PortAddr) : State :=
  { s.portRead a with initStep := s.initStep + 1 }

/-- One status read of the polling loop (R153): leave it when bit 7 is set, fail at the bound, else read again. -/
def runPoll (s : State) : State × Option (List Access) :=
  let st := s.portAnswer
  let t := { s.initRead s.cfg.ports.dspRstatus with pollCnt := s.pollCnt + 1 }
  if st.getLsbD 7 then (t, some [])
  else if t.pollCnt = s.cfg.resetPollMax then (t.raiseFatal codeDetection st, none)
  else (t, some [.poll])

/-- The acknowledgement (R154). -/
def runReadAck (s : State) : State × Option (List Access) :=
  let ack := s.portAnswer
  let t := s.initRead s.cfg.ports.dspRead
  if ack = s.cfg.dspAck then (t, some []) else (t.raiseFatal codeDetection ack, none)

/-- The minor version and the check of the major one (R155, R156). -/
def runReadMinor (major : Byte) (s : State) : State × Option (List Access) :=
  let minor := s.portAnswer
  let t := s.initRead s.cfg.ports.dspRead
  if major.toNat < s.cfg.dspMinMajor.toNat then (t.raiseFatal codeVersion (packVersion major minor), none)
  else ({ t with pcmState := .versionChecked }, some [])

/-- The mixer read-back (R158). -/
def runReadMixer (s : State) : State × Option (List Access) :=
  let r := s.portAnswer
  let t := s.initRead s.cfg.ports.dspMixerData
  if r = s.cfg.ports.mixerIrqValue then ({ t with pcmState := .ready }, some [])
  else (t.raiseFatal codeMismatch r, none)

/-- The preload's sample `k` (R164): `trunc_16(table[k mod WAVE_LEN] * 128)`. -/
def preloadSample (c : Config) (k : Nat) : Sample :=
  match c.waveTable c.refWave with
  | some table => trunc16 ((table.getD (k % c.waveLen) 0).toInt * 128)
  | none => 0

/-- One access. The answer is the state after it and what must run before the rest of the command; `none` ends the command
(a fatal failure: "none of its later port accesses or stores is made", R231). -/
def runAccess (a : Access) (s : State) : State × Option (List Access) :=
  match a with
  | .portWrite addr val => (s.portWrite addr val, some [])
  | .timerStart => ({ s with timerRun := true }, some [])
  | .fmIndex bank reg => (s.fmSelect bank reg, some [])
  | .fmData bank reg val => (s.fmStore bank reg val, some [])
  | .cacheKey i k => ({ s with keycache := s.keycache.set i k }, some [])
  | .initWrite addr val => (s.initWrite addr val, some [])
  | .enterState p => ({ s with pcmState := p }, some [])
  | .startPoll => ({ s with pcmState := .awaitingAck, pollCnt := 0 }, some [])
  | .poll => runPoll s
  | .readAck => runReadAck s
  | .readMajor => (s.initRead s.cfg.ports.dspRead, some [.readMinor s.portAnswer])
  | .readMinor major => runReadMinor major s
  | .readMixer => runReadMixer s
  | .dmaStart => ({ s with dmaRun := true }, some [])
  | .storeNote j b => (s.setNote j b, some [])
  | .storeWave j b => (s.setWave j b, some [])
  | .storeVol j b => (s.setVol j b, some [])
  | .preload k => (s.setSample k (preloadSample s.cfg k), some [])

/-- Up to `n` accesses of a command, in order; the answer is the state after them and what is left. -/
def runAccesses : Nat → List Access → State → State × List Access
  | 0, ops, s => (s, ops)
  | _ + 1, [], s => (s, [])
  | n + 1, a :: ops, s =>
    match runAccess a s with
    | (t, none) => (t, [])
    | (t, some more) => runAccesses n (more ++ ops) t

/-- Accesses enough for a whole command: one each, and `RESET_POLL_MAX` for the polling loop (R153). -/
def wholeCount (c : Config) (ops : List Access) : Nat := ops.length + c.resetPollMax

/-- DESIGN CHOICE (log entry 4). How many accesses of a command run before another agent may step: all of them in a tick window (R196: "executes
completely"), else as many as the Host's turn has (R74). -/
def State.budget (s : State) (ops : List Access) : Nat :=
  if s.tickOpen then wholeCount s.cfg ops
  else match s.slice with
    | none => wholeCount s.cfg ops
    | some k => k

/-- Run a command. What an interrupt cuts off a Host command stays in `hostOps`; the Sequencer's commands are whole, and
leave a suspended Host command alone (R75). -/
def State.runCommand (s : State) (ops : List Access) : State :=
  let r := runAccesses (s.budget ops) ops s
  if s.tickOpen then r.1 else { r.1 with hostOps := r.2 }

/-- The Host goes on with its unfinished command (R74). -/
def State.resumeHost (s : State) : State :=
  let r := runAccesses (s.budget s.hostOps) s.hostOps s
  { r.1 with hostOps := r.2 }

end Sys2Proof.Machine
end

