-- ==== Sys2Proof/Machine/Fm.lean ====
section
/-!
DEFINITION. The FM synthesis register encoder (41_fm_encoder.md): `FM_INIT`, `FM_ASSIGN_INSTRUMENT`, `FM_SET_NOTE`,
`FM_SET_MASTER`.
-/

namespace Sys2Proof.Machine

/-- `FmWrite(bank, reg, val)` (R130): the index write, then the data write. -/
def fmWrite (bank : Bank) (reg val : Byte) : List Access := [.fmIndex bank reg, .fmData bank reg val]

/-- A list of register writes in order. -/
def fmWrites (ws : List FmRecord) : List Access := ws.flatMap fun w => fmWrite w.bank w.reg w.val

/-- The writes of `FM_INIT` (R131). -/
def fmInitWrites (c : Config) : List FmRecord := c.fmInitSeq.map fun w => ⟨w.1, w.2.1, w.2.2⟩

/-- The five writes of one operator at slot `slot` (R132, R99). -/
def operatorWrites (m : FmMap) (slot : Byte) (o : Operator) : List FmRecord :=
  [⟨.primary, m.tvsm + slot, o.tremoloVibratoSustainMultiplier⟩,
   ⟨.primary, m.kslTl + slot, o.keyScaleAndOutputLevel⟩,
   ⟨.primary, m.ad + slot, o.attackDecay⟩,
   ⟨.primary, m.sr + slot, o.sustainRelease⟩,
   ⟨.primary, m.wave + slot, o.waveformSelect⟩]

/-- `OP1_SLOT[voice]` (R43); the default is never used where the configuration is well formed (log entry 17). -/
def op1SlotOf (c : Config) (voice : Byte) : Byte := c.op1Slot.getD voice.toNat 0

/-- `OP2_SLOT[voice]` (R43); the default as above (log entry 17). -/
def op2SlotOf (c : Config) (voice : Byte) : Byte := c.op2Slot.getD voice.toNat 0

/-- The 13 writes of `FM_ASSIGN_INSTRUMENT` (R132): operator 1, operator 2, feedback, then the two clears. -/
def assignWrites (c : Config) (voice : Byte) (p : Patch) : List FmRecord :=
  operatorWrites c.fmMap (op1SlotOf c voice) p.operator1 ++ operatorWrites c.fmMap (op2SlotOf c voice) p.operator2 ++
    [⟨.primary, c.fmMap.fbSyn + voice, p.feedbackAndSynthType⟩,
     ⟨.primary, c.fmMap.freq + voice, 0⟩,
     ⟨.primary, c.fmMap.key + voice, 0⟩]

/-- The key-on bit of the key byte (R97): bit 5. -/
def keyOnBit : Byte := 0x20

/-- The key byte of a note-on (R97, R135): F-number bits 9:8 in bits 1:0, the block in bits 4:2, key-on. -/
def keyByte (f : BitVec 10) (octave : Byte) : Byte :=
  (f.extractLsb' 8 2).zeroExtend 8 ||| (octave <<< 2) ||| keyOnBit

/-- The key byte of a key-off (R134): the cached byte with bit 5 cleared. -/
def keyOffByte (k : Byte) : Byte := k &&& 0xDF

/-- The frequency byte (R98): the low byte of the F-number. -/
def freqByte (f : BitVec 10) : Byte := f.extractLsb' 0 8

/-- `FM_INIT` (R131). -/
def execFmInit (s : State) : Host.Outcome State Fault Refusal :=
  .next (s.command .fmInit fun s =>
    if s.fmInited then s.raiseCmdFault cmdReinit Op.fmInit.byte
    else State.runCommand { s with fmInited := true } (fmWrites (fmInitWrites s.cfg)))

/-- The writes of `FM_ASSIGN_INSTRUMENT` for an index inside the patch table (R132). -/
def assignAccesses (c : Config) (voice patch : Byte) : List Access :=
  match c.patches[patch.toNat]? with
  | some p => fmWrites (assignWrites c voice p)
  | none => []

/-- `FM_ASSIGN_INSTRUMENT voice, patch` (R132). -/
def execFmAssignInstrument (voice patch : Byte) (s : State) : Host.Outcome State Fault Refusal :=
  .next (s.command .fmAssignInstrument fun s =>
    s.checked .fmAssignInstrument (fmAssignFault s.cfg voice patch) fun s =>
      s.runCommand (assignAccesses s.cfg voice patch))

/-- The key-off arm of `FM_SET_NOTE` (R134): one write, no frequency write, the cache unchanged. -/
def keyOffAccesses (s : State) (voice : Byte) : List Access :=
  fmWrite .primary (s.cfg.fmMap.key + voice) (keyOffByte s.keycache[fmVoice voice])

/-- The note-on arm of `FM_SET_NOTE` (R135): frequency byte, key byte, then the cache. -/
def noteOnAccesses (c : Config) (voice octave note : Byte) : List Access :=
  match c.fnumAt note.toNat with
  | some f =>
    fmWrite .primary (c.fmMap.freq + voice) (freqByte f) ++ fmWrite .primary (c.fmMap.key + voice) (keyByte f octave) ++
      [.cacheKey (fmVoice voice) (keyByte f octave)]
  | none => []

/-- `FM_SET_NOTE voice, octave, note` (R134, R135). -/
def execFmSetNote (voice octave note : Byte) (s : State) : Host.Outcome State Fault Refusal :=
  .next (s.command .fmSetNote fun s =>
    s.checked .fmSetNote (fmNoteFault s.cfg voice octave note) fun s =>
      if note = s.cfg.fmNoteNone then s.runCommand (keyOffAccesses s voice)
      else s.runCommand (noteOnAccesses s.cfg voice octave note))

/-- `FM_SET_MASTER volume` (R136): accepted, and without any effect for any volume. -/
def execFmSetMaster (_volume : Byte) (s : State) : Host.Outcome State Fault Refusal :=
  .next (s.command .fmSetMaster fun s => s)

end Sys2Proof.Machine
end

