-- ==== Sys2Proof/Machine/PcmCommands.lean ====
section
/-!
DEFINITION. The mixer commands (43_pcm_commands.md): `PCM_SET_NOTE`, `PCM_SET_WAVEFORM`, `PCM_SET_VOLUME`, `PCM_SET_MASTER`.
-/

namespace Sys2Proof.Machine

/-- `PCM_SET_NOTE voice, octave, note` (R180): one byte store. -/
def execPcmSetNote (voice octave note : Byte) (s : State) : Host.Outcome State Fault Refusal :=
  .next (s.command .pcmSetNote fun s =>
    s.checked .pcmSetNote (pcmNoteFault s.cfg voice octave note) fun s =>
      s.setNote (pcmVoice voice) (packNote octave note))

/-- The environment's choice for the two stores of a `PCM_SET_WAVEFORM` (R181): true is volume first. -/
def State.volumeFirst (s : State) : Bool := (s.storeOrder.next Config.freeVolumeFirst).1

/-- The two byte stores of `PCM_SET_WAVEFORM` in the order chosen: the order is not fixed (R181, R76). -/
def waveformAccesses (volumeFirst : Bool) (j : Fin 8) (w x : Byte) : List Access :=
  if volumeFirst then [.storeVol j x, .storeWave j w] else [.storeWave j w, .storeVol j x]

/-- The accesses of a command now starting may be cut: it is the Host's, and the Host's turn gives a number of them (R74). -/
def State.mayBeCut (s : State) : Bool := !s.tickOpen && s.slice.isSome

/-- `PCM_SET_WAVEFORM voice, w, x` (R181): two byte stores. Where nothing can come between them (from the Sequencer "they are
seen together", or a Host's turn without a cut) their order shows nowhere; where an interrupt can, the order is open. -/
def execPcmSetWaveform (voice w x : Byte) (s : State) : Host.Outcome State Fault Refusal :=
  .next (s.command .pcmSetWaveform fun s =>
    s.checked .pcmSetWaveform (pcmWaveformFault s.cfg voice w) fun s =>
      if s.mayBeCut then
        State.runCommand { s with storeOrder := (s.storeOrder.next Config.freeVolumeFirst).2 }
          (waveformAccesses s.volumeFirst (pcmVoice voice) w x)
      else s.runCommand (waveformAccesses false (pcmVoice voice) w x))

/-- `PCM_SET_VOLUME voice, x` (R182): one byte store. -/
def execPcmSetVolume (voice x : Byte) (s : State) : Host.Outcome State Fault Refusal :=
  .next (s.command .pcmSetVolume fun s =>
    s.checked .pcmSetVolume (pcmVolumeFault voice) fun s => s.setVol (pcmVoice voice) x)

/-- `PCM_SET_MASTER x` (R183): one byte store. -/
def execPcmSetMaster (x : Byte) (s : State) : Host.Outcome State Fault Refusal :=
  .next (s.command .pcmSetMaster fun s => { s with master := x })

end Sys2Proof.Machine
end

