-- ==== Sys2Proof/Machine/PcmInit.lean ====
section
/-!
DEFINITION. `PCM_INIT` (42_pcm_init.md): the reset handshake, the interrupt configuration, the playback arming, the voice
initialisation and the preload, as the list of its accesses in the order of R150 (log entry 18).
-/

namespace Sys2Proof.Machine

/-- `DspWrite(v)` of `PCM_INIT` (R15). -/
def dspWrite (c : Config) (v : Byte) : Access := .initWrite c.ports.dspWrite v

/-- `ResetHandshake()` (R152 to R156). -/
def handshakeAccesses (c : Config) : List Access :=
  [.initWrite c.ports.dspReset 0x01, .initWrite c.ports.dspReset 0x00, .enterState .resetPulsed,
   .startPoll, .poll, .readAck,
   dspWrite c c.ports.dspCmdVersion, .readMajor]

/-- `ConfigureIrq()` (R157, R158); installing the handler changes no state of the block. -/
def configureIrqAccesses (c : Config) : List Access :=
  [.initWrite c.ports.dspMixerAddr c.ports.mixerRegIrq, .initWrite c.ports.dspMixerData c.ports.mixerIrqValue,
   .initWrite c.ports.dspMixerAddr c.ports.mixerRegIrq, .readMixer]

/-- The DMA offset (R71, R159): `(BUF_PHYS >> 1)[15:0]`. -/
def dmaOffset (c : Config) : BitVec 16 := c.bufPhys.extractLsb' 1 16

/-- The DMA page (R71, R159): `BUF_PHYS[23:16]`. -/
def dmaPageByte (c : Config) : Byte := c.bufPhys.extractLsb' 16 8

/-- The DMA length (R71, R159): `BUFFER_SAMPLES - 1`. -/
def dmaLength (c : Config) : BitVec 16 := BitVec.ofNat 16 (c.bufferSamples - 1)

/-- The DSP block length (R161): `HALF_SAMPLES - 1`. -/
def dspBlock (c : Config) : BitVec 16 := BitVec.ofNat 16 (c.halfSamples - 1)

/-- DMA programming (R159). -/
def dmaAccesses (c : Config) : List Access :=
  [.initWrite c.ports.dmaMask c.ports.dmaMaskOff, .initWrite c.ports.dmaClearFf 0x00,
   .initWrite c.ports.dmaMode c.ports.dmaModeValue,
   .initWrite c.ports.dmaAddr (lowByte (dmaOffset c)), .initWrite c.ports.dmaAddr (highByte (dmaOffset c)),
   .initWrite c.ports.dmaCount (lowByte (dmaLength c)), .initWrite c.ports.dmaCount (highByte (dmaLength c)),
   .initWrite c.ports.dmaPage (dmaPageByte c), .initWrite c.ports.dmaMask c.ports.dmaMaskOn]

/-- The sample rate, high byte first (R160). -/
def rateAccesses (c : Config) : List Access :=
  [dspWrite c c.ports.dspCmdRate, dspWrite c (highByte c.sampleRate), dspWrite c (lowByte c.sampleRate)]

/-- The play command (R161) and the two "go" commands (R162). -/
def playAccesses (c : Config) : List Access :=
  [dspWrite c c.ports.dspCmdPlay, dspWrite c c.ports.dspMode,
   dspWrite c (lowByte (dspBlock c)), dspWrite c (highByte (dspBlock c)),
   dspWrite c c.ports.dspCmdGo1, dspWrite c c.ports.dspCmdGo2, .dmaStart]

/-- `InitVoices()` (R163): for each voice the note byte, then the waveform byte. -/
def initVoiceAccesses (c : Config) : List Access :=
  (List.finRange 8).flatMap fun j => [.storeNote j 0x00, .storeWave j c.defaultWave]

/-- `Preload()` (R164): the front half. -/
def preloadAccesses (c : Config) : List Access := (List.range c.halfSamples).map Access.preload

/-- The accesses of `PCM_INIT` in order (R150). -/
def pcmInitAccesses (c : Config) : List Access :=
  handshakeAccesses c ++ configureIrqAccesses c ++ dmaAccesses c ++ rateAccesses c ++ playAccesses c ++
    initVoiceAccesses c ++ preloadAccesses c ++ [.enterState .armed]

/-- `PCM_INIT` (R150). -/
def execPcmInit (s : State) : Host.Outcome State Fault Refusal :=
  .next (s.command .pcmInit fun s =>
    if s.pcmInited then s.raiseCmdFault cmdReinit Op.pcmInit.byte
    else State.runCommand { s with pcmInited := true, initStep := 0 } (pcmInitAccesses s.cfg))

end Sys2Proof.Machine
end

