-- ==== Sys2Proof/Machine/Timer.lean ====
section
/-!
DEFINITION. The system timer (40_timer.md): `TIMER_INIT`, `TIMER_GET_TICKS`, `EV_TIMER_IRQ`, and the step of the timer device.
-/

namespace Sys2Proof.Machine

/-- `BestDivisor(T)` (R121) for the base clock `num / den`: the divisor in 1 to 65536 whose rate is closest to `t`, the smaller
one on a tie. With `q = floor(BASE_CLOCK / T)`, the rate error of `q` is at most that of `q + 1` exactly when
`num * (2q + 1) ≤ 2 * t * den * q * (q + 1)`. -/
def bestDivisor (num den t : Nat) : Nat :=
  let q := num / (den * t)
  if 65536 ≤ q then 65536
  else if q = 0 then 1
  else if num * (2 * q + 1) ≤ 2 * t * den * q * (q + 1) then q
  else q + 1

/-- The achieved rate `BASE_CLOCK / D` rounded to the nearest integer, an exact half up (R122). -/
def roundedRate (num den d : Nat) : Nat := (2 * num + den * d) / (2 * (den * d))

/-- The divisor `TIMER_INIT` chooses (R120). -/
def timerDivisor (c : Config) : Nat := bestDivisor c.clockNum c.clockDen c.timerTargetHz.toNat

/-- The value of `timer_freq` (R122); a rate that does not fit the 32 bits of R32 leaves a free value (log entry 7). -/
def timerRate (c : Config) : BitVec 32 :=
  let r := roundedRate c.clockNum c.clockDen (timerDivisor c)
  if r < 2 ^ 32 then BitVec.ofNat 32 r else Config.freeTimerFreq r

/-- The accesses of `TIMER_INIT` after its register writes (R120, R127): mode byte, divisor low byte, high byte. -/
def timerInitAccesses (c : Config) : List Access :=
  let d := BitVec.ofNat 16 (timerDivisor c)
  [.portWrite c.ports.pitCmd c.ports.pitMode, .portWrite c.ports.pitCh0 (lowByte d), .portWrite c.ports.pitCh0 (highByte d),
    .timerStart]

/-- `TIMER_INIT` (R120). -/
def execTimerInit (s : State) : Host.Outcome State Fault Refusal :=
  .next (s.command .timerInit fun s =>
    if s.timerInited then s.raiseCmdFault cmdReinit Op.timerInit.byte
    else
      State.runCommand
        { s with
          timerInited := true
          timerDiv := BitVec.ofNat 17 (timerDivisor s.cfg)
          timerFreq := timerRate s.cfg
          tickCount := 0 }
        (timerInitAccesses s.cfg))

/-- `TIMER_GET_TICKS` (R123, R107). -/
def execTimerGetTicks (s : State) : Host.Outcome State Fault Refusal :=
  .next (s.command .timerGetTicks fun s => { s with rsp := some s.tickCount })

/-- `EV_TIMER_IRQ` (R124): the whole handler is one step; a request that is not accepted changes nothing (R240). -/
def execEvTimerIrq (s : State) : Host.Outcome State Fault Refusal :=
  .next (if s.acceptsTimer then { s with pendTimer := false, tickCount := s.tickCount + 1 } else s)

/-- One step of the timer device (R126): a request while one is pending is lost. -/
def State.timerDevStep (s : State) : State :=
  if s.timerRun then { s with pendTimer := true } else s

end Sys2Proof.Machine
end

