-- ==== Sys2Proof/Machine/Dispatch.lean ====
section
/-!
DEFINITION. One arm per operation of 30_encoding.md R92: the call of its meaning.
-/

namespace Sys2Proof.Machine

def exec (i : Instr) (s : State) : Host.Outcome State Fault Refusal :=
  match i with
  | .timerInit => Sys2Proof.Machine.execTimerInit s
  | .timerGetTicks => Sys2Proof.Machine.execTimerGetTicks s
  | .fmInit => Sys2Proof.Machine.execFmInit s
  | .fmAssignInstrument voice patch => Sys2Proof.Machine.execFmAssignInstrument voice patch s
  | .fmSetNote voice octave note => Sys2Proof.Machine.execFmSetNote voice octave note s
  | .fmSetMaster volume => Sys2Proof.Machine.execFmSetMaster volume s
  | .pcmInit => Sys2Proof.Machine.execPcmInit s
  | .pcmSetNote voice octave note => Sys2Proof.Machine.execPcmSetNote voice octave note s
  | .pcmSetWaveform voice waveform volume => Sys2Proof.Machine.execPcmSetWaveform voice waveform volume s
  | .pcmSetVolume voice volume => Sys2Proof.Machine.execPcmSetVolume voice volume s
  | .pcmSetMaster volume => Sys2Proof.Machine.execPcmSetMaster volume s
  | .evTimerIrq => Sys2Proof.Machine.execEvTimerIrq s
  | .evFillIrq => Sys2Proof.Machine.execEvFillIrq s
  | .evTickReturn => Sys2Proof.Machine.execEvTickReturn s

end Sys2Proof.Machine
end

