-- ==== Sys2Proof/Machine/Dma.lean ====
section
/-!
DEFINITION. The DMA agent (20_memory.md R80): one read of one sample, with the half-boundary request.
-/

namespace Sys2Proof.Machine

/-- The request at a half boundary (R80, R239): a request while one is pending is lost, and recorded. -/
def State.requestFill (s : State) : State :=
  { s with
    fillOverrun := s.fillOverrun || s.pendFill
    pendFill := true }

/-- The read of the sample at `drain_pos` and the advance (R80). -/
def State.drain (s : State) : State :=
  { s with
    pcmOut := s.pcmOut ++ [s.sample s.drainPos]
    drainPos := (s.drainPos + 1) % s.cfg.bufferSamples }

/-- One step of the DMA agent (R80), which has none while `dma_run = 0`. -/
def dmaStep (s : State) : Host.Outcome State Fault Refusal :=
  if !s.dmaRun then .next s
  else if s.cfg.bufferSamples ≤ s.drainPos then .fault .bufferIndex
  else
    let t := s.drain
    if t.drainPos % s.cfg.halfSamples = 0 then .next t.requestFill else .next t

end Sys2Proof.Machine
end

