-- ==== Sys2Proof/Machine/Agents.lean ====
section
/-!
DEFINITION. The agents (00_scope.md R8): what the turn of each one does, how a word reaches the command port, and how the
next turn is taken from the schedule.
-/

namespace Sys2Proof.Machine

/-- The command fault of a word that decodes to no command (R94, R237): its opcode first, then the backend, then the
reserved fields. An event word presented on `cmd` is an illegal opcode (R94 (a)). -/
def wordFault (bk : Backend) (w : Word) : Option Byte :=
  match Op.ofByte (opField w) with
  | none => some cmdIllegalOpcode
  | some op =>
    if op.isEvent then some cmdIllegalOpcode
    else if !op.inBuild bk then some cmdWrongBackend
    else if !op.reservedZero (voiceField w) (aField w) (bField w) then some cmdReservedField
    else none

/-- Raise the command fault of a word that decodes to no command, under the conditions every command has. -/
def State.rejectWord (s : State) (code : Byte) (w : Word) : State :=
  if s.halted then s
  else if !s.cmdReady then s
  else s.raiseCmdFault code (opField w)

/-- A word presented on `cmd` (R94, R237): the operation it decodes to, or the command fault. -/
def presentWord (w : Word) (s : State) : Host.Outcome State Fault Refusal :=
  match wordFault s.cfg.backend w with
  | some code => .next (s.rejectWord code w)
  | none =>
    match decode w with
    | .instr i => exec i s
    | .illegalOpcode _ => .next (s.rejectWord cmdIllegalOpcode w)
    | .reservedField _ => .next (s.rejectWord cmdReservedField w)

/-- The Host's turn (R75 (b)): a halted block ignores the word (R233); an unfinished command goes on; else the next word
is presented. While a handler runs the Host cannot execute (log entries 13, 20). -/
def hostTurn (s : State) : Host.Outcome State Fault Refusal :=
  if s.halted then .next { s with hostWords := s.hostWords.tail }
  else if s.inFill || s.tickOpen then .next s
  else if !s.hostOps.isEmpty then .next s.resumeHost
  else match s.hostWords with
    | [] => .next s
    | w :: ws => presentWord w { s with hostWords := ws }

/-- The Sequencer's turn (R75 (a), R196, R197): inside a tick window, its next word or its return. -/
def sequencerTurn (s : State) : Host.Outcome State Fault Refusal :=
  if s.tickOpen then
    match s.seqActs with
    | [] => .next s
    | .command w :: rest => presentWord w { s with seqActs := rest }
    | .tickReturn :: rest => exec .evTickReturn { s with seqActs := rest }
  else .next s

/-- The fill engine's turn (R210): the acceptance of a pending request, or the next step of a running engine.
No run has both (DESIGN CHOICE, log entry 21). -/
def fillTurn (s : State) : Host.Outcome State Fault Refusal :=
  if s.acceptsFill then exec .evFillIrq s else engineStep s

/-- The turn of an agent (R8). -/
def runTurn (t : Turn) (s : State) : Host.Outcome State Fault Refusal :=
  match t with
  | .host slice => hostTurn { s with slice := slice }
  | .sequencer => sequencerTurn s
  | .fill => fillTurn s
  | .timerIrq => exec .evTimerIrq s
  | .dma => dmaStep s
  | .timerDev => .next s.timerDevStep

/-- The turn that the schedule gives next (R8, R241: any order; DESIGN CHOICE, log entry 2). -/
def State.nextTurn (s : State) : Turn := (s.turns.next Config.freeTurn).1

/-- The state with that turn taken off the schedule. -/
def State.tookTurn (s : State) : State := { s with turns := (s.turns.next Config.freeTurn).2 }

/-- One step: a configuration outside its constraints is refused (U20); else the next turn of the schedule. -/
def stepBlock (s : State) : Host.Outcome State Fault Refusal :=
  if s.cfg.wf then runTurn s.nextTurn s.tookTurn else .refused .configuration

/-- List a turn first. -/
def Source.push {α : Type} (x : α) (src : Source α) : Source α := { src with listed := x :: src.listed }

/-- The configuration of a build that has this operation (R95). -/
def configFor (c : Config) (op : Op) : Config :=
  match op.backend with
  | none => c
  | some bk => { c with backend := bk }

/-- Place a word on `cmd` so that the very next step presents it: from the Sequencer in an open tick window, else from the
Host, in a state in which the Host may start a command. -/
def State.placeCommand (s : State) (w : Word) : State :=
  if s.tickOpen then { s with seqActs := .command w :: s.seqActs, turns := s.turns.push .sequencer }
  else { s with hostWords := w :: s.hostWords, inFill := false, hostOps := [], turns := s.turns.push (.host none) }

/-- Place one operation so that the very next step runs it (log entry 6). A command word goes to `cmd`, in a build that has
it; an event's request is made pending, and the tick's return gets its tick window. -/
def State.place (s : State) (w : Word) : State :=
  match decode w with
  | .illegalOpcode _ => s.placeCommand w
  | .reservedField op => State.placeCommand { s with cfg := configFor s.cfg op } w
  | .instr i =>
    match i.op with
    | .evTimerIrq => { s with pendTimer := true, turns := s.turns.push .timerIrq }
    | .evFillIrq =>
      { s with cfg := configFor s.cfg .evFillIrq, pendFill := true, inFill := false, turns := s.turns.push .fill }
    | .evTickReturn =>
      { s with
        cfg := configFor s.cfg .evTickReturn
        inFill := true
        tickOpen := true
        fillState := .waitTick
        seqActs := .tickReturn :: s.seqActs
        turns := s.turns.push .sequencer }
    | op => State.placeCommand { s with cfg := configFor s.cfg op } w

end Sys2Proof.Machine
end

