-- ==== Sys2Proof/Machine/Step.lean ====
section
/-!
DEFINITION. One step of the block, and the placing of one operation where the next step takes it.
-/

namespace Sys2Proof.Machine

/-- One step: the turn of one agent (00_scope.md R8). -/
def step (s : State) : Host.Outcome State Fault Refusal := stepBlock s

/-- The state in which the very next step runs the operation with word `w` (log entry 6); every operation has 32 bits. -/
def State.withFetchWord (s : State) (_nbits w : Nat) : State := s.place (BitVec.ofNat 32 w)

end Sys2Proof.Machine
end

