-- ==== Sys2Proof/Safety.lean ====
section
/-!
DEFINITION. What counts as a safe run, in the terms statements use: the invariant every step keeps, the buffer invariant of
20_memory.md R77, and the conditions under which a command acts.
-/

namespace Sys2Proof.Machine

/-! ## When a command acts, and when it is whole -/

/-- A command of this row acts: not halted (R233), the port takes it (R75), the build has it (R95). -/
def State.admits (s : State) (op : Op) : Bool := !s.halted && s.cmdReady && op.inBuild s.cfg.backend

/-- No interrupt cuts the command now presented: it is the Sequencer's (R196), or the Host's turn gives no cut (R74). -/
def State.runsWhole (s : State) : Bool := s.tickOpen || s.slice.isNone

/-! ## The invariant -/

/-- What R22, R202 and R23 say of a voice's registers. -/
def Voice.ok (c : Config) (v : Voice) : Bool :=
  c.noteByteOk v.note && c.isWave v.wave && decide (v.phase.toNat < c.phaseMod)

/-- An access that a suspended Host command may still hold stores only what its rule allows. -/
def Access.ok (c : Config) : Access → Bool
  | .storeNote _ b => c.noteByteOk b
  | .storeWave _ b => c.isWave b
  | .preload k => decide (k < c.halfSamples)
  | .enterState p => decide (p ≠ .failed)
  | _ => true

/-- Configuration, memory and register image are in form: memory holds bytes of the buffer only (R60), the image registers
of the two banks only (R34). -/
def State.invStore (s : State) : Bool :=
  s.cfg.wf && s.mem.wf &&
  s.mem.all (fun c => decide (s.cfg.bufPhys.toNat ≤ c.1 ∧ c.1 < s.cfg.bufPhys.toNat + 2 * s.cfg.bufferSamples)) &&
  cellsSorted s.fmImage && s.fmImage.all (fun c => decide (c.1 < 512))

/-- Every voice, and every store a suspended Host command still holds, is in range (R22, R23, R202). -/
def State.invVoices (s : State) : Bool :=
  allVoices.all (fun j => s.voices[j].ok s.cfg) && s.hostOps.all (fun a => a.ok s.cfg)

/-- The fill engine's registers agree (R26, R27, R28): the masked line with a running engine, the tick window with
`WAIT_TICK`, `fill_i` with the half, and `tick_cnt` is never 0 between steps (R211). -/
def State.invFill (s : State) : Bool :=
  decide (s.tickCnt ≠ 0) && decide (s.fillI ≤ s.cfg.halfSamples) &&
  (decide (s.fillState ≠ .mix ∧ s.fillState ≠ .waitTick) || decide (s.fillI < s.cfg.halfSamples)) &&
  (s.inFill == decide (s.fillState ≠ .idle)) && (s.tickOpen == decide (s.fillState = .waitTick))

/-- The flip flag counts the half boundaries: as long as no request was lost, it names the half being drained, or the
other one while a request waits (R25, R77, R191). -/
def State.invDrain (s : State) : Bool :=
  decide (s.drainPos < s.cfg.bufferSamples) &&
  (s.fillOverrun || decide ((s.drainHalf.index + s.pendFill.toNat) % 2 = s.drainPos / s.cfg.halfSamples))

/-- The fault registers agree (R30): halted exactly when a code is set, and `FAILED` only when halted. -/
def State.invFaults (s : State) : Bool :=
  (s.halted == decide (s.faultCode ≠ 0)) && (decide (s.pcmState ≠ .failed) || s.halted)

/-- Each source runs only after its INIT operation, in a build that has it (R238, R240). -/
def State.invInits (s : State) : Bool :=
  (!s.pcmInited || decide (s.cfg.backend = .pcm)) && (!s.fmInited || decide (s.cfg.backend = .fm)) &&
  (!s.dmaRun || s.pcmInited) && (!s.timerRun || s.timerInited) && (!s.pendFill || s.dmaRun) && (!s.inFill || s.dmaRun) &&
  (!s.pendTimer || s.timerRun) &&
  (decide (Access.dmaStart ∉ s.hostOps) || s.pcmInited) && (decide (Access.timerStart ∉ s.hostOps) || s.timerInited)

/-- The invariant of the block: it holds at reset and every step keeps it. -/
def State.inv (s : State) : Bool :=
  s.invStore && s.invVoices && s.invFill && s.invDrain && s.invFaults && s.invInits

/-! ## The buffer invariant and a safe state -/

/-- The half that holds a sample index (R25). -/
def State.halfOf (s : State) (k : Nat) : Nat := k / s.cfg.halfSamples

/-- R77: the flip flag names the half the `Dma` agent is draining. -/
def State.bufferInvariant (s : State) : Bool := decide (s.drainHalf.index = s.halfOf s.drainPos)

/-- A safe state: no fault was raised, no playback request was lost (R245). -/
def State.safe (s : State) : Bool := !s.halted && !s.fillOverrun

end Sys2Proof.Machine
end

