-- ==== Sys2Proof/Certificates/Slice0/Obligations.lean ====
section
/-!
DEFINITION. The statements for the provers, from the numbered rules of spec/. What each one formalises is in its docstring; a
statement that rests on a choice of the model says so and names the log entry.
-/

open Sys2Proof Sys2Proof.Machine

/-! ## Words the statements share -/

/-- The state after `raise CmdFault(code)` by an operation with opcode byte `op` (R236). -/
def Sys2Proof.Claims.faulted (s : State) (code op : Byte) : State :=
  { s with faultCode := code, faultDiag := op, halted := true }

/-- The opcodes of format C (R92). -/
def Sys2Proof.Claims.commandOps : List Byte :=
  [0x01, 0x02, 0x10, 0x11, 0x12, 0x13, 0x20, 0x21, 0x22, 0x23, 0x24]

/-- The opcode belongs to the backend that is not `bk` (R92, R95). -/
def Sys2Proof.Claims.wrongBackend (bk : Backend) (op : Byte) : Prop :=
  match bk with
  | .pcm => op ∈ ([0x10, 0x11, 0x12, 0x13] : List Byte)
  | .fm => op ∈ ([0x20, 0x21, 0x22, 0x23, 0x24] : List Byte)

/-- A field shown as 0 in R92's row of the opcode is not zero in the word. -/
def Sys2Proof.Claims.reservedNonzero (w : Word) : Prop :=
  let op := w.extractLsb' 24 8
  let voice := w.extractLsb' 16 8
  let a := w.extractLsb' 8 8
  let b := w.extractLsb' 0 8
  if op ∈ ([0x01, 0x02, 0x10, 0x20] : List Byte) then voice ≠ 0 ∨ a ≠ 0 ∨ b ≠ 0
  else if op = 0x11 then b ≠ 0
  else if op ∈ ([0x13, 0x24] : List Byte) then voice ≠ 0 ∨ a ≠ 0
  else if op = 0x23 then a ≠ 0
  else False

/-- The two port writes of one FM register write (R130). -/
def Sys2Proof.Claims.fmPorts (p : PortMap) (w : FmRecord) : List PortAccess :=
  match w.bank with
  | .primary => [.write p.fmIndex0 w.reg, .write p.fmData0 w.val]
  | .secondary => [.write p.fmIndex1 w.reg, .write p.fmData1 w.val]

/-- The state after a list of FM register writes (R130): port trace, FM trace and register image. -/
def Sys2Proof.Claims.wrote (s : State) (ws : List FmRecord) : State :=
  { s with
    portTrace := s.portTrace ++ ws.flatMap (Sys2Proof.Claims.fmPorts s.cfg.ports)
    fmTrace := s.fmTrace ++ ws
    fmImage := ws.foldl (fun m w => cellPut (fmKey w.bank w.reg) w.val m) s.fmImage }

/-- The default slot tables and register families (R43, R44), under which the 13 registers of a voice, and
those of two voices, are all different; other tables need not be so (log entry 25, DESIGN CHOICE). -/
def Sys2Proof.Claims.defaultFm (c : Config) : Prop :=
  c.fmMap = defaultFmMap ∧ c.op1Slot = defaultOp1Slot ∧ c.op2Slot = defaultOp2Slot

/-- An FM command for this voice: an instrument assignment or a note. -/
def Sys2Proof.Claims.fmVoiceCommand (i : Instr) (voice : Byte) : Prop :=
  (∃ p, i = .fmAssignInstrument voice p) ∨ (∃ o n, i = .fmSetNote voice o n)

/-- The port trace of a reset handshake up to the status reads (R152, R153). -/
def Sys2Proof.Claims.pulseTrace (p : PortMap) (sts : List Byte) : List PortAccess :=
  [.write p.dspReset 0x01, .write p.dspReset 0x00] ++ sts.map (.read p.dspRstatus)

/-- The port accesses of the mixer configuration (R158), with the value read back. -/
def Sys2Proof.Claims.mixerTrace (p : PortMap) (r : Byte) : List PortAccess :=
  [.write p.dspMixerAddr p.mixerRegIrq, .write p.dspMixerData p.mixerIrqValue, .write p.dspMixerAddr p.mixerRegIrq,
   .read p.dspMixerData r]

/-- The port writes of playback arming (R159 to R162). -/
def Sys2Proof.Claims.armTrace (c : Config) : List PortAccess :=
  let p := c.ports
  let off := BitVec.ofNat 16 (c.bufPhys.toNat / 2)
  let len := BitVec.ofNat 16 (c.bufferSamples - 1)
  let blk := BitVec.ofNat 16 (c.bufferSamples / 2 - 1)
  [.write p.dmaMask p.dmaMaskOff, .write p.dmaClearFf 0x00, .write p.dmaMode p.dmaModeValue,
   .write p.dmaAddr (lowByte off), .write p.dmaAddr (highByte off),
   .write p.dmaCount (lowByte len), .write p.dmaCount (highByte len),
   .write p.dmaPage (BitVec.ofNat 8 (c.bufPhys.toNat / 65536)), .write p.dmaMask p.dmaMaskOn,
   .write p.dspWrite p.dspCmdRate, .write p.dspWrite (highByte c.sampleRate), .write p.dspWrite (lowByte c.sampleRate),
   .write p.dspWrite p.dspCmdPlay, .write p.dspWrite p.dspMode,
   .write p.dspWrite (lowByte blk), .write p.dspWrite (highByte blk),
   .write p.dspWrite p.dspCmdGo1, .write p.dspWrite p.dspCmdGo2]

/-- The constraints the spec puts on a configuration: the types of R10, the placement of the buffer (R64: even, first and
last byte in one 128 KiB page), and 0 among the waveform identifiers (R202). -/
def Sys2Proof.Claims.specConstraints (c : Config) : Prop :=
  let ids := [c.waveSine, c.waveSquare, c.waveNoise, c.waveTriangle]
  c.sampleRate ≠ 0 ∧
  (c.bufferSamples % 2 = 0 ∧ 2 ≤ c.bufferSamples ∧ c.bufferSamples ≤ 65536) ∧
  c.samplesPerTick ≠ 0 ∧ c.tickCntReset ≠ 0 ∧
  (1 ≤ c.waveLen ∧ c.waveLen ≤ 2 ^ 24) ∧
  (c.sineTable.length = c.waveLen ∧ c.squareTable.length = c.waveLen ∧ c.triangleTable.length = c.waveLen) ∧
  (0 ∈ ids ∧ c.defaultWave ∈ ids ∧ c.refWave ∈ [c.waveSine, c.waveSquare, c.waveTriangle]) ∧
  c.noteBase.length = 12 ∧ c.fnum.length = 12 ∧
  (1 ≤ c.numOctaves ∧ c.numOctaves ≤ 16 ∧ c.octMul.length = c.numOctaves) ∧
  (c.op1Slot.length = 6 ∧ c.op2Slot.length = 6) ∧ 2 ≤ c.patches.length ∧ c.pcmIrqLine ≠ 0 ∧
  (c.bufPhys.toNat % 2 = 0 ∧ c.bufPhys.toNat / 131072 = (c.bufPhys.toNat + 2 * c.bufferSamples - 1) / 131072) ∧
  1 ≤ c.resetPollMax ∧ c.timerTargetHz ≠ 0 ∧ (1 ≤ c.clockNum ∧ 1 ≤ c.clockDen)

/-- The constraints the model adds (log entry 15): different waveform identifiers, octave multipliers inside the widths of
R211, at most 6 FM voices, disjoint slot tables (R43), FM addresses inside a byte (R101). A repeated slot or overlapping families break none of them (log entry 25). -/
def Sys2Proof.Claims.modelConstraints (c : Config) : Prop :=
  [c.waveSine, c.waveSquare, c.waveNoise, c.waveTriangle].Nodup ∧
  (∀ m ∈ c.octMul, m ≤ 2 ^ 15) ∧ c.fmVoices ≤ 6 ∧
  (∀ b ∈ c.op1Slot, b ∉ c.op2Slot) ∧
  (∀ base ∈ [c.fmMap.tvsm, c.fmMap.kslTl, c.fmMap.ad, c.fmMap.sr, c.fmMap.wave], ∀ slot ∈ c.op1Slot ++ c.op2Slot,
    base.toNat + slot.toNat ≤ 255) ∧
  (∀ base ∈ [c.fmMap.fbSyn, c.fmMap.freq, c.fmMap.key], base.toNat + 5 ≤ 255)

/-- `n` steps of the running fill engine with no other agent between them. -/
def Sys2Proof.Claims.engineRun : Nat → State → Host.Outcome State Fault Refusal
  | 0, s => .next s
  | n + 1, s =>
    match engineStep s with
    | .next t => Sys2Proof.Claims.engineRun n t
    | .fault f => .fault f
    | .refused r => .refused r

open Sys2Proof.Claims

/-! ## Encoding and decoding -/

/-- R90 to R92: decoding an encoded operation gives it back, with every operand at every value; and a word that decodes
to an operation is that operation's word, so each word has one meaning. -/
def Obligations.DecodeAndEncodeAgree : Prop :=
  (∀ i : Instr, decode (encode i) = .instr i) ∧ (∀ (w : Word) (i : Instr), decode w = .instr i → encode i = w)

/-- The words of 95_test_vectors.md E1 to E13 (R90 to R93), and E14's all-zero word, which is no operation (R94 (a)). -/
def Obligations.SpecWordsDecode : Prop :=
  decode 0x01000000 = .instr .timerInit ∧ decode 0x02000000 = .instr .timerGetTicks ∧ decode 0x10000000 = .instr .fmInit ∧
  decode 0x11030100 = .instr (.fmAssignInstrument 3 1) ∧ decode 0x1202040A = .instr (.fmSetNote 2 4 10) ∧
  decode 0x12020000 = .instr (.fmSetNote 2 0 0) ∧
  decode 0x130000FF = .instr (.fmSetMaster 255) ∧ decode 0x20000000 = .instr .pcmInit ∧
  decode 0x2100040A = .instr (.pcmSetNote 0 4 10) ∧ decode 0x22010180 = .instr (.pcmSetWaveform 1 1 128) ∧
  decode 0x23070080 = .instr (.pcmSetVolume 7 128) ∧ decode 0x240000FF = .instr (.pcmSetMaster 255) ∧
  decode 0x80000000 = .instr .evTimerIrq ∧ decode 0x81000000 = .instr .evFillIrq ∧ decode 0x82000000 = .instr .evTickReturn ∧
  decode 0x00000000 = .illegalOpcode 0x00

/-- R94, R236, R237: what a word presented on `cmd` does when it is no legal command, in the order opcode, backend, reserved
field (the cells of R92); and a word that passes these checks runs the operation it decodes to. That a step presents the
word is `HostTurnRunsTheWord` and `SequencerTurnRunsTheWord`. -/
def Obligations.CommandWordFaultsInOrder : Prop :=
  ∀ (s : State) (w : Word), s.halted = false → s.cmdReady = true →
    let op := w.extractLsb' 24 8
    (op ∉ commandOps → presentWord w s = .next (faulted s 0x20 op)) ∧
    (op ∈ commandOps → wrongBackend s.cfg.backend op → presentWord w s = .next (faulted s 0x21 op)) ∧
    (op ∈ commandOps → ¬ wrongBackend s.cfg.backend op → reservedNonzero w → presentWord w s = .next (faulted s 0x28 op)) ∧
    (op ∈ commandOps → ¬ wrongBackend s.cfg.backend op → ¬ reservedNonzero w →
      ∃ i, decode w = .instr i ∧ presentWord w s = exec i s)

/-! ## A step runs the decoded operation -/

/-- R75 (b), R94: in a Host turn that may start a command, the step presents the next word, whatever word it is, so an illegal
one raises its command fault in the step; and where the word decodes to a command, the step is `exec` of that command. Around
it the step takes the turn off the schedule, notes the turn's cut and takes the word (log entries 2, 4 and 6). -/
def Obligations.HostTurnRunsTheWord : Prop :=
  ∀ (s : State) (k : Option Nat) (w : Word) (ws : List Word),
    s.cfg.wf = true → s.nextTurn = .host k → s.halted = false → s.hostReady = true → s.hostWords = w :: ws →
    let t := { s with turns := s.tookTurn.turns, slice := k, hostWords := ws }
    step s = presentWord w t ∧ (∀ i, decode w = .instr i → i.isEvent = false → step s = exec i t)

/-- R75 (a), R94: in a tick window, the Sequencer's turn presents its next word, whatever word it is; and where the word
decodes to a command, the step is `exec` of that command (the schedule is log entry 2's, the list of acts log entry 6's). -/
def Obligations.SequencerTurnRunsTheWord : Prop :=
  ∀ (s : State) (w : Word) (rest : List SeqAct),
    s.cfg.wf = true → s.nextTurn = .sequencer → s.tickOpen = true → s.seqActs = .command w :: rest →
    let t := { s with turns := s.tookTurn.turns, seqActs := rest }
    step s = presentWord w t ∧ (∀ i, decode w = .instr i → i.isEvent = false → step s = exec i t)

/-- R8: the other turns. A timer turn is the timer event; a fill turn is the acceptance of a request that may be accepted,
else a step of the engine; a Sequencer's return is the tick's return; the environment agents make their own steps, the timer
device setting `pend_timer` while it runs (R126). A Sequencer's turn outside a tick window, or with nothing to do, is idle.
The schedule and the order inside a fill turn are the model's (log entries 2 and 21). -/
def Obligations.OtherTurnsRunTheirEvents : Prop :=
  ∀ s : State, s.cfg.wf = true →
    (s.nextTurn = .timerIrq → step s = exec .evTimerIrq s.tookTurn) ∧
    (s.nextTurn = .fill → s.acceptsFill = true → step s = exec .evFillIrq s.tookTurn) ∧
    (s.nextTurn = .fill → s.acceptsFill = false → step s = engineStep s.tookTurn) ∧
    (∀ rest, s.nextTurn = .sequencer → s.tickOpen = true → s.seqActs = .tickReturn :: rest →
      step s = exec .evTickReturn { s.tookTurn with seqActs := rest }) ∧
    (s.nextTurn = .sequencer → (s.tickOpen = false ∨ s.seqActs = []) → step s = .next s.tookTurn) ∧
    (s.nextTurn = .dma → step s = dmaStep s.tookTurn) ∧
    (s.nextTurn = .timerDev → s.timerRun = true → step s = .next { s.tookTurn with pendTimer := true }) ∧
    (s.nextTurn = .timerDev → s.timerRun = false → step s = .next s.tookTurn)

/-- R10, R64, R202, U20: the model refuses a step exactly when the configuration breaks a constraint, and under that one
name. The constraints are written out, those of the spec in `specConstraints`, those of log entry 15 in
`modelConstraints`. -/
def Obligations.OnlyBadConfigurationsAreRefused : Prop :=
  ∀ (s : State) (r : Refusal),
    step s = .refused r ↔ (¬ (specConstraints s.cfg ∧ modelConstraints s.cfg) ∧ r = .configuration)

/-! ## The halted block -/

/-- R233: a halted block ignores every operation, and in every step all it keeps is kept: only the environment moves (the
schedule, the words it drops (log entry 20), the requests of the two environment agents and what the DMA agent reads). -/
def Obligations.HaltedBlockIsFrozen : Prop :=
  (∀ (i : Instr) (s : State), s.halted = true → exec i s = .next s) ∧
  (∀ s t : State, s.halted = true → step s = .next t →
    t = { s with
      turns := t.turns, slice := t.slice, hostWords := t.hostWords, seqActs := t.seqActs, pendFill := t.pendFill
      pendTimer := t.pendTimer, fillOverrun := t.fillOverrun, pcmOut := t.pcmOut, drainPos := t.drainPos })

/-! ## The system timer -/

/-- R120 to R122, R127: `TIMER_INIT`, whole. `timerRate` is the achieved rate in hertz, and a free value where that rate does
not fit its 32 bits (log entry 7). -/
def Obligations.TimerInitEffect : Prop :=
  ∀ s : State, s.admits .timerInit = true → s.runsWhole = true → s.timerInited = false →
    let d := bestDivisor s.cfg.clockNum s.cfg.clockDen s.cfg.timerTargetHz.toNat
    exec .timerInit s = .next
      { s with
        timerInited := true
        timerDiv := BitVec.ofNat 17 d
        timerFreq := timerRate s.cfg
        tickCount := 0
        timerRun := true
        portTrace := s.portTrace ++
          [.write s.cfg.ports.pitCmd s.cfg.ports.pitMode,
           .write s.cfg.ports.pitCh0 (BitVec.ofNat 8 d), .write s.cfg.ports.pitCh0 (BitVec.ofNat 8 (d / 256))] }

/-- R121: the divisor minimises the rate error over 1 to 65536, and is the smaller of two minimisers. -/
def Obligations.BestDivisorIsClosest : Prop :=
  ∀ num den t : Nat, 1 ≤ num → 1 ≤ den → 1 ≤ t →
    let d := bestDivisor num den t
    1 ≤ d ∧ d ≤ 65536 ∧
    ∀ e : Nat, 1 ≤ e → e ≤ 65536 →
      |(num : ℚ) / den / d - t| ≤ |(num : ℚ) / den / e - t| ∧
      (|(num : ℚ) / den / d - t| = |(num : ℚ) / den / e - t| → d ≤ e)

/-- R122: `timer_freq` is the achieved rate rounded to the nearest integer, an exact half up, wherever that integer fits the
register; beyond, the value is free (log entry 7) and nothing is stated. -/
def Obligations.TimerFreqIsNearestHertz : Prop :=
  ∀ c : Config, c.wf = true → roundedRate c.clockNum c.clockDen (timerDivisor c) < 2 ^ 32 →
    ((timerRate c).toNat : ℚ) - 1 / 2 ≤ (c.clockNum : ℚ) / c.clockDen / (timerDivisor c) ∧
    (c.clockNum : ℚ) / c.clockDen / (timerDivisor c) < (timerRate c).toNat + 1 / 2

/-- R123, R107: `TIMER_GET_TICKS` places `tick_count` on `rsp` and writes nothing else, and no other operation writes
`rsp`. -/
def Obligations.OnlyGetTicksResponds : Prop :=
  (∀ s : State, s.admits .timerGetTicks = true → exec .timerGetTicks s = .next { s with rsp := some s.tickCount }) ∧
  (∀ (i : Instr) (s t : State), i ≠ .timerGetTicks → exec i s = .next t → t.rsp = s.rsp)

/-- R124: the timer handler is one atomic step that clears the latch and counts modulo 2^32; it touches no other state. That
a request that may not be accepted stays as it is follows R233 and R240 by log entry 8 (DEDUCED). -/
def Obligations.TimerIrqEffect : Prop :=
  ∀ s : State,
    (s.pendTimer = true → s.halted = false →
      exec .evTimerIrq s = .next { s with pendTimer := false, tickCount := BitVec.ofNat 32 (s.tickCount.toNat + 1) }) ∧
    (s.pendTimer = false ∨ s.halted = true → exec .evTimerIrq s = .next s)

/-- R125 (the spec derives it from R120 and R124): after `n` periods of the timer device, each one accepted, the counter has
grown by `n` modulo 2^32. -/
def Obligations.TickCountCountsInterrupts : Prop :=
  ∀ (n : Nat) (s : State) (rest : List Turn),
    s.cfg.wf = true → s.halted = false → s.timerRun = true →
    s.turns.listed = (List.replicate n [Turn.timerDev, Turn.timerIrq]).flatten ++ rest →
    ∃ t, Sys2Proof.core.run (2 * n) s = .next t ∧ t.tickCount = BitVec.ofNat 32 (s.tickCount.toNat + n) ∧ t.turns.listed = rest

/-- R124, R241: the timer interrupt and the fill engine share no state, so a timer interrupt before or after a step of
the engine, or before or after the acceptance of the playback request, gives the same state. An event that may not be accepted
changes nothing (log entry 8, DEDUCED). -/
def Obligations.TimerCommutesWithFill : Prop :=
  (∀ s t : State, engineStep s = .next t →
    ∃ a u, exec .evTimerIrq s = .next a ∧ engineStep a = .next u ∧ exec .evTimerIrq t = .next u) ∧
  (∀ s : State, ∃ a b u, exec .evTimerIrq s = .next a ∧ exec .evFillIrq a = .next u ∧
    exec .evFillIrq s = .next b ∧ exec .evTimerIrq b = .next u)

/-! ## The FM encoder -/

/-- R131, R130: `FM_INIT`, whole. -/
def Obligations.FmInitEffect : Prop :=
  ∀ s : State, s.admits .fmInit = true → s.runsWhole = true → s.fmInited = false →
    exec .fmInit s = .next
      { wrote s (s.cfg.fmInitSeq.map fun w => ⟨w.1, w.2.1, w.2.2⟩) with fmInited := true }

/-- R132, R99, R101: `FM_ASSIGN_INSTRUMENT` makes its 13 register writes in order, and changes nothing else. -/
def Obligations.FmAssignEffect : Prop :=
  ∀ (s : State) (voice patch : Byte) (p : Patch) (s1 s2 : Byte),
    s.admits .fmAssignInstrument = true → s.runsWhole = true →
    voice.toNat < s.cfg.fmVoices → voice.toNat < 6 → s.cfg.patches[patch.toNat]? = some p →
    s.cfg.op1Slot[voice.toNat]? = some s1 → s.cfg.op2Slot[voice.toNat]? = some s2 →
    exec (.fmAssignInstrument voice patch) s = .next (wrote s
      [⟨.primary, s.cfg.fmMap.tvsm + s1, p.operator1.tremoloVibratoSustainMultiplier⟩,
       ⟨.primary, s.cfg.fmMap.kslTl + s1, p.operator1.keyScaleAndOutputLevel⟩,
       ⟨.primary, s.cfg.fmMap.ad + s1, p.operator1.attackDecay⟩,
       ⟨.primary, s.cfg.fmMap.sr + s1, p.operator1.sustainRelease⟩,
       ⟨.primary, s.cfg.fmMap.wave + s1, p.operator1.waveformSelect⟩,
       ⟨.primary, s.cfg.fmMap.tvsm + s2, p.operator2.tremoloVibratoSustainMultiplier⟩,
       ⟨.primary, s.cfg.fmMap.kslTl + s2, p.operator2.keyScaleAndOutputLevel⟩,
       ⟨.primary, s.cfg.fmMap.ad + s2, p.operator2.attackDecay⟩,
       ⟨.primary, s.cfg.fmMap.sr + s2, p.operator2.sustainRelease⟩,
       ⟨.primary, s.cfg.fmMap.wave + s2, p.operator2.waveformSelect⟩,
       ⟨.primary, s.cfg.fmMap.fbSyn + voice, p.feedbackAndSynthType⟩,
       ⟨.primary, s.cfg.fmMap.freq + voice, 0⟩,
       ⟨.primary, s.cfg.fmMap.key + voice, 0⟩])

/-- R134: the key-off arm, for any octave: one write, of the cached byte with bit 5 cleared. -/
def Obligations.FmKeyOffEffect : Prop :=
  ∀ (s : State) (voice octave : Byte),
    s.admits .fmSetNote = true → s.runsWhole = true → voice.toNat < s.cfg.fmVoices → voice.toNat < 6 →
    exec (.fmSetNote voice octave s.cfg.fmNoteNone) s = .next (wrote s
      [⟨.primary, s.cfg.fmMap.key + voice, s.keycache[fmVoice voice] &&& 0xDF⟩])

/-- R135, R97, R98: the note-on arm: the low byte of the F-number to the frequency register, then the key byte, F-number
bits 9:8 plus block times 4 plus the key-on bit, which is cached. -/
def Obligations.FmNoteOnEffect : Prop :=
  ∀ (s : State) (voice octave note : Byte) (f : BitVec 10),
    s.admits .fmSetNote = true → s.runsWhole = true → voice.toNat < s.cfg.fmVoices → voice.toNat < 6 →
    note ≠ s.cfg.fmNoteNone → 1 ≤ note.toNat → note.toNat ≤ 12 → octave.toNat ≤ 7 →
    s.cfg.fnum[note.toNat - 1]? = some f →
    let k : Byte := BitVec.ofNat 8 (f.toNat / 256 + 4 * octave.toNat + 32)
    exec (.fmSetNote voice octave note) s = .next
      { wrote s [⟨.primary, s.cfg.fmMap.freq + voice, BitVec.ofNat 8 f.toNat⟩, ⟨.primary, s.cfg.fmMap.key + voice, k⟩] with
        keycache := s.keycache.set (fmVoice voice) k }

/-- R97: the layout of the key byte, bit by bit, and of the key-off byte. -/
def Obligations.KeyByteLayout : Prop :=
  ∀ (f : BitVec 10) (octave : Byte), octave.toNat ≤ 7 →
    (keyByte f octave).extractLsb' 0 2 = f.extractLsb' 8 2 ∧
    (keyByte f octave).extractLsb' 2 3 = octave.extractLsb' 0 3 ∧
    (keyByte f octave).getLsbD 5 = true ∧
    (keyByte f octave).extractLsb' 6 2 = 0 ∧
    (∀ k : Byte, ∀ n < 8, (keyOffByte k).getLsbD n = (decide (n ≠ 5) && k.getLsbD n))

/-- R136: `FM_SET_MASTER` is accepted and has no effect, for any volume. -/
def Obligations.FmSetMasterDoesNothing : Prop :=
  ∀ (s : State) (volume : Byte), s.admits .fmSetMaster = true → exec (.fmSetMaster volume) s = .next s

/-- R139, R133 (the spec derives R139): with the default slot tables and register families (others may overlap: log entry 25),
after an assignment the
register image holds the patch byte for byte and zero in the two cleared registers, every other register is untouched, and
a following key-off writes the key register only. -/
def Obligations.FmPatchRoundTrip : Prop :=
  ∀ (s t : State) (voice patch : Byte) (p : Patch) (s1 s2 : Byte),
    defaultFm s.cfg → s.admits .fmAssignInstrument = true → s.runsWhole = true →
    voice.toNat < s.cfg.fmVoices → voice.toNat < 6 → s.cfg.patches[patch.toNat]? = some p →
    s.cfg.op1Slot[voice.toNat]? = some s1 → s.cfg.op2Slot[voice.toNat]? = some s2 →
    exec (.fmAssignInstrument voice patch) s = .next t →
    t.fmImageAt .primary (0xC0 + voice) = some p.feedbackAndSynthType ∧
    t.fmImageAt .primary (0x60 + s1) = some p.operator1.attackDecay ∧
    t.fmImageAt .primary (0x80 + s1) = some p.operator1.sustainRelease ∧
    t.fmImageAt .primary (0x40 + s1) = some p.operator1.keyScaleAndOutputLevel ∧
    t.fmImageAt .primary (0xE0 + s1) = some p.operator1.waveformSelect ∧
    t.fmImageAt .primary (0x20 + s1) = some p.operator1.tremoloVibratoSustainMultiplier ∧
    t.fmImageAt .primary (0x60 + s2) = some p.operator2.attackDecay ∧
    t.fmImageAt .primary (0x80 + s2) = some p.operator2.sustainRelease ∧
    t.fmImageAt .primary (0x40 + s2) = some p.operator2.keyScaleAndOutputLevel ∧
    t.fmImageAt .primary (0xE0 + s2) = some p.operator2.waveformSelect ∧
    t.fmImageAt .primary (0x20 + s2) = some p.operator2.tremoloVibratoSustainMultiplier ∧
    t.fmImageAt .primary (0xA0 + voice) = some 0 ∧ t.fmImageAt .primary (0xB0 + voice) = some 0 ∧
    (∀ r : Byte, r ∉ [0xC0 + voice, 0xA0 + voice, 0xB0 + voice, 0x60 + s1, 0x80 + s1, 0x40 + s1, 0xE0 + s1, 0x20 + s1,
        0x60 + s2, 0x80 + s2, 0x40 + s2, 0xE0 + s2, 0x20 + s2] → t.fmImageAt .primary r = s.fmImageAt .primary r) ∧
    (∀ r : Byte, t.fmImageAt .secondary r = s.fmImageAt .secondary r) ∧
    (∀ octave : Byte, ∃ u, exec (.fmSetNote voice octave s.cfg.fmNoteNone) t = .next u ∧
      u.fmImageAt .primary (0xB0 + voice) = some (s.keycache[fmVoice voice] &&& 0xDF) ∧
      (∀ (b : Bank) (r : Byte), (b ≠ .primary ∨ r ≠ 0xB0 + voice) → u.fmImageAt b r = t.fmImageAt b r))

/-- R138 (the spec derives it): with the default tables (others may overlap: log entry 25), two FM commands that run on
different voices commute on the register
image and on the key cache. -/
def Obligations.FmVoicesAreIndependent : Prop :=
  ∀ (s a b c d : State) (i j : Instr) (v w : Byte),
    defaultFm s.cfg → s.cfg.wf = true → s.runsWhole = true → v ≠ w → fmVoiceCommand i v → fmVoiceCommand j w →
    s.admits i.op = true →
    exec i s = .next a → exec j a = .next b → b.halted = false →
    exec j s = .next c → exec i c = .next d →
    d.halted = false ∧ d.keycache = b.keycache ∧ ∀ (bank : Bank) (r : Byte), d.fmImageAt bank r = b.fmImageAt bank r

/-! ## INIT operations -/

/-- R237 check 4, R31: a second INIT of the same kind is a command fault, and makes no other change. -/
def Obligations.SecondInitIsAFault : Prop :=
  ∀ s : State,
    (s.admits .timerInit = true → s.timerInited = true → exec .timerInit s = .next (faulted s 0x27 0x01)) ∧
    (s.admits .fmInit = true → s.fmInited = true → exec .fmInit s = .next (faulted s 0x27 0x10)) ∧
    (s.admits .pcmInit = true → s.pcmInited = true → exec .pcmInit s = .next (faulted s 0x27 0x20))

/-- R150 to R165: `PCM_INIT`, whole, when the device answers well: the first status byte with bit 7 set comes within the
bound, then the acknowledgement, a high enough major version, and the mixer value. Ports, states and voices are as the rules
list them; the preload fills the front half and every other byte of memory is unchanged. `init_step` counts port accesses
only (log entry 24, DEDUCED). -/
def Obligations.PcmInitSucceeds : Prop :=
  ∀ (s : State) (sts rest : List Byte) (st major minor : Byte),
    s.cfg.wf = true → s.mem.wf = true → s.admits .pcmInit = true → s.runsWhole = true → s.pcmInited = false →
    (∀ b ∈ sts, b.getLsbD 7 = false) → st.getLsbD 7 = true → sts.length < s.cfg.resetPollMax →
    s.cfg.dspMinMajor.toNat ≤ major.toNat →
    s.portDev.listed = sts ++ [st, s.cfg.dspAck, major, minor, s.cfg.ports.mixerIrqValue] ++ rest →
    ∃ mem, exec .pcmInit s = .next
        { s with
          pcmInited := true
          initStep := sts.length + 29
          pollCnt := sts.length + 1
          pcmState := .armed
          dmaRun := true
          voices := s.voices.map fun v => { v with note := 0, wave := s.cfg.defaultWave }
          portDev := ⟨rest, s.portDev.drawn + sts.length + 5⟩
          portTrace := s.portTrace ++ pulseTrace s.cfg.ports sts ++
            [.read s.cfg.ports.dspRstatus st, .read s.cfg.ports.dspRead s.cfg.dspAck,
             .write s.cfg.ports.dspWrite s.cfg.ports.dspCmdVersion,
             .read s.cfg.ports.dspRead major, .read s.cfg.ports.dspRead minor] ++
            mixerTrace s.cfg.ports s.cfg.ports.mixerIrqValue ++ armTrace s.cfg
          mem := mem } ∧
      mem.wf = true ∧
      (∀ table, s.cfg.waveTable s.cfg.refWave = some table → ∀ k < s.cfg.halfSamples, ∀ t, table[k % s.cfg.waveLen]? = some t →
        mem.readSample (s.cfg.bufPhys.toNat + 2 * k) = BitVec.ofInt 16 (t.toInt * 128)) ∧
      (∀ a, (a < s.cfg.bufPhys.toNat ∨ s.cfg.bufPhys.toNat + 2 * s.cfg.halfSamples ≤ a) → mem.read a = s.mem.read a)

/-- R153, R231, R102: no acknowledgement within the bound. The last status byte is the diagnostic; the trace holds the reset
pulse and the status reads only. -/
def Obligations.PcmInitTimesOut : Prop :=
  ∀ (s : State) (sts rest : List Byte) (last : Byte),
    s.admits .pcmInit = true → s.runsWhole = true → s.pcmInited = false →
    (∀ b ∈ sts ++ [last], b.getLsbD 7 = false) → sts.length + 1 = s.cfg.resetPollMax →
    s.portDev.listed = sts ++ [last] ++ rest →
    exec .pcmInit s = .next
      { s with
        pcmInited := true
        initStep := sts.length + 3
        pollCnt := sts.length + 1
        pcmState := .failed
        faultCode := 1
        faultDiag := last
        halted := true
        diagLine := some (['F', 'A', 'I', 'L', 'E', 'D', ' ', 'T', 'O', ' ', 'R', 'E', 'S', 'E', 'T', ' '] ++
          s.cfg.deviceName ++ [':', ' ', '1', '/'] ++ Nat.toDigits 10 last.toNat)
        portDev := ⟨rest, s.portDev.drawn + sts.length + 1⟩
        portTrace := s.portTrace ++ pulseTrace s.cfg.ports (sts ++ [last]) }

/-- R154, R231, R102: a wrong acknowledgement byte. -/
def Obligations.PcmInitWrongAcknowledge : Prop :=
  ∀ (s : State) (sts rest : List Byte) (st ack : Byte),
    s.admits .pcmInit = true → s.runsWhole = true → s.pcmInited = false →
    (∀ b ∈ sts, b.getLsbD 7 = false) → st.getLsbD 7 = true → sts.length < s.cfg.resetPollMax → ack ≠ s.cfg.dspAck →
    s.portDev.listed = sts ++ [st, ack] ++ rest →
    exec .pcmInit s = .next
      { s with
        pcmInited := true
        initStep := sts.length + 4
        pollCnt := sts.length + 1
        pcmState := .failed
        faultCode := 1
        faultDiag := ack
        halted := true
        diagLine := some (['F', 'A', 'I', 'L', 'E', 'D', ' ', 'T', 'O', ' ', 'R', 'E', 'S', 'E', 'T', ' '] ++
          s.cfg.deviceName ++ [':', ' ', '1', '/'] ++ Nat.toDigits 10 ack.toNat)
        portDev := ⟨rest, s.portDev.drawn + sts.length + 2⟩
        portTrace := s.portTrace ++ pulseTrace s.cfg.ports sts ++
          [.read s.cfg.ports.dspRstatus st, .read s.cfg.ports.dspRead ack] }

/-- R155, R156, R231, R102: a major version below the minimum; the diagnostic is the packed version, major in the high
nibble and the low nibble of minor. -/
def Obligations.PcmInitVersionTooLow : Prop :=
  ∀ (s : State) (sts rest : List Byte) (st major minor : Byte),
    s.admits .pcmInit = true → s.runsWhole = true → s.pcmInited = false →
    (∀ b ∈ sts, b.getLsbD 7 = false) → st.getLsbD 7 = true → sts.length < s.cfg.resetPollMax →
    major.toNat < s.cfg.dspMinMajor.toNat →
    s.portDev.listed = sts ++ [st, s.cfg.dspAck, major, minor] ++ rest →
    let packed : Byte := BitVec.ofNat 8 (major.toNat * 16 + minor.toNat % 16)
    exec .pcmInit s = .next
      { s with
        pcmInited := true
        initStep := sts.length + 7
        pollCnt := sts.length + 1
        pcmState := .failed
        faultCode := 3
        faultDiag := packed
        halted := true
        diagLine := some (['F', 'A', 'I', 'L', 'E', 'D', ' ', 'T', 'O', ' ', 'R', 'E', 'S', 'E', 'T', ' '] ++
          s.cfg.deviceName ++ [':', ' ', '3', '/'] ++ Nat.toDigits 10 packed.toNat)
        portDev := ⟨rest, s.portDev.drawn + sts.length + 4⟩
        portTrace := s.portTrace ++ pulseTrace s.cfg.ports sts ++
          [.read s.cfg.ports.dspRstatus st, .read s.cfg.ports.dspRead s.cfg.dspAck,
           .write s.cfg.ports.dspWrite s.cfg.ports.dspCmdVersion,
           .read s.cfg.ports.dspRead major, .read s.cfg.ports.dspRead minor] }

/-- R158, R231, R102 (c): the mixer value read back differs from the one written. -/
def Obligations.PcmInitMixerMismatch : Prop :=
  ∀ (s : State) (sts rest : List Byte) (st major minor r : Byte),
    s.admits .pcmInit = true → s.runsWhole = true → s.pcmInited = false →
    (∀ b ∈ sts, b.getLsbD 7 = false) → st.getLsbD 7 = true → sts.length < s.cfg.resetPollMax →
    s.cfg.dspMinMajor.toNat ≤ major.toNat → r ≠ s.cfg.ports.mixerIrqValue →
    s.portDev.listed = sts ++ [st, s.cfg.dspAck, major, minor, r] ++ rest →
    exec .pcmInit s = .next
      { s with
        pcmInited := true
        initStep := sts.length + 11
        pollCnt := sts.length + 1
        pcmState := .failed
        faultCode := 0x10
        faultDiag := r
        halted := true
        diagLine := some (s.cfg.deviceName ++
          [' ', 'I', 'R', 'Q', ' ', 'M', 'I', 'S', 'M', 'A', 'T', 'C', 'H', ':', ' '] ++
          Nat.toDigits 10 s.cfg.ports.mixerIrqValue.toNat ++ ['/'] ++ Nat.toDigits 10 r.toNat)
        portDev := ⟨rest, s.portDev.drawn + sts.length + 5⟩
        portTrace := s.portTrace ++ pulseTrace s.cfg.ports sts ++
          [.read s.cfg.ports.dspRstatus st, .read s.cfg.ports.dspRead s.cfg.dspAck,
           .write s.cfg.ports.dspWrite s.cfg.ports.dspCmdVersion,
           .read s.cfg.ports.dspRead major, .read s.cfg.ports.dspRead minor] ++ mixerTrace s.cfg.ports r }

/-! ## The mixer commands -/

/-- R180, R96: `PCM_SET_NOTE` stores octave times 16 plus note in one voice's note register, and changes nothing else. -/
def Obligations.PcmSetNoteEffect : Prop :=
  ∀ (s : State) (voice octave note : Byte),
    s.admits .pcmSetNote = true → voice.toNat < 8 → note.toNat ≤ 12 → octave.toNat ≤ 15 →
    (note ≠ 0 → octave.toNat < s.cfg.numOctaves) →
    let v := { s.voices[pcmVoice voice] with note := BitVec.ofNat 8 (16 * octave.toNat + note.toNat) }
    exec (.pcmSetNote voice octave note) s = .next { s with voices := s.voices.set (pcmVoice voice) v }

/-- R181: `PCM_SET_WAVEFORM`, not cut: both bytes of one voice, nothing else. -/
def Obligations.PcmSetWaveformEffect : Prop :=
  ∀ (s : State) (voice w x : Byte),
    s.admits .pcmSetWaveform = true → s.runsWhole = true → voice.toNat < 8 →
    w ∈ [s.cfg.waveSine, s.cfg.waveSquare, s.cfg.waveNoise, s.cfg.waveTriangle] →
    exec (.pcmSetWaveform voice w x) s = .next
      { s with voices := s.voices.set (pcmVoice voice) { s.voices[pcmVoice voice] with wave := w, vol := x } }

/-- R181, R76: `PCM_SET_WAVEFORM` from the Host, cut after its first store: either byte may be the new one, as the open
order says, the other store is still to come, and after it the voice has both. The list of chosen orders is the model's
(log entry 3). -/
def Obligations.HostWaveformMayBeTorn : Prop :=
  ∀ (s : State) (voice w x : Byte),
    s.admits .pcmSetWaveform = true → s.tickOpen = false → s.slice = some 1 → voice.toNat < 8 →
    w ∈ [s.cfg.waveSine, s.cfg.waveSquare, s.cfg.waveNoise, s.cfg.waveTriangle] →
    let j := pcmVoice voice
    ∃ t, exec (.pcmSetWaveform voice w x) s = .next t ∧
      t = { s with voices := t.voices, hostOps := t.hostOps, storeOrder := t.storeOrder } ∧
      ((t.voices = s.voices.set j { s.voices[j] with wave := w } ∧ t.hostOps = [.storeVol j x]) ∨
       (t.voices = s.voices.set j { s.voices[j] with vol := x } ∧ t.hostOps = [.storeWave j w])) ∧
      (∀ rest, s.storeOrder.listed = false :: rest → t.hostOps = [.storeVol j x]) ∧
      (∀ rest, s.storeOrder.listed = true :: rest → t.hostOps = [.storeWave j w]) ∧
      t.resumeHost = { t with voices := s.voices.set j { s.voices[j] with wave := w, vol := x }, hostOps := [] }

/-- R182, R183: `PCM_SET_VOLUME` and `PCM_SET_MASTER` each store one byte. -/
def Obligations.PcmVolumesEffect : Prop :=
  (∀ (s : State) (voice x : Byte), s.admits .pcmSetVolume = true → voice.toNat < 8 →
    exec (.pcmSetVolume voice x) s = .next
      { s with voices := s.voices.set (pcmVoice voice) { s.voices[pcmVoice voice] with vol := x } }) ∧
  (∀ (s : State) (x : Byte), s.admits .pcmSetMaster = true → exec (.pcmSetMaster x) s = .next { s with master := x })

/-- R237, R184, R180 to R182: the range checks of the voice commands of the mixer, in their order; a command that
faults makes no store. -/
def Obligations.PcmRangeFaultsInOrder : Prop :=
  (∀ (s : State) (voice octave note : Byte), s.admits .pcmSetNote = true →
    (8 ≤ voice.toNat → exec (.pcmSetNote voice octave note) s = .next (faulted s 0x22 0x21)) ∧
    (voice.toNat < 8 → 12 < note.toNat → exec (.pcmSetNote voice octave note) s = .next (faulted s 0x23 0x21)) ∧
    (voice.toNat < 8 → note.toNat ≤ 12 → (15 < octave.toNat ∨ (note ≠ 0 ∧ s.cfg.numOctaves ≤ octave.toNat)) →
      exec (.pcmSetNote voice octave note) s = .next (faulted s 0x24 0x21))) ∧
  (∀ (s : State) (voice w x : Byte), s.admits .pcmSetWaveform = true →
    (8 ≤ voice.toNat → exec (.pcmSetWaveform voice w x) s = .next (faulted s 0x22 0x22)) ∧
    (voice.toNat < 8 → w ∉ [s.cfg.waveSine, s.cfg.waveSquare, s.cfg.waveNoise, s.cfg.waveTriangle] →
      exec (.pcmSetWaveform voice w x) s = .next (faulted s 0x25 0x22))) ∧
  (∀ (s : State) (voice x : Byte), s.admits .pcmSetVolume = true → 8 ≤ voice.toNat →
    exec (.pcmSetVolume voice x) s = .next (faulted s 0x22 0x23))

/-- R237, R132, R134, R135, R140: the range checks of the FM commands, in their order; the key-off arm checks the
voice only. -/
def Obligations.FmRangeFaultsInOrder : Prop :=
  (∀ (s : State) (voice patch : Byte), s.cfg.wf = true → s.admits .fmAssignInstrument = true →
    (s.cfg.fmVoices ≤ voice.toNat → exec (.fmAssignInstrument voice patch) s = .next (faulted s 0x22 0x11)) ∧
    (voice.toNat < s.cfg.fmVoices → s.cfg.patches.length ≤ patch.toNat →
      exec (.fmAssignInstrument voice patch) s = .next (faulted s 0x26 0x11))) ∧
  (∀ (s : State) (voice octave note : Byte), s.cfg.wf = true → s.admits .fmSetNote = true →
    (s.cfg.fmVoices ≤ voice.toNat → exec (.fmSetNote voice octave note) s = .next (faulted s 0x22 0x12)) ∧
    (voice.toNat < s.cfg.fmVoices → note ≠ s.cfg.fmNoteNone → (note.toNat < 1 ∨ 12 < note.toNat) →
      exec (.fmSetNote voice octave note) s = .next (faulted s 0x23 0x12)) ∧
    (voice.toNat < s.cfg.fmVoices → note ≠ s.cfg.fmNoteNone → 1 ≤ note.toNat → note.toNat ≤ 12 → 7 < octave.toNat →
      exec (.fmSetNote voice octave note) s = .next (faulted s 0x24 0x12)))

/-- R237, R266 (a): an operation with operands outside the ranges that hold in every configuration always raises a
command fault for its voice, note or octave, and changes nothing else. -/
def Obligations.IllFormedOperandsHalt : Prop :=
  ∀ (i : Instr) (s : State), i.wellFormed = false → s.admits i.op = true →
    ∃ code ∈ ([0x22, 0x23, 0x24] : List Byte), exec i s = .next (faulted s code i.op.byte)

/-! ## Interrupted commands, ownership, traces -/

/-- R74, R150: a Host command that is cut after any number of its accesses and then goes on to its end leaves the state
that the same command leaves uncut (apart from the record of the store order drawn, log entry 3). -/
def Obligations.CutCommandResumesWhole : Prop :=
  ∀ (i : Instr) (s : State) (k : Nat),
    s.cfg.wf = true → s.halted = false → s.tickOpen = false → s.hostReady = true → i.isEvent = false →
    ∃ t u, exec i { s with slice := some k } = .next t ∧ exec i { s with slice := none } = .next u ∧
      State.resumeHost { t with slice := none } = { u with storeOrder := t.storeOrder }

/-- R47, R23: no command and no event writes a phase accumulator or `tick_cnt`, only the acceptance of the playback
interrupt writes the flip flag and `fill_i`, and no operation writes the configuration (R48, log entry 1) or the model's
sample count, into which the preload does not count (log entry 5, DEDUCED). -/
def Obligations.OnlyFillOwnsItsRegisters : Prop :=
  ∀ (i : Instr) (s t : State), exec i s = .next t →
    (∀ j : Fin 8, t.voices[j].phase = s.voices[j].phase) ∧ t.tickCnt = s.tickCnt ∧ t.samplesDone = s.samplesDone ∧
    t.cfg = s.cfg ∧ (i ≠ .evFillIrq → t.drainHalf = s.drainHalf ∧ t.fillI = s.fillI)

/-- R37, R48: every step only appends to the traces, and never changes the configuration (log entry 1); nor does the model's
sample count fall (log entry 5, DEDUCED). -/
def Obligations.TracesOnlyGrow : Prop :=
  ∀ s t : State, step s = .next t →
    s.portTrace <+: t.portTrace ∧ s.fmTrace <+: t.fmTrace ∧ s.pcmOut <+: t.pcmOut ∧ s.tickTrace <+: t.tickTrace ∧
    s.samplesDone ≤ t.samplesDone ∧ t.cfg = s.cfg

/-! ## The fill engine -/

/-- R190, R191: acceptance of the playback interrupt clears the latch, masks the line, inverts the flip flag once and
starts the engine, in a PCM build (log entry 9, DEDUCED); a request that may not be accepted stays as it is (log entry 8,
DEDUCED). -/
def Obligations.FillIrqStartsTheEngine : Prop :=
  ∀ s : State,
    (s.cfg.backend = .pcm → s.pendFill = true → s.inFill = false → s.halted = false →
      exec .evFillIrq s = .next
        { s with
          pendFill := false
          inFill := true
          drainHalf := (match s.drainHalf with | .front => .back | .back => .front)
          fillI := 0
          fillState := .count }) ∧
    (s.pendFill = false ∨ s.inFill = true ∨ s.halted = true → exec .evFillIrq s = .next s)

/-- R197: the tick's return closes the window and resumes the engine, in a PCM build (log entry 9, DEDUCED), in `WAIT_TICK`
only: elsewhere the event cannot occur, and nothing changes (log entry 8, DEDUCED). -/
def Obligations.TickReturnResumesTheEngine : Prop :=
  ∀ s : State,
    (s.cfg.backend = .pcm → s.fillState = .waitTick → s.halted = false →
      exec .evTickReturn s = .next { s with tickOpen := false, fillState := .mix }) ∧
    (s.fillState ≠ .waitTick → exec .evTickReturn s = .next s)

/-- R194, R196, R197, R210: the counter is decremented once per sample; at zero it is reloaded and the tick is invoked once,
with the number of samples so far (log entry 5, DEDUCED); after the last sample of the half the engine goes to its exit. In
`WAIT_TICK` the engine does nothing until the tick's return, and in `IDLE` nothing until a request is accepted. -/
def Obligations.CountdownAndTick : Prop :=
  (∀ s : State, s.halted = false → s.fillState = .count →
    (s.fillI < s.cfg.halfSamples → s.tickCnt ≠ 1 →
      engineStep s = .next { s with tickCnt := BitVec.ofNat 32 (s.tickCnt.toNat + (2 ^ 32 - 1)), fillState := .mix }) ∧
    (s.fillI < s.cfg.halfSamples → s.tickCnt = 1 →
      engineStep s = .next
        { s with
          tickCnt := s.cfg.samplesPerTick
          tickTrace := s.tickTrace ++ [s.samplesDone]
          tickOpen := true
          fillState := .waitTick }) ∧
    (s.fillI = s.cfg.halfSamples → engineStep s = .next { s with fillState := .exit })) ∧
  (∀ s : State, s.fillState = .waitTick ∨ s.fillState = .idle → engineStep s = .next s)

/-- R198: a silent voice's phase is reset and it contributes exactly zero, whatever its waveform and volume; no noise is
drawn. -/
def Obligations.SilentVoiceIsZero : Prop :=
  ∀ (c : Config) (v : Voice) (src : Source Byte), v.note.extractLsb' 0 4 = 0 →
    mixVoice c v src = .ok ({ v with phase := 0 }, 0, src)

/-- R199 to R202, R204: a sounding voice with a table waveform: increment, advance and wrap, lookup at the integer part, and
scaling with the floor; the noise source is untouched. The multiplier is read whole (log entry 16, DEDUCED). -/
def Obligations.TableVoiceSample : Prop :=
  ∀ (c : Config) (v : Voice) (src : Source Byte) (base : BitVec 16) (mul : Nat) (table : List Byte) (t : Byte),
    c.waveLen ≤ 2 ^ 24 → 1 ≤ v.note.toNat % 16 →
    c.noteBase[v.note.toNat % 16 - 1]? = some base → c.octMul[v.note.toNat / 16]? = some mul →
    v.wave ≠ c.waveNoise → c.waveTable v.wave = some table →
    let inc := base.toNat * mul * c.waveLen / c.sampleRate.toNat
    let phase := (v.phase.toNat + inc) % (c.waveLen * 256)
    table[phase / 256]? = some t →
    mixVoice c v src = .ok ({ v with phase := BitVec.ofNat 32 phase }, (t.toInt * 128 * v.vol.toNat) / 256, src) ∧
    (1 ≤ c.waveLen → phase < c.waveLen * 256 ∧ (BitVec.ofNat 32 phase).toNat = phase)

/-- R203, R201: a sounding noise voice takes one draw, whatever its phase, and its phase still advances. The draw is the next
listed one, or, where none is listed, the free value at the counter (log entry 3). The multiplier is read whole (log entry
16, DEDUCED). -/
def Obligations.NoiseVoiceSample : Prop :=
  ∀ (c : Config) (v : Voice) (src : Source Byte) (base : BitVec 16) (mul : Nat),
    1 ≤ v.note.toNat % 16 →
    c.noteBase[v.note.toNat % 16 - 1]? = some base → c.octMul[v.note.toNat / 16]? = some mul → v.wave = c.waveNoise →
    let phase := (v.phase.toNat + base.toNat * mul * c.waveLen / c.sampleRate.toNat) % (c.waveLen * 256)
    let sounds (draw : Byte) : Voice × Int :=
      ({ v with phase := BitVec.ofNat 32 phase }, (draw.toInt * 128 * v.vol.toNat) / 256)
    (∀ draw rest, src.listed = draw :: rest →
      mixVoice c v src = .ok ((sounds draw).1, (sounds draw).2, ⟨rest, src.drawn + 1⟩)) ∧
    (src.listed = [] →
      mixVoice c v src = .ok ((sounds (Config.freeNoise src.drawn)).1, (sounds (Config.freeNoise src.drawn)).2,
        ⟨[], src.drawn + 1⟩))

/-- R193, R205: the voices are taken in index order, each with the noise source the one before left, and their contributions
are summed exactly. -/
def Obligations.VoicesAreSummedInOrder : Prop :=
  ∀ (s : State) (v : Fin 8 → Voice) (c : Fin 8 → Int) (src : Fin 9 → Source Byte),
    src 0 = s.noise →
    (∀ j : Fin 8, mixVoice s.cfg s.voices[j] (src j.castSucc) = .ok (v j, c j, src j.succ)) →
    mixVoices allVoices s 0 = .ok ({ s with voices := Vector.ofFn v, noise := src (Fin.last 8) }, ∑ j, c j)

/-- R192, R206, R207, R210: MIX stores one sample, the master-scaled sum wrapped to 16 bits, at the next index of the half not
named by the flip flag; the voices and the noise source are those the mixer left, the model's sample count rises by one (log
entry 5, DEDUCED), and nothing else changes. -/
def Obligations.MixStoresOneSample : Prop :=
  ∀ (s u : State) (acc : Int), s.halted = false → s.fillState = .mix → s.mem.wf = true →
    mixVoices allVoices s 0 = .ok (u, acc) →
    let w := (match s.drainHalf with | .front => 1 | .back => 0)
    let k := w * s.cfg.halfSamples + s.fillI
    k < s.cfg.bufferSamples →
    ∃ mem, engineStep s = .next
        { s with
          voices := u.voices
          noise := u.noise
          mem := mem
          fillI := s.fillI + 1
          samplesDone := s.samplesDone + 1
          fillState := .count } ∧
      mem.wf = true ∧
      mem.readSample (s.cfg.bufPhys.toNat + 2 * k) = BitVec.ofInt 16 ((acc * s.master.toNat) / 256) ∧
      (∀ a, a ≠ s.cfg.bufPhys.toNat + 2 * k → a ≠ s.cfg.bufPhys.toNat + 2 * k + 1 → mem.read a = s.mem.read a)

/-- R204 to R206, R211, R275: the ranges of the mixer's values, the contribution as the floor of half the product, and the
bound below which no stored sample wraps. -/
def Obligations.MixerRanges : Prop :=
  (∀ (t : Int) (vol : Byte), -128 ≤ t → t ≤ 127 →
    voiceScale t vol = t * vol.toNat / 2 ∧ -16320 ≤ voiceScale t vol ∧ voiceScale t vol ≤ 16192) ∧
  (∀ (cs : List Int) (master : Byte), cs.length = 8 → (∀ c ∈ cs, -16320 ≤ c ∧ c ≤ 16192) →
    -130560 ≤ cs.sum ∧ cs.sum ≤ 129536 ∧ -130050 ≤ masterScale cs.sum master ∧ masterScale cs.sum master ≤ 129030) ∧
  (∀ (tv : List (Int × Byte)) (master : Byte), (∀ x ∈ tv, -128 ≤ x.1 ∧ x.1 ≤ 127) →
    (tv.map fun x => 64 * x.2.toNat).sum * master.toNat < 32768 * 256 →
    let s := masterScale (tv.map fun x => voiceScale x.1 x.2).sum master
    (trunc16 s).toInt = s)

/-- R212 (a) (the spec derives it): for one voice and a fixed table value, the magnitude of the sample does not fall when
the voice volume or the master volume rises. -/
def Obligations.LouderIsNotQuieter : Prop :=
  ∀ (t : Int) (vol vol' master master' : Byte), -128 ≤ t → t ≤ 127 → vol.toNat ≤ vol'.toNat → master.toNat ≤ master'.toNat →
    (masterScale (voiceScale t vol) master).natAbs ≤ (masterScale (voiceScale t vol') master').natAbs

/-- R212 (b) (the spec derives it): with two voices sounding on table waveforms, the sum is that of each voice alone, before
the master scaling. -/
def Obligations.TwoVoicesAdd : Prop :=
  ∀ (s u ua ub : State) (a b : Fin 8) (acc accA accB : Int), a ≠ b →
    (∀ j : Fin 8, j ≠ a → j ≠ b → s.voices[j].note.extractLsb' 0 4 = 0) →
    s.voices[a].wave ≠ s.cfg.waveNoise → s.voices[b].wave ≠ s.cfg.waveNoise →
    mixVoices allVoices s 0 = .ok (u, acc) →
    mixVoices allVoices (s.setNote b 0) 0 = .ok (ua, accA) → mixVoices allVoices (s.setNote a 0) 0 = .ok (ub, accB) →
    acc = accA + accB

/-- R208, R243: the exit acknowledges at the device, then at the second controller for lines 8 to 15, then at the first,
unmasks the line and leaves the engine idle. -/
def Obligations.ExitAcknowledges : Prop :=
  ∀ s : State, s.halted = false → s.fillState = .exit →
    engineStep s = .next
      { s with
        portDev := (s.portDev.next Config.freePortByte).2
        portTrace := s.portTrace ++ [.read s.cfg.ports.dspAck16 s.portAnswer] ++
          (if 8 ≤ s.cfg.pcmIrqLine.toNat then [.write s.cfg.ports.pic2Cmd s.cfg.ports.picEoi] else []) ++
          [.write s.cfg.ports.pic1Cmd s.cfg.ports.picEoi]
        inFill := false
        fillState := .idle }

/-- R209, R273: from a state that keeps the invariant, a fill in which no tick falls runs to its end in two steps a sample
and two more: it leaves the line unmasked and the counter down by one half, and has written only the half it was to
write. The sample count is the model's (log entry 5, DEDUCED). -/
def Obligations.FillRunsToItsEnd : Prop :=
  ∀ s : State, s.inv = true → s.halted = false → s.fillState = .count → s.fillI = 0 →
    s.cfg.halfSamples < s.tickCnt.toNat →
    ∃ t, engineRun (2 * s.cfg.halfSamples + 2) s = .next t ∧
      t.fillState = .idle ∧ t.inFill = false ∧ t.halted = false ∧ t.drainHalf = s.drainHalf ∧ t.pendFill = s.pendFill ∧
      t.samplesDone = s.samplesDone + s.cfg.halfSamples ∧ t.tickTrace = s.tickTrace ∧
      t.tickCnt = BitVec.ofNat 32 (s.tickCnt.toNat - s.cfg.halfSamples) ∧
      (∀ k < s.cfg.halfSamples, t.sample (s.drainHalf.index * s.cfg.halfSamples + k) =
        s.sample (s.drainHalf.index * s.cfg.halfSamples + k)) ∧
      (∀ j : Fin 8, t.voices[j].note = s.voices[j].note ∧ t.voices[j].wave = s.voices[j].wave ∧
        t.voices[j].vol = s.voices[j].vol)

/-! ## The DMA agent -/

/-- R80, R239: one step of the DMA agent reads one sample and moves on, wrapping at the end of the buffer; at a half
boundary it makes the request, and a request while one is pending is recorded as lost. -/
def Obligations.DmaStepEffect : Prop :=
  ∀ s : State,
    (s.dmaRun = false → dmaStep s = .next s) ∧
    (s.dmaRun = true → s.drainPos < s.cfg.bufferSamples →
      (s.drainPos + 1) % s.cfg.bufferSamples % s.cfg.halfSamples ≠ 0 →
      dmaStep s = .next
        { s with
          pcmOut := s.pcmOut ++ [s.sample s.drainPos]
          drainPos := (s.drainPos + 1) % s.cfg.bufferSamples }) ∧
    (s.dmaRun = true → s.drainPos < s.cfg.bufferSamples →
      (s.drainPos + 1) % s.cfg.bufferSamples % s.cfg.halfSamples = 0 →
      dmaStep s = .next
        { s with
          pcmOut := s.pcmOut ++ [s.sample s.drainPos]
          drainPos := (s.drainPos + 1) % s.cfg.bufferSamples
          fillOverrun := s.fillOverrun || s.pendFill
          pendFill := true })

/-! ## The whole machine -/

/-- R46, R260: the values after power-on reset, in every configuration. The empty `diag_line` and `rsp` are `none` (log entry
12, DEDUCED). -/
def Obligations.ResetValues : Prop :=
  ∀ c : Config,
    let s := State.resetWith c
    (∀ j : Fin 8, s.voices[j] = ⟨0, 0, 0, 0⟩) ∧ s.master = 0 ∧ s.drainHalf = .front ∧ s.tickCnt = c.tickCntReset ∧
    s.fillState = .idle ∧ s.fillI = 0 ∧ s.initStep = 0 ∧ s.pollCnt = 0 ∧
    s.pendFill = false ∧ s.pendTimer = false ∧ s.inFill = false ∧ s.tickOpen = false ∧ s.fillOverrun = false ∧
    s.pcmState = .unreset ∧ s.faultCode = 0 ∧ s.faultDiag = 0 ∧ s.halted = false ∧
    s.timerInited = false ∧ s.fmInited = false ∧ s.pcmInited = false ∧
    s.timerFreq = 0 ∧ s.timerDiv = 0 ∧ s.tickCount = 0 ∧ (∀ i : Fin 6, s.keycache[i] = 0) ∧
    (∀ (b : Bank) (r : Byte), s.fmImageAt b r = none) ∧ (∀ k < c.bufferSamples, s.sample k = 0) ∧
    s.dmaRun = false ∧ s.drainPos = 0 ∧ s.timerRun = false ∧
    s.portTrace = [] ∧ s.fmTrace = [] ∧ s.pcmOut = [] ∧ s.tickTrace = [] ∧ s.diagLine = none ∧ s.rsp = none

/-- The invariant holds at reset, in every configuration the model runs. -/
def Obligations.ResetKeepsTheInvariant : Prop :=
  ∀ c : Config, c.wf = true → (State.resetWith c).inv = true

/-- Every step, of whichever agent, keeps the invariant: voice registers and phases in range (R22, R23, R202), memory in
its canonical form and inside the buffer (R60), the engine's registers and flags agreeing (R27, R28), the flip flag counting
the half boundaries (R25, R77), the fault registers agreeing (R30), no source without its INIT operation (R238). -/
def Obligations.StepKeepsTheInvariant : Prop :=
  ∀ s t : State, s.inv = true → step s = .next t → t.inv = true

/-- From a state that keeps the invariant the machine never stops: every step answers a next state. -/
def Obligations.InvariantStepsNeverStop : Prop :=
  ∀ s : State, s.inv = true → ∃ t, step s = .next t

/-- R77, R191, R245: in a state that keeps the invariant, with no request lost and none waiting, the flip flag names the
half the DMA agent drains, and a sample the engine stores goes to the other half. -/
def Obligations.FillWritesTheOtherHalf : Prop :=
  ∀ s : State, s.inv = true → s.fillOverrun = false → s.pendFill = false →
    s.drainHalf.index = s.drainPos / s.cfg.halfSamples ∧
    (s.fillState = .mix → s.fillIndex < s.cfg.bufferSamples ∧
      s.fillIndex / s.cfg.halfSamples ≠ s.drainPos / s.cfg.halfSamples)

/-! ## Host turns that start no command -/

/-- R74, R75, R233: the Host's other turns. An unfinished command goes on with its next accesses; while a handler runs, inside
a tick window or outside it, the Host does nothing; a halted block ignores the word presented, which is dropped (log entry
20, DEDUCED). And while the port takes no word, a command and a word presented change nothing (log entry 13, DEDUCED). The
schedule, the cut and the list of words are the model's (log entries 2, 4 and 6). -/
def Obligations.HostTurnResumesOrWaits : Prop :=
  (∀ (s : State) (k : Option Nat), s.cfg.wf = true → s.nextTurn = .host k →
    let t := { s with turns := s.tookTurn.turns, slice := k }
    (s.halted = false → s.inFill = false → s.tickOpen = false → s.hostOps ≠ [] → step s = .next t.resumeHost) ∧
    (s.halted = false → (s.inFill = true ∨ s.tickOpen = true) → step s = .next t) ∧
    (s.halted = false → s.inFill = false → s.tickOpen = false → s.hostOps = [] → s.hostWords = [] → step s = .next t) ∧
    (s.halted = true → step s = .next { t with hostWords := s.hostWords.tail })) ∧
  (∀ (s : State) (i : Instr), s.cmdReady = false → i.isEvent = false → exec i s = .next s) ∧
  (∀ (s : State) (w : Word), s.cmdReady = false → presentWord w s = .next s)

/-! ## Widths -/

/-- R211: in every configuration the model runs (the bound on the octave multipliers is log entry 15's, DEDUCED; they are read
whole, log entry 16, DEDUCED) the frequency, its product with the table length and the sum before the phase is reduced
stay inside their widths; so do the products and the sum of the mixer, of any number of voices up to eight, as signed values;
and in a state that keeps the invariant the decrement of `tick_cnt` does not wrap. -/
def Obligations.NoIntermediateOverflow : Prop :=
  (∀ c : Config, c.wf = true →
    (∀ base ∈ c.noteBase, ∀ mul ∈ c.octMul,
      base.toNat * mul < 2 ^ 31 ∧ base.toNat * mul * c.waveLen < 2 ^ 55) ∧
    (∀ (nb : Byte) (inc : Nat) (phase : BitVec 32), phaseInc c nb = some inc → phase.toNat + inc < 2 ^ 56)) ∧
  (∀ t vol : Byte, -2 ^ 22 ≤ t.toInt * 128 * vol.toNat ∧ t.toInt * 128 * vol.toNat < 2 ^ 22) ∧
  (∀ (tv : List (Byte × Byte)) (master : Byte), tv.length ≤ 8 →
    let acc := (tv.map fun x => voiceScale x.1.toInt x.2).sum
    (-2 ^ 17 ≤ acc ∧ acc < 2 ^ 17) ∧ (-2 ^ 25 ≤ acc * master.toNat ∧ acc * master.toNat < 2 ^ 25)) ∧
  (∀ s : State, s.inv = true → 1 ≤ s.tickCnt.toNat ∧ (s.tickCnt - 1).toNat = s.tickCnt.toNat - 1)
end

