-- ==== Sys2Proof/Laws/State.lean ====
section
/-!
SUPPORT. The small lemmas of the named updates of the state: one per field per update, true by unfolding, so that no later
proof unfolds an update.
-/

namespace Sys2Proof.Machine

/-! ## `State.setSample` -/

@[simp] theorem State.setSample_cfg (s : State) (k : Nat) (v : Sample) : (s.setSample k v).cfg = s.cfg := rfl
@[simp] theorem State.setSample_voices (s : State) (k : Nat) (v : Sample) : (s.setSample k v).voices = s.voices := rfl
@[simp] theorem State.setSample_master (s : State) (k : Nat) (v : Sample) : (s.setSample k v).master = s.master := rfl
@[simp] theorem State.setSample_drainHalf (s : State) (k : Nat) (v : Sample) : (s.setSample k v).drainHalf = s.drainHalf := rfl
@[simp] theorem State.setSample_tickCnt (s : State) (k : Nat) (v : Sample) : (s.setSample k v).tickCnt = s.tickCnt := rfl
@[simp] theorem State.setSample_fillState (s : State) (k : Nat) (v : Sample) : (s.setSample k v).fillState = s.fillState := rfl
@[simp] theorem State.setSample_fillI (s : State) (k : Nat) (v : Sample) : (s.setSample k v).fillI = s.fillI := rfl
@[simp] theorem State.setSample_initStep (s : State) (k : Nat) (v : Sample) : (s.setSample k v).initStep = s.initStep := rfl
@[simp] theorem State.setSample_pollCnt (s : State) (k : Nat) (v : Sample) : (s.setSample k v).pollCnt = s.pollCnt := rfl
@[simp] theorem State.setSample_pendFill (s : State) (k : Nat) (v : Sample) : (s.setSample k v).pendFill = s.pendFill := rfl
@[simp] theorem State.setSample_pendTimer (s : State) (k : Nat) (v : Sample) : (s.setSample k v).pendTimer = s.pendTimer := rfl
@[simp] theorem State.setSample_inFill (s : State) (k : Nat) (v : Sample) : (s.setSample k v).inFill = s.inFill := rfl
@[simp] theorem State.setSample_tickOpen (s : State) (k : Nat) (v : Sample) : (s.setSample k v).tickOpen = s.tickOpen := rfl
@[simp] theorem State.setSample_fillOverrun (s : State) (k : Nat) (v : Sample) : (s.setSample k v).fillOverrun = s.fillOverrun := rfl
@[simp] theorem State.setSample_pcmState (s : State) (k : Nat) (v : Sample) : (s.setSample k v).pcmState = s.pcmState := rfl
@[simp] theorem State.setSample_faultCode (s : State) (k : Nat) (v : Sample) : (s.setSample k v).faultCode = s.faultCode := rfl
@[simp] theorem State.setSample_faultDiag (s : State) (k : Nat) (v : Sample) : (s.setSample k v).faultDiag = s.faultDiag := rfl
@[simp] theorem State.setSample_halted (s : State) (k : Nat) (v : Sample) : (s.setSample k v).halted = s.halted := rfl
@[simp] theorem State.setSample_timerInited (s : State) (k : Nat) (v : Sample) : (s.setSample k v).timerInited = s.timerInited := rfl
@[simp] theorem State.setSample_fmInited (s : State) (k : Nat) (v : Sample) : (s.setSample k v).fmInited = s.fmInited := rfl
@[simp] theorem State.setSample_pcmInited (s : State) (k : Nat) (v : Sample) : (s.setSample k v).pcmInited = s.pcmInited := rfl
@[simp] theorem State.setSample_timerFreq (s : State) (k : Nat) (v : Sample) : (s.setSample k v).timerFreq = s.timerFreq := rfl
@[simp] theorem State.setSample_timerDiv (s : State) (k : Nat) (v : Sample) : (s.setSample k v).timerDiv = s.timerDiv := rfl
@[simp] theorem State.setSample_tickCount (s : State) (k : Nat) (v : Sample) : (s.setSample k v).tickCount = s.tickCount := rfl
@[simp] theorem State.setSample_keycache (s : State) (k : Nat) (v : Sample) : (s.setSample k v).keycache = s.keycache := rfl
@[simp] theorem State.setSample_fmImage (s : State) (k : Nat) (v : Sample) : (s.setSample k v).fmImage = s.fmImage := rfl
@[simp] theorem State.setSample_mem (s : State) (k : Nat) (v : Sample) : (s.setSample k v).mem = s.mem.writeSample (s.sampleAddr k) v := rfl
@[simp] theorem State.setSample_dmaRun (s : State) (k : Nat) (v : Sample) : (s.setSample k v).dmaRun = s.dmaRun := rfl
@[simp] theorem State.setSample_drainPos (s : State) (k : Nat) (v : Sample) : (s.setSample k v).drainPos = s.drainPos := rfl
@[simp] theorem State.setSample_timerRun (s : State) (k : Nat) (v : Sample) : (s.setSample k v).timerRun = s.timerRun := rfl
@[simp] theorem State.setSample_portTrace (s : State) (k : Nat) (v : Sample) : (s.setSample k v).portTrace = s.portTrace := rfl
@[simp] theorem State.setSample_fmTrace (s : State) (k : Nat) (v : Sample) : (s.setSample k v).fmTrace = s.fmTrace := rfl
@[simp] theorem State.setSample_pcmOut (s : State) (k : Nat) (v : Sample) : (s.setSample k v).pcmOut = s.pcmOut := rfl
@[simp] theorem State.setSample_tickTrace (s : State) (k : Nat) (v : Sample) : (s.setSample k v).tickTrace = s.tickTrace := rfl
@[simp] theorem State.setSample_diagLine (s : State) (k : Nat) (v : Sample) : (s.setSample k v).diagLine = s.diagLine := rfl
@[simp] theorem State.setSample_rsp (s : State) (k : Nat) (v : Sample) : (s.setSample k v).rsp = s.rsp := rfl
@[simp] theorem State.setSample_samplesDone (s : State) (k : Nat) (v : Sample) : (s.setSample k v).samplesDone = s.samplesDone := rfl
@[simp] theorem State.setSample_hostOps (s : State) (k : Nat) (v : Sample) : (s.setSample k v).hostOps = s.hostOps := rfl
@[simp] theorem State.setSample_slice (s : State) (k : Nat) (v : Sample) : (s.setSample k v).slice = s.slice := rfl
@[simp] theorem State.setSample_turns (s : State) (k : Nat) (v : Sample) : (s.setSample k v).turns = s.turns := rfl
@[simp] theorem State.setSample_portDev (s : State) (k : Nat) (v : Sample) : (s.setSample k v).portDev = s.portDev := rfl
@[simp] theorem State.setSample_noise (s : State) (k : Nat) (v : Sample) : (s.setSample k v).noise = s.noise := rfl
@[simp] theorem State.setSample_storeOrder (s : State) (k : Nat) (v : Sample) : (s.setSample k v).storeOrder = s.storeOrder := rfl
@[simp] theorem State.setSample_hostWords (s : State) (k : Nat) (v : Sample) : (s.setSample k v).hostWords = s.hostWords := rfl
@[simp] theorem State.setSample_seqActs (s : State) (k : Nat) (v : Sample) : (s.setSample k v).seqActs = s.seqActs := rfl

/-! ## `State.setNote` -/

@[simp] theorem State.setNote_cfg (s : State) (j : Fin 8) (b : Byte) : (s.setNote j b).cfg = s.cfg := rfl
@[simp] theorem State.setNote_voices (s : State) (j : Fin 8) (b : Byte) : (s.setNote j b).voices = s.voices.set j { s.voices[j] with note := b } := rfl
@[simp] theorem State.setNote_master (s : State) (j : Fin 8) (b : Byte) : (s.setNote j b).master = s.master := rfl
@[simp] theorem State.setNote_drainHalf (s : State) (j : Fin 8) (b : Byte) : (s.setNote j b).drainHalf = s.drainHalf := rfl
@[simp] theorem State.setNote_tickCnt (s : State) (j : Fin 8) (b : Byte) : (s.setNote j b).tickCnt = s.tickCnt := rfl
@[simp] theorem State.setNote_fillState (s : State) (j : Fin 8) (b : Byte) : (s.setNote j b).fillState = s.fillState := rfl
@[simp] theorem State.setNote_fillI (s : State) (j : Fin 8) (b : Byte) : (s.setNote j b).fillI = s.fillI := rfl
@[simp] theorem State.setNote_initStep (s : State) (j : Fin 8) (b : Byte) : (s.setNote j b).initStep = s.initStep := rfl
@[simp] theorem State.setNote_pollCnt (s : State) (j : Fin 8) (b : Byte) : (s.setNote j b).pollCnt = s.pollCnt := rfl
@[simp] theorem State.setNote_pendFill (s : State) (j : Fin 8) (b : Byte) : (s.setNote j b).pendFill = s.pendFill := rfl
@[simp] theorem State.setNote_pendTimer (s : State) (j : Fin 8) (b : Byte) : (s.setNote j b).pendTimer = s.pendTimer := rfl
@[simp] theorem State.setNote_inFill (s : State) (j : Fin 8) (b : Byte) : (s.setNote j b).inFill = s.inFill := rfl
@[simp] theorem State.setNote_tickOpen (s : State) (j : Fin 8) (b : Byte) : (s.setNote j b).tickOpen = s.tickOpen := rfl
@[simp] theorem State.setNote_fillOverrun (s : State) (j : Fin 8) (b : Byte) : (s.setNote j b).fillOverrun = s.fillOverrun := rfl
@[simp] theorem State.setNote_pcmState (s : State) (j : Fin 8) (b : Byte) : (s.setNote j b).pcmState = s.pcmState := rfl
@[simp] theorem State.setNote_faultCode (s : State) (j : Fin 8) (b : Byte) : (s.setNote j b).faultCode = s.faultCode := rfl
@[simp] theorem State.setNote_faultDiag (s : State) (j : Fin 8) (b : Byte) : (s.setNote j b).faultDiag = s.faultDiag := rfl
@[simp] theorem State.setNote_halted (s : State) (j : Fin 8) (b : Byte) : (s.setNote j b).halted = s.halted := rfl
@[simp] theorem State.setNote_timerInited (s : State) (j : Fin 8) (b : Byte) : (s.setNote j b).timerInited = s.timerInited := rfl
@[simp] theorem State.setNote_fmInited (s : State) (j : Fin 8) (b : Byte) : (s.setNote j b).fmInited = s.fmInited := rfl
@[simp] theorem State.setNote_pcmInited (s : State) (j : Fin 8) (b : Byte) : (s.setNote j b).pcmInited = s.pcmInited := rfl
@[simp] theorem State.setNote_timerFreq (s : State) (j : Fin 8) (b : Byte) : (s.setNote j b).timerFreq = s.timerFreq := rfl
@[simp] theorem State.setNote_timerDiv (s : State) (j : Fin 8) (b : Byte) : (s.setNote j b).timerDiv = s.timerDiv := rfl
@[simp] theorem State.setNote_tickCount (s : State) (j : Fin 8) (b : Byte) : (s.setNote j b).tickCount = s.tickCount := rfl
@[simp] theorem State.setNote_keycache (s : State) (j : Fin 8) (b : Byte) : (s.setNote j b).keycache = s.keycache := rfl
@[simp] theorem State.setNote_fmImage (s : State) (j : Fin 8) (b : Byte) : (s.setNote j b).fmImage = s.fmImage := rfl
@[simp] theorem State.setNote_mem (s : State) (j : Fin 8) (b : Byte) : (s.setNote j b).mem = s.mem := rfl
@[simp] theorem State.setNote_dmaRun (s : State) (j : Fin 8) (b : Byte) : (s.setNote j b).dmaRun = s.dmaRun := rfl
@[simp] theorem State.setNote_drainPos (s : State) (j : Fin 8) (b : Byte) : (s.setNote j b).drainPos = s.drainPos := rfl
@[simp] theorem State.setNote_timerRun (s : State) (j : Fin 8) (b : Byte) : (s.setNote j b).timerRun = s.timerRun := rfl
@[simp] theorem State.setNote_portTrace (s : State) (j : Fin 8) (b : Byte) : (s.setNote j b).portTrace = s.portTrace := rfl
@[simp] theorem State.setNote_fmTrace (s : State) (j : Fin 8) (b : Byte) : (s.setNote j b).fmTrace = s.fmTrace := rfl
@[simp] theorem State.setNote_pcmOut (s : State) (j : Fin 8) (b : Byte) : (s.setNote j b).pcmOut = s.pcmOut := rfl
@[simp] theorem State.setNote_tickTrace (s : State) (j : Fin 8) (b : Byte) : (s.setNote j b).tickTrace = s.tickTrace := rfl
@[simp] theorem State.setNote_diagLine (s : State) (j : Fin 8) (b : Byte) : (s.setNote j b).diagLine = s.diagLine := rfl
@[simp] theorem State.setNote_rsp (s : State) (j : Fin 8) (b : Byte) : (s.setNote j b).rsp = s.rsp := rfl
@[simp] theorem State.setNote_samplesDone (s : State) (j : Fin 8) (b : Byte) : (s.setNote j b).samplesDone = s.samplesDone := rfl
@[simp] theorem State.setNote_hostOps (s : State) (j : Fin 8) (b : Byte) : (s.setNote j b).hostOps = s.hostOps := rfl
@[simp] theorem State.setNote_slice (s : State) (j : Fin 8) (b : Byte) : (s.setNote j b).slice = s.slice := rfl
@[simp] theorem State.setNote_turns (s : State) (j : Fin 8) (b : Byte) : (s.setNote j b).turns = s.turns := rfl
@[simp] theorem State.setNote_portDev (s : State) (j : Fin 8) (b : Byte) : (s.setNote j b).portDev = s.portDev := rfl
@[simp] theorem State.setNote_noise (s : State) (j : Fin 8) (b : Byte) : (s.setNote j b).noise = s.noise := rfl
@[simp] theorem State.setNote_storeOrder (s : State) (j : Fin 8) (b : Byte) : (s.setNote j b).storeOrder = s.storeOrder := rfl
@[simp] theorem State.setNote_hostWords (s : State) (j : Fin 8) (b : Byte) : (s.setNote j b).hostWords = s.hostWords := rfl
@[simp] theorem State.setNote_seqActs (s : State) (j : Fin 8) (b : Byte) : (s.setNote j b).seqActs = s.seqActs := rfl

/-! ## `State.setWave` -/

@[simp] theorem State.setWave_cfg (s : State) (j : Fin 8) (b : Byte) : (s.setWave j b).cfg = s.cfg := rfl
@[simp] theorem State.setWave_voices (s : State) (j : Fin 8) (b : Byte) : (s.setWave j b).voices = s.voices.set j { s.voices[j] with wave := b } := rfl
@[simp] theorem State.setWave_master (s : State) (j : Fin 8) (b : Byte) : (s.setWave j b).master = s.master := rfl
@[simp] theorem State.setWave_drainHalf (s : State) (j : Fin 8) (b : Byte) : (s.setWave j b).drainHalf = s.drainHalf := rfl
@[simp] theorem State.setWave_tickCnt (s : State) (j : Fin 8) (b : Byte) : (s.setWave j b).tickCnt = s.tickCnt := rfl
@[simp] theorem State.setWave_fillState (s : State) (j : Fin 8) (b : Byte) : (s.setWave j b).fillState = s.fillState := rfl
@[simp] theorem State.setWave_fillI (s : State) (j : Fin 8) (b : Byte) : (s.setWave j b).fillI = s.fillI := rfl
@[simp] theorem State.setWave_initStep (s : State) (j : Fin 8) (b : Byte) : (s.setWave j b).initStep = s.initStep := rfl
@[simp] theorem State.setWave_pollCnt (s : State) (j : Fin 8) (b : Byte) : (s.setWave j b).pollCnt = s.pollCnt := rfl
@[simp] theorem State.setWave_pendFill (s : State) (j : Fin 8) (b : Byte) : (s.setWave j b).pendFill = s.pendFill := rfl
@[simp] theorem State.setWave_pendTimer (s : State) (j : Fin 8) (b : Byte) : (s.setWave j b).pendTimer = s.pendTimer := rfl
@[simp] theorem State.setWave_inFill (s : State) (j : Fin 8) (b : Byte) : (s.setWave j b).inFill = s.inFill := rfl
@[simp] theorem State.setWave_tickOpen (s : State) (j : Fin 8) (b : Byte) : (s.setWave j b).tickOpen = s.tickOpen := rfl
@[simp] theorem State.setWave_fillOverrun (s : State) (j : Fin 8) (b : Byte) : (s.setWave j b).fillOverrun = s.fillOverrun := rfl
@[simp] theorem State.setWave_pcmState (s : State) (j : Fin 8) (b : Byte) : (s.setWave j b).pcmState = s.pcmState := rfl
@[simp] theorem State.setWave_faultCode (s : State) (j : Fin 8) (b : Byte) : (s.setWave j b).faultCode = s.faultCode := rfl
@[simp] theorem State.setWave_faultDiag (s : State) (j : Fin 8) (b : Byte) : (s.setWave j b).faultDiag = s.faultDiag := rfl
@[simp] theorem State.setWave_halted (s : State) (j : Fin 8) (b : Byte) : (s.setWave j b).halted = s.halted := rfl
@[simp] theorem State.setWave_timerInited (s : State) (j : Fin 8) (b : Byte) : (s.setWave j b).timerInited = s.timerInited := rfl
@[simp] theorem State.setWave_fmInited (s : State) (j : Fin 8) (b : Byte) : (s.setWave j b).fmInited = s.fmInited := rfl
@[simp] theorem State.setWave_pcmInited (s : State) (j : Fin 8) (b : Byte) : (s.setWave j b).pcmInited = s.pcmInited := rfl
@[simp] theorem State.setWave_timerFreq (s : State) (j : Fin 8) (b : Byte) : (s.setWave j b).timerFreq = s.timerFreq := rfl
@[simp] theorem State.setWave_timerDiv (s : State) (j : Fin 8) (b : Byte) : (s.setWave j b).timerDiv = s.timerDiv := rfl
@[simp] theorem State.setWave_tickCount (s : State) (j : Fin 8) (b : Byte) : (s.setWave j b).tickCount = s.tickCount := rfl
@[simp] theorem State.setWave_keycache (s : State) (j : Fin 8) (b : Byte) : (s.setWave j b).keycache = s.keycache := rfl
@[simp] theorem State.setWave_fmImage (s : State) (j : Fin 8) (b : Byte) : (s.setWave j b).fmImage = s.fmImage := rfl
@[simp] theorem State.setWave_mem (s : State) (j : Fin 8) (b : Byte) : (s.setWave j b).mem = s.mem := rfl
@[simp] theorem State.setWave_dmaRun (s : State) (j : Fin 8) (b : Byte) : (s.setWave j b).dmaRun = s.dmaRun := rfl
@[simp] theorem State.setWave_drainPos (s : State) (j : Fin 8) (b : Byte) : (s.setWave j b).drainPos = s.drainPos := rfl
@[simp] theorem State.setWave_timerRun (s : State) (j : Fin 8) (b : Byte) : (s.setWave j b).timerRun = s.timerRun := rfl
@[simp] theorem State.setWave_portTrace (s : State) (j : Fin 8) (b : Byte) : (s.setWave j b).portTrace = s.portTrace := rfl
@[simp] theorem State.setWave_fmTrace (s : State) (j : Fin 8) (b : Byte) : (s.setWave j b).fmTrace = s.fmTrace := rfl
@[simp] theorem State.setWave_pcmOut (s : State) (j : Fin 8) (b : Byte) : (s.setWave j b).pcmOut = s.pcmOut := rfl
@[simp] theorem State.setWave_tickTrace (s : State) (j : Fin 8) (b : Byte) : (s.setWave j b).tickTrace = s.tickTrace := rfl
@[simp] theorem State.setWave_diagLine (s : State) (j : Fin 8) (b : Byte) : (s.setWave j b).diagLine = s.diagLine := rfl
@[simp] theorem State.setWave_rsp (s : State) (j : Fin 8) (b : Byte) : (s.setWave j b).rsp = s.rsp := rfl
@[simp] theorem State.setWave_samplesDone (s : State) (j : Fin 8) (b : Byte) : (s.setWave j b).samplesDone = s.samplesDone := rfl
@[simp] theorem State.setWave_hostOps (s : State) (j : Fin 8) (b : Byte) : (s.setWave j b).hostOps = s.hostOps := rfl
@[simp] theorem State.setWave_slice (s : State) (j : Fin 8) (b : Byte) : (s.setWave j b).slice = s.slice := rfl
@[simp] theorem State.setWave_turns (s : State) (j : Fin 8) (b : Byte) : (s.setWave j b).turns = s.turns := rfl
@[simp] theorem State.setWave_portDev (s : State) (j : Fin 8) (b : Byte) : (s.setWave j b).portDev = s.portDev := rfl
@[simp] theorem State.setWave_noise (s : State) (j : Fin 8) (b : Byte) : (s.setWave j b).noise = s.noise := rfl
@[simp] theorem State.setWave_storeOrder (s : State) (j : Fin 8) (b : Byte) : (s.setWave j b).storeOrder = s.storeOrder := rfl
@[simp] theorem State.setWave_hostWords (s : State) (j : Fin 8) (b : Byte) : (s.setWave j b).hostWords = s.hostWords := rfl
@[simp] theorem State.setWave_seqActs (s : State) (j : Fin 8) (b : Byte) : (s.setWave j b).seqActs = s.seqActs := rfl

/-! ## `State.setVol` -/

@[simp] theorem State.setVol_cfg (s : State) (j : Fin 8) (b : Byte) : (s.setVol j b).cfg = s.cfg := rfl
@[simp] theorem State.setVol_voices (s : State) (j : Fin 8) (b : Byte) : (s.setVol j b).voices = s.voices.set j { s.voices[j] with vol := b } := rfl
@[simp] theorem State.setVol_master (s : State) (j : Fin 8) (b : Byte) : (s.setVol j b).master = s.master := rfl
@[simp] theorem State.setVol_drainHalf (s : State) (j : Fin 8) (b : Byte) : (s.setVol j b).drainHalf = s.drainHalf := rfl
@[simp] theorem State.setVol_tickCnt (s : State) (j : Fin 8) (b : Byte) : (s.setVol j b).tickCnt = s.tickCnt := rfl
@[simp] theorem State.setVol_fillState (s : State) (j : Fin 8) (b : Byte) : (s.setVol j b).fillState = s.fillState := rfl
@[simp] theorem State.setVol_fillI (s : State) (j : Fin 8) (b : Byte) : (s.setVol j b).fillI = s.fillI := rfl
@[simp] theorem State.setVol_initStep (s : State) (j : Fin 8) (b : Byte) : (s.setVol j b).initStep = s.initStep := rfl
@[simp] theorem State.setVol_pollCnt (s : State) (j : Fin 8) (b : Byte) : (s.setVol j b).pollCnt = s.pollCnt := rfl
@[simp] theorem State.setVol_pendFill (s : State) (j : Fin 8) (b : Byte) : (s.setVol j b).pendFill = s.pendFill := rfl
@[simp] theorem State.setVol_pendTimer (s : State) (j : Fin 8) (b : Byte) : (s.setVol j b).pendTimer = s.pendTimer := rfl
@[simp] theorem State.setVol_inFill (s : State) (j : Fin 8) (b : Byte) : (s.setVol j b).inFill = s.inFill := rfl
@[simp] theorem State.setVol_tickOpen (s : State) (j : Fin 8) (b : Byte) : (s.setVol j b).tickOpen = s.tickOpen := rfl
@[simp] theorem State.setVol_fillOverrun (s : State) (j : Fin 8) (b : Byte) : (s.setVol j b).fillOverrun = s.fillOverrun := rfl
@[simp] theorem State.setVol_pcmState (s : State) (j : Fin 8) (b : Byte) : (s.setVol j b).pcmState = s.pcmState := rfl
@[simp] theorem State.setVol_faultCode (s : State) (j : Fin 8) (b : Byte) : (s.setVol j b).faultCode = s.faultCode := rfl
@[simp] theorem State.setVol_faultDiag (s : State) (j : Fin 8) (b : Byte) : (s.setVol j b).faultDiag = s.faultDiag := rfl
@[simp] theorem State.setVol_halted (s : State) (j : Fin 8) (b : Byte) : (s.setVol j b).halted = s.halted := rfl
@[simp] theorem State.setVol_timerInited (s : State) (j : Fin 8) (b : Byte) : (s.setVol j b).timerInited = s.timerInited := rfl
@[simp] theorem State.setVol_fmInited (s : State) (j : Fin 8) (b : Byte) : (s.setVol j b).fmInited = s.fmInited := rfl
@[simp] theorem State.setVol_pcmInited (s : State) (j : Fin 8) (b : Byte) : (s.setVol j b).pcmInited = s.pcmInited := rfl
@[simp] theorem State.setVol_timerFreq (s : State) (j : Fin 8) (b : Byte) : (s.setVol j b).timerFreq = s.timerFreq := rfl
@[simp] theorem State.setVol_timerDiv (s : State) (j : Fin 8) (b : Byte) : (s.setVol j b).timerDiv = s.timerDiv := rfl
@[simp] theorem State.setVol_tickCount (s : State) (j : Fin 8) (b : Byte) : (s.setVol j b).tickCount = s.tickCount := rfl
@[simp] theorem State.setVol_keycache (s : State) (j : Fin 8) (b : Byte) : (s.setVol j b).keycache = s.keycache := rfl
@[simp] theorem State.setVol_fmImage (s : State) (j : Fin 8) (b : Byte) : (s.setVol j b).fmImage = s.fmImage := rfl
@[simp] theorem State.setVol_mem (s : State) (j : Fin 8) (b : Byte) : (s.setVol j b).mem = s.mem := rfl
@[simp] theorem State.setVol_dmaRun (s : State) (j : Fin 8) (b : Byte) : (s.setVol j b).dmaRun = s.dmaRun := rfl
@[simp] theorem State.setVol_drainPos (s : State) (j : Fin 8) (b : Byte) : (s.setVol j b).drainPos = s.drainPos := rfl
@[simp] theorem State.setVol_timerRun (s : State) (j : Fin 8) (b : Byte) : (s.setVol j b).timerRun = s.timerRun := rfl
@[simp] theorem State.setVol_portTrace (s : State) (j : Fin 8) (b : Byte) : (s.setVol j b).portTrace = s.portTrace := rfl
@[simp] theorem State.setVol_fmTrace (s : State) (j : Fin 8) (b : Byte) : (s.setVol j b).fmTrace = s.fmTrace := rfl
@[simp] theorem State.setVol_pcmOut (s : State) (j : Fin 8) (b : Byte) : (s.setVol j b).pcmOut = s.pcmOut := rfl
@[simp] theorem State.setVol_tickTrace (s : State) (j : Fin 8) (b : Byte) : (s.setVol j b).tickTrace = s.tickTrace := rfl
@[simp] theorem State.setVol_diagLine (s : State) (j : Fin 8) (b : Byte) : (s.setVol j b).diagLine = s.diagLine := rfl
@[simp] theorem State.setVol_rsp (s : State) (j : Fin 8) (b : Byte) : (s.setVol j b).rsp = s.rsp := rfl
@[simp] theorem State.setVol_samplesDone (s : State) (j : Fin 8) (b : Byte) : (s.setVol j b).samplesDone = s.samplesDone := rfl
@[simp] theorem State.setVol_hostOps (s : State) (j : Fin 8) (b : Byte) : (s.setVol j b).hostOps = s.hostOps := rfl
@[simp] theorem State.setVol_slice (s : State) (j : Fin 8) (b : Byte) : (s.setVol j b).slice = s.slice := rfl
@[simp] theorem State.setVol_turns (s : State) (j : Fin 8) (b : Byte) : (s.setVol j b).turns = s.turns := rfl
@[simp] theorem State.setVol_portDev (s : State) (j : Fin 8) (b : Byte) : (s.setVol j b).portDev = s.portDev := rfl
@[simp] theorem State.setVol_noise (s : State) (j : Fin 8) (b : Byte) : (s.setVol j b).noise = s.noise := rfl
@[simp] theorem State.setVol_storeOrder (s : State) (j : Fin 8) (b : Byte) : (s.setVol j b).storeOrder = s.storeOrder := rfl
@[simp] theorem State.setVol_hostWords (s : State) (j : Fin 8) (b : Byte) : (s.setVol j b).hostWords = s.hostWords := rfl
@[simp] theorem State.setVol_seqActs (s : State) (j : Fin 8) (b : Byte) : (s.setVol j b).seqActs = s.seqActs := rfl

/-! ## `State.portWrite` -/

@[simp] theorem State.portWrite_cfg (s : State) (a : PortAddr) (v : Byte) : (s.portWrite a v).cfg = s.cfg := rfl
@[simp] theorem State.portWrite_voices (s : State) (a : PortAddr) (v : Byte) : (s.portWrite a v).voices = s.voices := rfl
@[simp] theorem State.portWrite_master (s : State) (a : PortAddr) (v : Byte) : (s.portWrite a v).master = s.master := rfl
@[simp] theorem State.portWrite_drainHalf (s : State) (a : PortAddr) (v : Byte) : (s.portWrite a v).drainHalf = s.drainHalf := rfl
@[simp] theorem State.portWrite_tickCnt (s : State) (a : PortAddr) (v : Byte) : (s.portWrite a v).tickCnt = s.tickCnt := rfl
@[simp] theorem State.portWrite_fillState (s : State) (a : PortAddr) (v : Byte) : (s.portWrite a v).fillState = s.fillState := rfl
@[simp] theorem State.portWrite_fillI (s : State) (a : PortAddr) (v : Byte) : (s.portWrite a v).fillI = s.fillI := rfl
@[simp] theorem State.portWrite_initStep (s : State) (a : PortAddr) (v : Byte) : (s.portWrite a v).initStep = s.initStep := rfl
@[simp] theorem State.portWrite_pollCnt (s : State) (a : PortAddr) (v : Byte) : (s.portWrite a v).pollCnt = s.pollCnt := rfl
@[simp] theorem State.portWrite_pendFill (s : State) (a : PortAddr) (v : Byte) : (s.portWrite a v).pendFill = s.pendFill := rfl
@[simp] theorem State.portWrite_pendTimer (s : State) (a : PortAddr) (v : Byte) : (s.portWrite a v).pendTimer = s.pendTimer := rfl
@[simp] theorem State.portWrite_inFill (s : State) (a : PortAddr) (v : Byte) : (s.portWrite a v).inFill = s.inFill := rfl
@[simp] theorem State.portWrite_tickOpen (s : State) (a : PortAddr) (v : Byte) : (s.portWrite a v).tickOpen = s.tickOpen := rfl
@[simp] theorem State.portWrite_fillOverrun (s : State) (a : PortAddr) (v : Byte) : (s.portWrite a v).fillOverrun = s.fillOverrun := rfl
@[simp] theorem State.portWrite_pcmState (s : State) (a : PortAddr) (v : Byte) : (s.portWrite a v).pcmState = s.pcmState := rfl
@[simp] theorem State.portWrite_faultCode (s : State) (a : PortAddr) (v : Byte) : (s.portWrite a v).faultCode = s.faultCode := rfl
@[simp] theorem State.portWrite_faultDiag (s : State) (a : PortAddr) (v : Byte) : (s.portWrite a v).faultDiag = s.faultDiag := rfl
@[simp] theorem State.portWrite_halted (s : State) (a : PortAddr) (v : Byte) : (s.portWrite a v).halted = s.halted := rfl
@[simp] theorem State.portWrite_timerInited (s : State) (a : PortAddr) (v : Byte) : (s.portWrite a v).timerInited = s.timerInited := rfl
@[simp] theorem State.portWrite_fmInited (s : State) (a : PortAddr) (v : Byte) : (s.portWrite a v).fmInited = s.fmInited := rfl
@[simp] theorem State.portWrite_pcmInited (s : State) (a : PortAddr) (v : Byte) : (s.portWrite a v).pcmInited = s.pcmInited := rfl
@[simp] theorem State.portWrite_timerFreq (s : State) (a : PortAddr) (v : Byte) : (s.portWrite a v).timerFreq = s.timerFreq := rfl
@[simp] theorem State.portWrite_timerDiv (s : State) (a : PortAddr) (v : Byte) : (s.portWrite a v).timerDiv = s.timerDiv := rfl
@[simp] theorem State.portWrite_tickCount (s : State) (a : PortAddr) (v : Byte) : (s.portWrite a v).tickCount = s.tickCount := rfl
@[simp] theorem State.portWrite_keycache (s : State) (a : PortAddr) (v : Byte) : (s.portWrite a v).keycache = s.keycache := rfl
@[simp] theorem State.portWrite_fmImage (s : State) (a : PortAddr) (v : Byte) : (s.portWrite a v).fmImage = s.fmImage := rfl
@[simp] theorem State.portWrite_mem (s : State) (a : PortAddr) (v : Byte) : (s.portWrite a v).mem = s.mem := rfl
@[simp] theorem State.portWrite_dmaRun (s : State) (a : PortAddr) (v : Byte) : (s.portWrite a v).dmaRun = s.dmaRun := rfl
@[simp] theorem State.portWrite_drainPos (s : State) (a : PortAddr) (v : Byte) : (s.portWrite a v).drainPos = s.drainPos := rfl
@[simp] theorem State.portWrite_timerRun (s : State) (a : PortAddr) (v : Byte) : (s.portWrite a v).timerRun = s.timerRun := rfl
@[simp] theorem State.portWrite_portTrace (s : State) (a : PortAddr) (v : Byte) : (s.portWrite a v).portTrace = s.portTrace ++ [.write a v] := rfl
@[simp] theorem State.portWrite_fmTrace (s : State) (a : PortAddr) (v : Byte) : (s.portWrite a v).fmTrace = s.fmTrace := rfl
@[simp] theorem State.portWrite_pcmOut (s : State) (a : PortAddr) (v : Byte) : (s.portWrite a v).pcmOut = s.pcmOut := rfl
@[simp] theorem State.portWrite_tickTrace (s : State) (a : PortAddr) (v : Byte) : (s.portWrite a v).tickTrace = s.tickTrace := rfl
@[simp] theorem State.portWrite_diagLine (s : State) (a : PortAddr) (v : Byte) : (s.portWrite a v).diagLine = s.diagLine := rfl
@[simp] theorem State.portWrite_rsp (s : State) (a : PortAddr) (v : Byte) : (s.portWrite a v).rsp = s.rsp := rfl
@[simp] theorem State.portWrite_samplesDone (s : State) (a : PortAddr) (v : Byte) : (s.portWrite a v).samplesDone = s.samplesDone := rfl
@[simp] theorem State.portWrite_hostOps (s : State) (a : PortAddr) (v : Byte) : (s.portWrite a v).hostOps = s.hostOps := rfl
@[simp] theorem State.portWrite_slice (s : State) (a : PortAddr) (v : Byte) : (s.portWrite a v).slice = s.slice := rfl
@[simp] theorem State.portWrite_turns (s : State) (a : PortAddr) (v : Byte) : (s.portWrite a v).turns = s.turns := rfl
@[simp] theorem State.portWrite_portDev (s : State) (a : PortAddr) (v : Byte) : (s.portWrite a v).portDev = s.portDev := rfl
@[simp] theorem State.portWrite_noise (s : State) (a : PortAddr) (v : Byte) : (s.portWrite a v).noise = s.noise := rfl
@[simp] theorem State.portWrite_storeOrder (s : State) (a : PortAddr) (v : Byte) : (s.portWrite a v).storeOrder = s.storeOrder := rfl
@[simp] theorem State.portWrite_hostWords (s : State) (a : PortAddr) (v : Byte) : (s.portWrite a v).hostWords = s.hostWords := rfl
@[simp] theorem State.portWrite_seqActs (s : State) (a : PortAddr) (v : Byte) : (s.portWrite a v).seqActs = s.seqActs := rfl

/-! ## `State.portRead` -/

@[simp] theorem State.portRead_cfg (s : State) (a : PortAddr) : (s.portRead a).cfg = s.cfg := rfl
@[simp] theorem State.portRead_voices (s : State) (a : PortAddr) : (s.portRead a).voices = s.voices := rfl
@[simp] theorem State.portRead_master (s : State) (a : PortAddr) : (s.portRead a).master = s.master := rfl
@[simp] theorem State.portRead_drainHalf (s : State) (a : PortAddr) : (s.portRead a).drainHalf = s.drainHalf := rfl
@[simp] theorem State.portRead_tickCnt (s : State) (a : PortAddr) : (s.portRead a).tickCnt = s.tickCnt := rfl
@[simp] theorem State.portRead_fillState (s : State) (a : PortAddr) : (s.portRead a).fillState = s.fillState := rfl
@[simp] theorem State.portRead_fillI (s : State) (a : PortAddr) : (s.portRead a).fillI = s.fillI := rfl
@[simp] theorem State.portRead_initStep (s : State) (a : PortAddr) : (s.portRead a).initStep = s.initStep := rfl
@[simp] theorem State.portRead_pollCnt (s : State) (a : PortAddr) : (s.portRead a).pollCnt = s.pollCnt := rfl
@[simp] theorem State.portRead_pendFill (s : State) (a : PortAddr) : (s.portRead a).pendFill = s.pendFill := rfl
@[simp] theorem State.portRead_pendTimer (s : State) (a : PortAddr) : (s.portRead a).pendTimer = s.pendTimer := rfl
@[simp] theorem State.portRead_inFill (s : State) (a : PortAddr) : (s.portRead a).inFill = s.inFill := rfl
@[simp] theorem State.portRead_tickOpen (s : State) (a : PortAddr) : (s.portRead a).tickOpen = s.tickOpen := rfl
@[simp] theorem State.portRead_fillOverrun (s : State) (a : PortAddr) : (s.portRead a).fillOverrun = s.fillOverrun := rfl
@[simp] theorem State.portRead_pcmState (s : State) (a : PortAddr) : (s.portRead a).pcmState = s.pcmState := rfl
@[simp] theorem State.portRead_faultCode (s : State) (a : PortAddr) : (s.portRead a).faultCode = s.faultCode := rfl
@[simp] theorem State.portRead_faultDiag (s : State) (a : PortAddr) : (s.portRead a).faultDiag = s.faultDiag := rfl
@[simp] theorem State.portRead_halted (s : State) (a : PortAddr) : (s.portRead a).halted = s.halted := rfl
@[simp] theorem State.portRead_timerInited (s : State) (a : PortAddr) : (s.portRead a).timerInited = s.timerInited := rfl
@[simp] theorem State.portRead_fmInited (s : State) (a : PortAddr) : (s.portRead a).fmInited = s.fmInited := rfl
@[simp] theorem State.portRead_pcmInited (s : State) (a : PortAddr) : (s.portRead a).pcmInited = s.pcmInited := rfl
@[simp] theorem State.portRead_timerFreq (s : State) (a : PortAddr) : (s.portRead a).timerFreq = s.timerFreq := rfl
@[simp] theorem State.portRead_timerDiv (s : State) (a : PortAddr) : (s.portRead a).timerDiv = s.timerDiv := rfl
@[simp] theorem State.portRead_tickCount (s : State) (a : PortAddr) : (s.portRead a).tickCount = s.tickCount := rfl
@[simp] theorem State.portRead_keycache (s : State) (a : PortAddr) : (s.portRead a).keycache = s.keycache := rfl
@[simp] theorem State.portRead_fmImage (s : State) (a : PortAddr) : (s.portRead a).fmImage = s.fmImage := rfl
@[simp] theorem State.portRead_mem (s : State) (a : PortAddr) : (s.portRead a).mem = s.mem := rfl
@[simp] theorem State.portRead_dmaRun (s : State) (a : PortAddr) : (s.portRead a).dmaRun = s.dmaRun := rfl
@[simp] theorem State.portRead_drainPos (s : State) (a : PortAddr) : (s.portRead a).drainPos = s.drainPos := rfl
@[simp] theorem State.portRead_timerRun (s : State) (a : PortAddr) : (s.portRead a).timerRun = s.timerRun := rfl
@[simp] theorem State.portRead_portTrace (s : State) (a : PortAddr) : (s.portRead a).portTrace = s.portTrace ++ [.read a s.portAnswer] := rfl
@[simp] theorem State.portRead_fmTrace (s : State) (a : PortAddr) : (s.portRead a).fmTrace = s.fmTrace := rfl
@[simp] theorem State.portRead_pcmOut (s : State) (a : PortAddr) : (s.portRead a).pcmOut = s.pcmOut := rfl
@[simp] theorem State.portRead_tickTrace (s : State) (a : PortAddr) : (s.portRead a).tickTrace = s.tickTrace := rfl
@[simp] theorem State.portRead_diagLine (s : State) (a : PortAddr) : (s.portRead a).diagLine = s.diagLine := rfl
@[simp] theorem State.portRead_rsp (s : State) (a : PortAddr) : (s.portRead a).rsp = s.rsp := rfl
@[simp] theorem State.portRead_samplesDone (s : State) (a : PortAddr) : (s.portRead a).samplesDone = s.samplesDone := rfl
@[simp] theorem State.portRead_hostOps (s : State) (a : PortAddr) : (s.portRead a).hostOps = s.hostOps := rfl
@[simp] theorem State.portRead_slice (s : State) (a : PortAddr) : (s.portRead a).slice = s.slice := rfl
@[simp] theorem State.portRead_turns (s : State) (a : PortAddr) : (s.portRead a).turns = s.turns := rfl
@[simp] theorem State.portRead_portDev (s : State) (a : PortAddr) : (s.portRead a).portDev = (s.portDev.next Config.freePortByte).2 := rfl
@[simp] theorem State.portRead_noise (s : State) (a : PortAddr) : (s.portRead a).noise = s.noise := rfl
@[simp] theorem State.portRead_storeOrder (s : State) (a : PortAddr) : (s.portRead a).storeOrder = s.storeOrder := rfl
@[simp] theorem State.portRead_hostWords (s : State) (a : PortAddr) : (s.portRead a).hostWords = s.hostWords := rfl
@[simp] theorem State.portRead_seqActs (s : State) (a : PortAddr) : (s.portRead a).seqActs = s.seqActs := rfl

/-! ## `State.fmSelect` -/

@[simp] theorem State.fmSelect_cfg (s : State) (b : Bank) (r : Byte) : (s.fmSelect b r).cfg = s.cfg := rfl
@[simp] theorem State.fmSelect_voices (s : State) (b : Bank) (r : Byte) : (s.fmSelect b r).voices = s.voices := rfl
@[simp] theorem State.fmSelect_master (s : State) (b : Bank) (r : Byte) : (s.fmSelect b r).master = s.master := rfl
@[simp] theorem State.fmSelect_drainHalf (s : State) (b : Bank) (r : Byte) : (s.fmSelect b r).drainHalf = s.drainHalf := rfl
@[simp] theorem State.fmSelect_tickCnt (s : State) (b : Bank) (r : Byte) : (s.fmSelect b r).tickCnt = s.tickCnt := rfl
@[simp] theorem State.fmSelect_fillState (s : State) (b : Bank) (r : Byte) : (s.fmSelect b r).fillState = s.fillState := rfl
@[simp] theorem State.fmSelect_fillI (s : State) (b : Bank) (r : Byte) : (s.fmSelect b r).fillI = s.fillI := rfl
@[simp] theorem State.fmSelect_initStep (s : State) (b : Bank) (r : Byte) : (s.fmSelect b r).initStep = s.initStep := rfl
@[simp] theorem State.fmSelect_pollCnt (s : State) (b : Bank) (r : Byte) : (s.fmSelect b r).pollCnt = s.pollCnt := rfl
@[simp] theorem State.fmSelect_pendFill (s : State) (b : Bank) (r : Byte) : (s.fmSelect b r).pendFill = s.pendFill := rfl
@[simp] theorem State.fmSelect_pendTimer (s : State) (b : Bank) (r : Byte) : (s.fmSelect b r).pendTimer = s.pendTimer := rfl
@[simp] theorem State.fmSelect_inFill (s : State) (b : Bank) (r : Byte) : (s.fmSelect b r).inFill = s.inFill := rfl
@[simp] theorem State.fmSelect_tickOpen (s : State) (b : Bank) (r : Byte) : (s.fmSelect b r).tickOpen = s.tickOpen := rfl
@[simp] theorem State.fmSelect_fillOverrun (s : State) (b : Bank) (r : Byte) : (s.fmSelect b r).fillOverrun = s.fillOverrun := rfl
@[simp] theorem State.fmSelect_pcmState (s : State) (b : Bank) (r : Byte) : (s.fmSelect b r).pcmState = s.pcmState := rfl
@[simp] theorem State.fmSelect_faultCode (s : State) (b : Bank) (r : Byte) : (s.fmSelect b r).faultCode = s.faultCode := rfl
@[simp] theorem State.fmSelect_faultDiag (s : State) (b : Bank) (r : Byte) : (s.fmSelect b r).faultDiag = s.faultDiag := rfl
@[simp] theorem State.fmSelect_halted (s : State) (b : Bank) (r : Byte) : (s.fmSelect b r).halted = s.halted := rfl
@[simp] theorem State.fmSelect_timerInited (s : State) (b : Bank) (r : Byte) : (s.fmSelect b r).timerInited = s.timerInited := rfl
@[simp] theorem State.fmSelect_fmInited (s : State) (b : Bank) (r : Byte) : (s.fmSelect b r).fmInited = s.fmInited := rfl
@[simp] theorem State.fmSelect_pcmInited (s : State) (b : Bank) (r : Byte) : (s.fmSelect b r).pcmInited = s.pcmInited := rfl
@[simp] theorem State.fmSelect_timerFreq (s : State) (b : Bank) (r : Byte) : (s.fmSelect b r).timerFreq = s.timerFreq := rfl
@[simp] theorem State.fmSelect_timerDiv (s : State) (b : Bank) (r : Byte) : (s.fmSelect b r).timerDiv = s.timerDiv := rfl
@[simp] theorem State.fmSelect_tickCount (s : State) (b : Bank) (r : Byte) : (s.fmSelect b r).tickCount = s.tickCount := rfl
@[simp] theorem State.fmSelect_keycache (s : State) (b : Bank) (r : Byte) : (s.fmSelect b r).keycache = s.keycache := rfl
@[simp] theorem State.fmSelect_fmImage (s : State) (b : Bank) (r : Byte) : (s.fmSelect b r).fmImage = s.fmImage := rfl
@[simp] theorem State.fmSelect_mem (s : State) (b : Bank) (r : Byte) : (s.fmSelect b r).mem = s.mem := rfl
@[simp] theorem State.fmSelect_dmaRun (s : State) (b : Bank) (r : Byte) : (s.fmSelect b r).dmaRun = s.dmaRun := rfl
@[simp] theorem State.fmSelect_drainPos (s : State) (b : Bank) (r : Byte) : (s.fmSelect b r).drainPos = s.drainPos := rfl
@[simp] theorem State.fmSelect_timerRun (s : State) (b : Bank) (r : Byte) : (s.fmSelect b r).timerRun = s.timerRun := rfl
@[simp] theorem State.fmSelect_portTrace (s : State) (b : Bank) (r : Byte) : (s.fmSelect b r).portTrace = s.portTrace ++ [.write (fmIndexPort s.cfg.ports b) r] := rfl
@[simp] theorem State.fmSelect_fmTrace (s : State) (b : Bank) (r : Byte) : (s.fmSelect b r).fmTrace = s.fmTrace := rfl
@[simp] theorem State.fmSelect_pcmOut (s : State) (b : Bank) (r : Byte) : (s.fmSelect b r).pcmOut = s.pcmOut := rfl
@[simp] theorem State.fmSelect_tickTrace (s : State) (b : Bank) (r : Byte) : (s.fmSelect b r).tickTrace = s.tickTrace := rfl
@[simp] theorem State.fmSelect_diagLine (s : State) (b : Bank) (r : Byte) : (s.fmSelect b r).diagLine = s.diagLine := rfl
@[simp] theorem State.fmSelect_rsp (s : State) (b : Bank) (r : Byte) : (s.fmSelect b r).rsp = s.rsp := rfl
@[simp] theorem State.fmSelect_samplesDone (s : State) (b : Bank) (r : Byte) : (s.fmSelect b r).samplesDone = s.samplesDone := rfl
@[simp] theorem State.fmSelect_hostOps (s : State) (b : Bank) (r : Byte) : (s.fmSelect b r).hostOps = s.hostOps := rfl
@[simp] theorem State.fmSelect_slice (s : State) (b : Bank) (r : Byte) : (s.fmSelect b r).slice = s.slice := rfl
@[simp] theorem State.fmSelect_turns (s : State) (b : Bank) (r : Byte) : (s.fmSelect b r).turns = s.turns := rfl
@[simp] theorem State.fmSelect_portDev (s : State) (b : Bank) (r : Byte) : (s.fmSelect b r).portDev = s.portDev := rfl
@[simp] theorem State.fmSelect_noise (s : State) (b : Bank) (r : Byte) : (s.fmSelect b r).noise = s.noise := rfl
@[simp] theorem State.fmSelect_storeOrder (s : State) (b : Bank) (r : Byte) : (s.fmSelect b r).storeOrder = s.storeOrder := rfl
@[simp] theorem State.fmSelect_hostWords (s : State) (b : Bank) (r : Byte) : (s.fmSelect b r).hostWords = s.hostWords := rfl
@[simp] theorem State.fmSelect_seqActs (s : State) (b : Bank) (r : Byte) : (s.fmSelect b r).seqActs = s.seqActs := rfl

/-! ## `State.fmStore` -/

@[simp] theorem State.fmStore_cfg (s : State) (b : Bank) (r v : Byte) : (s.fmStore b r v).cfg = s.cfg := rfl
@[simp] theorem State.fmStore_voices (s : State) (b : Bank) (r v : Byte) : (s.fmStore b r v).voices = s.voices := rfl
@[simp] theorem State.fmStore_master (s : State) (b : Bank) (r v : Byte) : (s.fmStore b r v).master = s.master := rfl
@[simp] theorem State.fmStore_drainHalf (s : State) (b : Bank) (r v : Byte) : (s.fmStore b r v).drainHalf = s.drainHalf := rfl
@[simp] theorem State.fmStore_tickCnt (s : State) (b : Bank) (r v : Byte) : (s.fmStore b r v).tickCnt = s.tickCnt := rfl
@[simp] theorem State.fmStore_fillState (s : State) (b : Bank) (r v : Byte) : (s.fmStore b r v).fillState = s.fillState := rfl
@[simp] theorem State.fmStore_fillI (s : State) (b : Bank) (r v : Byte) : (s.fmStore b r v).fillI = s.fillI := rfl
@[simp] theorem State.fmStore_initStep (s : State) (b : Bank) (r v : Byte) : (s.fmStore b r v).initStep = s.initStep := rfl
@[simp] theorem State.fmStore_pollCnt (s : State) (b : Bank) (r v : Byte) : (s.fmStore b r v).pollCnt = s.pollCnt := rfl
@[simp] theorem State.fmStore_pendFill (s : State) (b : Bank) (r v : Byte) : (s.fmStore b r v).pendFill = s.pendFill := rfl
@[simp] theorem State.fmStore_pendTimer (s : State) (b : Bank) (r v : Byte) : (s.fmStore b r v).pendTimer = s.pendTimer := rfl
@[simp] theorem State.fmStore_inFill (s : State) (b : Bank) (r v : Byte) : (s.fmStore b r v).inFill = s.inFill := rfl
@[simp] theorem State.fmStore_tickOpen (s : State) (b : Bank) (r v : Byte) : (s.fmStore b r v).tickOpen = s.tickOpen := rfl
@[simp] theorem State.fmStore_fillOverrun (s : State) (b : Bank) (r v : Byte) : (s.fmStore b r v).fillOverrun = s.fillOverrun := rfl
@[simp] theorem State.fmStore_pcmState (s : State) (b : Bank) (r v : Byte) : (s.fmStore b r v).pcmState = s.pcmState := rfl
@[simp] theorem State.fmStore_faultCode (s : State) (b : Bank) (r v : Byte) : (s.fmStore b r v).faultCode = s.faultCode := rfl
@[simp] theorem State.fmStore_faultDiag (s : State) (b : Bank) (r v : Byte) : (s.fmStore b r v).faultDiag = s.faultDiag := rfl
@[simp] theorem State.fmStore_halted (s : State) (b : Bank) (r v : Byte) : (s.fmStore b r v).halted = s.halted := rfl
@[simp] theorem State.fmStore_timerInited (s : State) (b : Bank) (r v : Byte) : (s.fmStore b r v).timerInited = s.timerInited := rfl
@[simp] theorem State.fmStore_fmInited (s : State) (b : Bank) (r v : Byte) : (s.fmStore b r v).fmInited = s.fmInited := rfl
@[simp] theorem State.fmStore_pcmInited (s : State) (b : Bank) (r v : Byte) : (s.fmStore b r v).pcmInited = s.pcmInited := rfl
@[simp] theorem State.fmStore_timerFreq (s : State) (b : Bank) (r v : Byte) : (s.fmStore b r v).timerFreq = s.timerFreq := rfl
@[simp] theorem State.fmStore_timerDiv (s : State) (b : Bank) (r v : Byte) : (s.fmStore b r v).timerDiv = s.timerDiv := rfl
@[simp] theorem State.fmStore_tickCount (s : State) (b : Bank) (r v : Byte) : (s.fmStore b r v).tickCount = s.tickCount := rfl
@[simp] theorem State.fmStore_keycache (s : State) (b : Bank) (r v : Byte) : (s.fmStore b r v).keycache = s.keycache := rfl
@[simp] theorem State.fmStore_fmImage (s : State) (b : Bank) (r v : Byte) : (s.fmStore b r v).fmImage = cellPut (fmKey b r) v s.fmImage := rfl
@[simp] theorem State.fmStore_mem (s : State) (b : Bank) (r v : Byte) : (s.fmStore b r v).mem = s.mem := rfl
@[simp] theorem State.fmStore_dmaRun (s : State) (b : Bank) (r v : Byte) : (s.fmStore b r v).dmaRun = s.dmaRun := rfl
@[simp] theorem State.fmStore_drainPos (s : State) (b : Bank) (r v : Byte) : (s.fmStore b r v).drainPos = s.drainPos := rfl
@[simp] theorem State.fmStore_timerRun (s : State) (b : Bank) (r v : Byte) : (s.fmStore b r v).timerRun = s.timerRun := rfl
@[simp] theorem State.fmStore_portTrace (s : State) (b : Bank) (r v : Byte) : (s.fmStore b r v).portTrace = s.portTrace ++ [.write (fmDataPort s.cfg.ports b) v] := rfl
@[simp] theorem State.fmStore_fmTrace (s : State) (b : Bank) (r v : Byte) : (s.fmStore b r v).fmTrace = s.fmTrace ++ [⟨b, r, v⟩] := rfl
@[simp] theorem State.fmStore_pcmOut (s : State) (b : Bank) (r v : Byte) : (s.fmStore b r v).pcmOut = s.pcmOut := rfl
@[simp] theorem State.fmStore_tickTrace (s : State) (b : Bank) (r v : Byte) : (s.fmStore b r v).tickTrace = s.tickTrace := rfl
@[simp] theorem State.fmStore_diagLine (s : State) (b : Bank) (r v : Byte) : (s.fmStore b r v).diagLine = s.diagLine := rfl
@[simp] theorem State.fmStore_rsp (s : State) (b : Bank) (r v : Byte) : (s.fmStore b r v).rsp = s.rsp := rfl
@[simp] theorem State.fmStore_samplesDone (s : State) (b : Bank) (r v : Byte) : (s.fmStore b r v).samplesDone = s.samplesDone := rfl
@[simp] theorem State.fmStore_hostOps (s : State) (b : Bank) (r v : Byte) : (s.fmStore b r v).hostOps = s.hostOps := rfl
@[simp] theorem State.fmStore_slice (s : State) (b : Bank) (r v : Byte) : (s.fmStore b r v).slice = s.slice := rfl
@[simp] theorem State.fmStore_turns (s : State) (b : Bank) (r v : Byte) : (s.fmStore b r v).turns = s.turns := rfl
@[simp] theorem State.fmStore_portDev (s : State) (b : Bank) (r v : Byte) : (s.fmStore b r v).portDev = s.portDev := rfl
@[simp] theorem State.fmStore_noise (s : State) (b : Bank) (r v : Byte) : (s.fmStore b r v).noise = s.noise := rfl
@[simp] theorem State.fmStore_storeOrder (s : State) (b : Bank) (r v : Byte) : (s.fmStore b r v).storeOrder = s.storeOrder := rfl
@[simp] theorem State.fmStore_hostWords (s : State) (b : Bank) (r v : Byte) : (s.fmStore b r v).hostWords = s.hostWords := rfl
@[simp] theorem State.fmStore_seqActs (s : State) (b : Bank) (r v : Byte) : (s.fmStore b r v).seqActs = s.seqActs := rfl

/-! ## `State.initWrite` -/

@[simp] theorem State.initWrite_cfg (s : State) (a : PortAddr) (v : Byte) : (s.initWrite a v).cfg = s.cfg := rfl
@[simp] theorem State.initWrite_voices (s : State) (a : PortAddr) (v : Byte) : (s.initWrite a v).voices = s.voices := rfl
@[simp] theorem State.initWrite_master (s : State) (a : PortAddr) (v : Byte) : (s.initWrite a v).master = s.master := rfl
@[simp] theorem State.initWrite_drainHalf (s : State) (a : PortAddr) (v : Byte) : (s.initWrite a v).drainHalf = s.drainHalf := rfl
@[simp] theorem State.initWrite_tickCnt (s : State) (a : PortAddr) (v : Byte) : (s.initWrite a v).tickCnt = s.tickCnt := rfl
@[simp] theorem State.initWrite_fillState (s : State) (a : PortAddr) (v : Byte) : (s.initWrite a v).fillState = s.fillState := rfl
@[simp] theorem State.initWrite_fillI (s : State) (a : PortAddr) (v : Byte) : (s.initWrite a v).fillI = s.fillI := rfl
@[simp] theorem State.initWrite_initStep (s : State) (a : PortAddr) (v : Byte) : (s.initWrite a v).initStep = s.initStep + 1 := rfl
@[simp] theorem State.initWrite_pollCnt (s : State) (a : PortAddr) (v : Byte) : (s.initWrite a v).pollCnt = s.pollCnt := rfl
@[simp] theorem State.initWrite_pendFill (s : State) (a : PortAddr) (v : Byte) : (s.initWrite a v).pendFill = s.pendFill := rfl
@[simp] theorem State.initWrite_pendTimer (s : State) (a : PortAddr) (v : Byte) : (s.initWrite a v).pendTimer = s.pendTimer := rfl
@[simp] theorem State.initWrite_inFill (s : State) (a : PortAddr) (v : Byte) : (s.initWrite a v).inFill = s.inFill := rfl
@[simp] theorem State.initWrite_tickOpen (s : State) (a : PortAddr) (v : Byte) : (s.initWrite a v).tickOpen = s.tickOpen := rfl
@[simp] theorem State.initWrite_fillOverrun (s : State) (a : PortAddr) (v : Byte) : (s.initWrite a v).fillOverrun = s.fillOverrun := rfl
@[simp] theorem State.initWrite_pcmState (s : State) (a : PortAddr) (v : Byte) : (s.initWrite a v).pcmState = s.pcmState := rfl
@[simp] theorem State.initWrite_faultCode (s : State) (a : PortAddr) (v : Byte) : (s.initWrite a v).faultCode = s.faultCode := rfl
@[simp] theorem State.initWrite_faultDiag (s : State) (a : PortAddr) (v : Byte) : (s.initWrite a v).faultDiag = s.faultDiag := rfl
@[simp] theorem State.initWrite_halted (s : State) (a : PortAddr) (v : Byte) : (s.initWrite a v).halted = s.halted := rfl
@[simp] theorem State.initWrite_timerInited (s : State) (a : PortAddr) (v : Byte) : (s.initWrite a v).timerInited = s.timerInited := rfl
@[simp] theorem State.initWrite_fmInited (s : State) (a : PortAddr) (v : Byte) : (s.initWrite a v).fmInited = s.fmInited := rfl
@[simp] theorem State.initWrite_pcmInited (s : State) (a : PortAddr) (v : Byte) : (s.initWrite a v).pcmInited = s.pcmInited := rfl
@[simp] theorem State.initWrite_timerFreq (s : State) (a : PortAddr) (v : Byte) : (s.initWrite a v).timerFreq = s.timerFreq := rfl
@[simp] theorem State.initWrite_timerDiv (s : State) (a : PortAddr) (v : Byte) : (s.initWrite a v).timerDiv = s.timerDiv := rfl
@[simp] theorem State.initWrite_tickCount (s : State) (a : PortAddr) (v : Byte) : (s.initWrite a v).tickCount = s.tickCount := rfl
@[simp] theorem State.initWrite_keycache (s : State) (a : PortAddr) (v : Byte) : (s.initWrite a v).keycache = s.keycache := rfl
@[simp] theorem State.initWrite_fmImage (s : State) (a : PortAddr) (v : Byte) : (s.initWrite a v).fmImage = s.fmImage := rfl
@[simp] theorem State.initWrite_mem (s : State) (a : PortAddr) (v : Byte) : (s.initWrite a v).mem = s.mem := rfl
@[simp] theorem State.initWrite_dmaRun (s : State) (a : PortAddr) (v : Byte) : (s.initWrite a v).dmaRun = s.dmaRun := rfl
@[simp] theorem State.initWrite_drainPos (s : State) (a : PortAddr) (v : Byte) : (s.initWrite a v).drainPos = s.drainPos := rfl
@[simp] theorem State.initWrite_timerRun (s : State) (a : PortAddr) (v : Byte) : (s.initWrite a v).timerRun = s.timerRun := rfl
@[simp] theorem State.initWrite_portTrace (s : State) (a : PortAddr) (v : Byte) : (s.initWrite a v).portTrace = s.portTrace ++ [.write a v] := rfl
@[simp] theorem State.initWrite_fmTrace (s : State) (a : PortAddr) (v : Byte) : (s.initWrite a v).fmTrace = s.fmTrace := rfl
@[simp] theorem State.initWrite_pcmOut (s : State) (a : PortAddr) (v : Byte) : (s.initWrite a v).pcmOut = s.pcmOut := rfl
@[simp] theorem State.initWrite_tickTrace (s : State) (a : PortAddr) (v : Byte) : (s.initWrite a v).tickTrace = s.tickTrace := rfl
@[simp] theorem State.initWrite_diagLine (s : State) (a : PortAddr) (v : Byte) : (s.initWrite a v).diagLine = s.diagLine := rfl
@[simp] theorem State.initWrite_rsp (s : State) (a : PortAddr) (v : Byte) : (s.initWrite a v).rsp = s.rsp := rfl
@[simp] theorem State.initWrite_samplesDone (s : State) (a : PortAddr) (v : Byte) : (s.initWrite a v).samplesDone = s.samplesDone := rfl
@[simp] theorem State.initWrite_hostOps (s : State) (a : PortAddr) (v : Byte) : (s.initWrite a v).hostOps = s.hostOps := rfl
@[simp] theorem State.initWrite_slice (s : State) (a : PortAddr) (v : Byte) : (s.initWrite a v).slice = s.slice := rfl
@[simp] theorem State.initWrite_turns (s : State) (a : PortAddr) (v : Byte) : (s.initWrite a v).turns = s.turns := rfl
@[simp] theorem State.initWrite_portDev (s : State) (a : PortAddr) (v : Byte) : (s.initWrite a v).portDev = s.portDev := rfl
@[simp] theorem State.initWrite_noise (s : State) (a : PortAddr) (v : Byte) : (s.initWrite a v).noise = s.noise := rfl
@[simp] theorem State.initWrite_storeOrder (s : State) (a : PortAddr) (v : Byte) : (s.initWrite a v).storeOrder = s.storeOrder := rfl
@[simp] theorem State.initWrite_hostWords (s : State) (a : PortAddr) (v : Byte) : (s.initWrite a v).hostWords = s.hostWords := rfl
@[simp] theorem State.initWrite_seqActs (s : State) (a : PortAddr) (v : Byte) : (s.initWrite a v).seqActs = s.seqActs := rfl

/-! ## `State.initRead` -/

@[simp] theorem State.initRead_cfg (s : State) (a : PortAddr) : (s.initRead a).cfg = s.cfg := rfl
@[simp] theorem State.initRead_voices (s : State) (a : PortAddr) : (s.initRead a).voices = s.voices := rfl
@[simp] theorem State.initRead_master (s : State) (a : PortAddr) : (s.initRead a).master = s.master := rfl
@[simp] theorem State.initRead_drainHalf (s : State) (a : PortAddr) : (s.initRead a).drainHalf = s.drainHalf := rfl
@[simp] theorem State.initRead_tickCnt (s : State) (a : PortAddr) : (s.initRead a).tickCnt = s.tickCnt := rfl
@[simp] theorem State.initRead_fillState (s : State) (a : PortAddr) : (s.initRead a).fillState = s.fillState := rfl
@[simp] theorem State.initRead_fillI (s : State) (a : PortAddr) : (s.initRead a).fillI = s.fillI := rfl
@[simp] theorem State.initRead_initStep (s : State) (a : PortAddr) : (s.initRead a).initStep = s.initStep + 1 := rfl
@[simp] theorem State.initRead_pollCnt (s : State) (a : PortAddr) : (s.initRead a).pollCnt = s.pollCnt := rfl
@[simp] theorem State.initRead_pendFill (s : State) (a : PortAddr) : (s.initRead a).pendFill = s.pendFill := rfl
@[simp] theorem State.initRead_pendTimer (s : State) (a : PortAddr) : (s.initRead a).pendTimer = s.pendTimer := rfl
@[simp] theorem State.initRead_inFill (s : State) (a : PortAddr) : (s.initRead a).inFill = s.inFill := rfl
@[simp] theorem State.initRead_tickOpen (s : State) (a : PortAddr) : (s.initRead a).tickOpen = s.tickOpen := rfl
@[simp] theorem State.initRead_fillOverrun (s : State) (a : PortAddr) : (s.initRead a).fillOverrun = s.fillOverrun := rfl
@[simp] theorem State.initRead_pcmState (s : State) (a : PortAddr) : (s.initRead a).pcmState = s.pcmState := rfl
@[simp] theorem State.initRead_faultCode (s : State) (a : PortAddr) : (s.initRead a).faultCode = s.faultCode := rfl
@[simp] theorem State.initRead_faultDiag (s : State) (a : PortAddr) : (s.initRead a).faultDiag = s.faultDiag := rfl
@[simp] theorem State.initRead_halted (s : State) (a : PortAddr) : (s.initRead a).halted = s.halted := rfl
@[simp] theorem State.initRead_timerInited (s : State) (a : PortAddr) : (s.initRead a).timerInited = s.timerInited := rfl
@[simp] theorem State.initRead_fmInited (s : State) (a : PortAddr) : (s.initRead a).fmInited = s.fmInited := rfl
@[simp] theorem State.initRead_pcmInited (s : State) (a : PortAddr) : (s.initRead a).pcmInited = s.pcmInited := rfl
@[simp] theorem State.initRead_timerFreq (s : State) (a : PortAddr) : (s.initRead a).timerFreq = s.timerFreq := rfl
@[simp] theorem State.initRead_timerDiv (s : State) (a : PortAddr) : (s.initRead a).timerDiv = s.timerDiv := rfl
@[simp] theorem State.initRead_tickCount (s : State) (a : PortAddr) : (s.initRead a).tickCount = s.tickCount := rfl
@[simp] theorem State.initRead_keycache (s : State) (a : PortAddr) : (s.initRead a).keycache = s.keycache := rfl
@[simp] theorem State.initRead_fmImage (s : State) (a : PortAddr) : (s.initRead a).fmImage = s.fmImage := rfl
@[simp] theorem State.initRead_mem (s : State) (a : PortAddr) : (s.initRead a).mem = s.mem := rfl
@[simp] theorem State.initRead_dmaRun (s : State) (a : PortAddr) : (s.initRead a).dmaRun = s.dmaRun := rfl
@[simp] theorem State.initRead_drainPos (s : State) (a : PortAddr) : (s.initRead a).drainPos = s.drainPos := rfl
@[simp] theorem State.initRead_timerRun (s : State) (a : PortAddr) : (s.initRead a).timerRun = s.timerRun := rfl
@[simp] theorem State.initRead_portTrace (s : State) (a : PortAddr) : (s.initRead a).portTrace = s.portTrace ++ [.read a s.portAnswer] := rfl
@[simp] theorem State.initRead_fmTrace (s : State) (a : PortAddr) : (s.initRead a).fmTrace = s.fmTrace := rfl
@[simp] theorem State.initRead_pcmOut (s : State) (a : PortAddr) : (s.initRead a).pcmOut = s.pcmOut := rfl
@[simp] theorem State.initRead_tickTrace (s : State) (a : PortAddr) : (s.initRead a).tickTrace = s.tickTrace := rfl
@[simp] theorem State.initRead_diagLine (s : State) (a : PortAddr) : (s.initRead a).diagLine = s.diagLine := rfl
@[simp] theorem State.initRead_rsp (s : State) (a : PortAddr) : (s.initRead a).rsp = s.rsp := rfl
@[simp] theorem State.initRead_samplesDone (s : State) (a : PortAddr) : (s.initRead a).samplesDone = s.samplesDone := rfl
@[simp] theorem State.initRead_hostOps (s : State) (a : PortAddr) : (s.initRead a).hostOps = s.hostOps := rfl
@[simp] theorem State.initRead_slice (s : State) (a : PortAddr) : (s.initRead a).slice = s.slice := rfl
@[simp] theorem State.initRead_turns (s : State) (a : PortAddr) : (s.initRead a).turns = s.turns := rfl
@[simp] theorem State.initRead_portDev (s : State) (a : PortAddr) : (s.initRead a).portDev = (s.portDev.next Config.freePortByte).2 := rfl
@[simp] theorem State.initRead_noise (s : State) (a : PortAddr) : (s.initRead a).noise = s.noise := rfl
@[simp] theorem State.initRead_storeOrder (s : State) (a : PortAddr) : (s.initRead a).storeOrder = s.storeOrder := rfl
@[simp] theorem State.initRead_hostWords (s : State) (a : PortAddr) : (s.initRead a).hostWords = s.hostWords := rfl
@[simp] theorem State.initRead_seqActs (s : State) (a : PortAddr) : (s.initRead a).seqActs = s.seqActs := rfl

/-! ## `State.raiseFatal` -/

@[simp] theorem State.raiseFatal_cfg (s : State) (code diag : Byte) : (s.raiseFatal code diag).cfg = s.cfg := rfl
@[simp] theorem State.raiseFatal_voices (s : State) (code diag : Byte) : (s.raiseFatal code diag).voices = s.voices := rfl
@[simp] theorem State.raiseFatal_master (s : State) (code diag : Byte) : (s.raiseFatal code diag).master = s.master := rfl
@[simp] theorem State.raiseFatal_drainHalf (s : State) (code diag : Byte) : (s.raiseFatal code diag).drainHalf = s.drainHalf := rfl
@[simp] theorem State.raiseFatal_tickCnt (s : State) (code diag : Byte) : (s.raiseFatal code diag).tickCnt = s.tickCnt := rfl
@[simp] theorem State.raiseFatal_fillState (s : State) (code diag : Byte) : (s.raiseFatal code diag).fillState = s.fillState := rfl
@[simp] theorem State.raiseFatal_fillI (s : State) (code diag : Byte) : (s.raiseFatal code diag).fillI = s.fillI := rfl
@[simp] theorem State.raiseFatal_initStep (s : State) (code diag : Byte) : (s.raiseFatal code diag).initStep = s.initStep := rfl
@[simp] theorem State.raiseFatal_pollCnt (s : State) (code diag : Byte) : (s.raiseFatal code diag).pollCnt = s.pollCnt := rfl
@[simp] theorem State.raiseFatal_pendFill (s : State) (code diag : Byte) : (s.raiseFatal code diag).pendFill = s.pendFill := rfl
@[simp] theorem State.raiseFatal_pendTimer (s : State) (code diag : Byte) : (s.raiseFatal code diag).pendTimer = s.pendTimer := rfl
@[simp] theorem State.raiseFatal_inFill (s : State) (code diag : Byte) : (s.raiseFatal code diag).inFill = s.inFill := rfl
@[simp] theorem State.raiseFatal_tickOpen (s : State) (code diag : Byte) : (s.raiseFatal code diag).tickOpen = s.tickOpen := rfl
@[simp] theorem State.raiseFatal_fillOverrun (s : State) (code diag : Byte) : (s.raiseFatal code diag).fillOverrun = s.fillOverrun := rfl
@[simp] theorem State.raiseFatal_pcmState (s : State) (code diag : Byte) : (s.raiseFatal code diag).pcmState = .failed := rfl
@[simp] theorem State.raiseFatal_faultCode (s : State) (code diag : Byte) : (s.raiseFatal code diag).faultCode = code := rfl
@[simp] theorem State.raiseFatal_faultDiag (s : State) (code diag : Byte) : (s.raiseFatal code diag).faultDiag = diag := rfl
@[simp] theorem State.raiseFatal_halted (s : State) (code diag : Byte) : (s.raiseFatal code diag).halted = true := rfl
@[simp] theorem State.raiseFatal_timerInited (s : State) (code diag : Byte) : (s.raiseFatal code diag).timerInited = s.timerInited := rfl
@[simp] theorem State.raiseFatal_fmInited (s : State) (code diag : Byte) : (s.raiseFatal code diag).fmInited = s.fmInited := rfl
@[simp] theorem State.raiseFatal_pcmInited (s : State) (code diag : Byte) : (s.raiseFatal code diag).pcmInited = s.pcmInited := rfl
@[simp] theorem State.raiseFatal_timerFreq (s : State) (code diag : Byte) : (s.raiseFatal code diag).timerFreq = s.timerFreq := rfl
@[simp] theorem State.raiseFatal_timerDiv (s : State) (code diag : Byte) : (s.raiseFatal code diag).timerDiv = s.timerDiv := rfl
@[simp] theorem State.raiseFatal_tickCount (s : State) (code diag : Byte) : (s.raiseFatal code diag).tickCount = s.tickCount := rfl
@[simp] theorem State.raiseFatal_keycache (s : State) (code diag : Byte) : (s.raiseFatal code diag).keycache = s.keycache := rfl
@[simp] theorem State.raiseFatal_fmImage (s : State) (code diag : Byte) : (s.raiseFatal code diag).fmImage = s.fmImage := rfl
@[simp] theorem State.raiseFatal_mem (s : State) (code diag : Byte) : (s.raiseFatal code diag).mem = s.mem := rfl
@[simp] theorem State.raiseFatal_dmaRun (s : State) (code diag : Byte) : (s.raiseFatal code diag).dmaRun = s.dmaRun := rfl
@[simp] theorem State.raiseFatal_drainPos (s : State) (code diag : Byte) : (s.raiseFatal code diag).drainPos = s.drainPos := rfl
@[simp] theorem State.raiseFatal_timerRun (s : State) (code diag : Byte) : (s.raiseFatal code diag).timerRun = s.timerRun := rfl
@[simp] theorem State.raiseFatal_portTrace (s : State) (code diag : Byte) : (s.raiseFatal code diag).portTrace = s.portTrace := rfl
@[simp] theorem State.raiseFatal_fmTrace (s : State) (code diag : Byte) : (s.raiseFatal code diag).fmTrace = s.fmTrace := rfl
@[simp] theorem State.raiseFatal_pcmOut (s : State) (code diag : Byte) : (s.raiseFatal code diag).pcmOut = s.pcmOut := rfl
@[simp] theorem State.raiseFatal_tickTrace (s : State) (code diag : Byte) : (s.raiseFatal code diag).tickTrace = s.tickTrace := rfl
@[simp] theorem State.raiseFatal_diagLine (s : State) (code diag : Byte) : (s.raiseFatal code diag).diagLine = some (fatalLine s.cfg code diag) := rfl
@[simp] theorem State.raiseFatal_rsp (s : State) (code diag : Byte) : (s.raiseFatal code diag).rsp = s.rsp := rfl
@[simp] theorem State.raiseFatal_samplesDone (s : State) (code diag : Byte) : (s.raiseFatal code diag).samplesDone = s.samplesDone := rfl
@[simp] theorem State.raiseFatal_hostOps (s : State) (code diag : Byte) : (s.raiseFatal code diag).hostOps = s.hostOps := rfl
@[simp] theorem State.raiseFatal_slice (s : State) (code diag : Byte) : (s.raiseFatal code diag).slice = s.slice := rfl
@[simp] theorem State.raiseFatal_turns (s : State) (code diag : Byte) : (s.raiseFatal code diag).turns = s.turns := rfl
@[simp] theorem State.raiseFatal_portDev (s : State) (code diag : Byte) : (s.raiseFatal code diag).portDev = s.portDev := rfl
@[simp] theorem State.raiseFatal_noise (s : State) (code diag : Byte) : (s.raiseFatal code diag).noise = s.noise := rfl
@[simp] theorem State.raiseFatal_storeOrder (s : State) (code diag : Byte) : (s.raiseFatal code diag).storeOrder = s.storeOrder := rfl
@[simp] theorem State.raiseFatal_hostWords (s : State) (code diag : Byte) : (s.raiseFatal code diag).hostWords = s.hostWords := rfl
@[simp] theorem State.raiseFatal_seqActs (s : State) (code diag : Byte) : (s.raiseFatal code diag).seqActs = s.seqActs := rfl

/-! ## `State.raiseCmdFault` -/

@[simp] theorem State.raiseCmdFault_cfg (s : State) (code opcode : Byte) : (s.raiseCmdFault code opcode).cfg = s.cfg := rfl
@[simp] theorem State.raiseCmdFault_voices (s : State) (code opcode : Byte) : (s.raiseCmdFault code opcode).voices = s.voices := rfl
@[simp] theorem State.raiseCmdFault_master (s : State) (code opcode : Byte) : (s.raiseCmdFault code opcode).master = s.master := rfl
@[simp] theorem State.raiseCmdFault_drainHalf (s : State) (code opcode : Byte) : (s.raiseCmdFault code opcode).drainHalf = s.drainHalf := rfl
@[simp] theorem State.raiseCmdFault_tickCnt (s : State) (code opcode : Byte) : (s.raiseCmdFault code opcode).tickCnt = s.tickCnt := rfl
@[simp] theorem State.raiseCmdFault_fillState (s : State) (code opcode : Byte) : (s.raiseCmdFault code opcode).fillState = s.fillState := rfl
@[simp] theorem State.raiseCmdFault_fillI (s : State) (code opcode : Byte) : (s.raiseCmdFault code opcode).fillI = s.fillI := rfl
@[simp] theorem State.raiseCmdFault_initStep (s : State) (code opcode : Byte) : (s.raiseCmdFault code opcode).initStep = s.initStep := rfl
@[simp] theorem State.raiseCmdFault_pollCnt (s : State) (code opcode : Byte) : (s.raiseCmdFault code opcode).pollCnt = s.pollCnt := rfl
@[simp] theorem State.raiseCmdFault_pendFill (s : State) (code opcode : Byte) : (s.raiseCmdFault code opcode).pendFill = s.pendFill := rfl
@[simp] theorem State.raiseCmdFault_pendTimer (s : State) (code opcode : Byte) : (s.raiseCmdFault code opcode).pendTimer = s.pendTimer := rfl
@[simp] theorem State.raiseCmdFault_inFill (s : State) (code opcode : Byte) : (s.raiseCmdFault code opcode).inFill = s.inFill := rfl
@[simp] theorem State.raiseCmdFault_tickOpen (s : State) (code opcode : Byte) : (s.raiseCmdFault code opcode).tickOpen = s.tickOpen := rfl
@[simp] theorem State.raiseCmdFault_fillOverrun (s : State) (code opcode : Byte) : (s.raiseCmdFault code opcode).fillOverrun = s.fillOverrun := rfl
@[simp] theorem State.raiseCmdFault_pcmState (s : State) (code opcode : Byte) : (s.raiseCmdFault code opcode).pcmState = s.pcmState := rfl
@[simp] theorem State.raiseCmdFault_faultCode (s : State) (code opcode : Byte) : (s.raiseCmdFault code opcode).faultCode = code := rfl
@[simp] theorem State.raiseCmdFault_faultDiag (s : State) (code opcode : Byte) : (s.raiseCmdFault code opcode).faultDiag = opcode := rfl
@[simp] theorem State.raiseCmdFault_halted (s : State) (code opcode : Byte) : (s.raiseCmdFault code opcode).halted = true := rfl
@[simp] theorem State.raiseCmdFault_timerInited (s : State) (code opcode : Byte) : (s.raiseCmdFault code opcode).timerInited = s.timerInited := rfl
@[simp] theorem State.raiseCmdFault_fmInited (s : State) (code opcode : Byte) : (s.raiseCmdFault code opcode).fmInited = s.fmInited := rfl
@[simp] theorem State.raiseCmdFault_pcmInited (s : State) (code opcode : Byte) : (s.raiseCmdFault code opcode).pcmInited = s.pcmInited := rfl
@[simp] theorem State.raiseCmdFault_timerFreq (s : State) (code opcode : Byte) : (s.raiseCmdFault code opcode).timerFreq = s.timerFreq := rfl
@[simp] theorem State.raiseCmdFault_timerDiv (s : State) (code opcode : Byte) : (s.raiseCmdFault code opcode).timerDiv = s.timerDiv := rfl
@[simp] theorem State.raiseCmdFault_tickCount (s : State) (code opcode : Byte) : (s.raiseCmdFault code opcode).tickCount = s.tickCount := rfl
@[simp] theorem State.raiseCmdFault_keycache (s : State) (code opcode : Byte) : (s.raiseCmdFault code opcode).keycache = s.keycache := rfl
@[simp] theorem State.raiseCmdFault_fmImage (s : State) (code opcode : Byte) : (s.raiseCmdFault code opcode).fmImage = s.fmImage := rfl
@[simp] theorem State.raiseCmdFault_mem (s : State) (code opcode : Byte) : (s.raiseCmdFault code opcode).mem = s.mem := rfl
@[simp] theorem State.raiseCmdFault_dmaRun (s : State) (code opcode : Byte) : (s.raiseCmdFault code opcode).dmaRun = s.dmaRun := rfl
@[simp] theorem State.raiseCmdFault_drainPos (s : State) (code opcode : Byte) : (s.raiseCmdFault code opcode).drainPos = s.drainPos := rfl
@[simp] theorem State.raiseCmdFault_timerRun (s : State) (code opcode : Byte) : (s.raiseCmdFault code opcode).timerRun = s.timerRun := rfl
@[simp] theorem State.raiseCmdFault_portTrace (s : State) (code opcode : Byte) : (s.raiseCmdFault code opcode).portTrace = s.portTrace := rfl
@[simp] theorem State.raiseCmdFault_fmTrace (s : State) (code opcode : Byte) : (s.raiseCmdFault code opcode).fmTrace = s.fmTrace := rfl
@[simp] theorem State.raiseCmdFault_pcmOut (s : State) (code opcode : Byte) : (s.raiseCmdFault code opcode).pcmOut = s.pcmOut := rfl
@[simp] theorem State.raiseCmdFault_tickTrace (s : State) (code opcode : Byte) : (s.raiseCmdFault code opcode).tickTrace = s.tickTrace := rfl
@[simp] theorem State.raiseCmdFault_diagLine (s : State) (code opcode : Byte) : (s.raiseCmdFault code opcode).diagLine = s.diagLine := rfl
@[simp] theorem State.raiseCmdFault_rsp (s : State) (code opcode : Byte) : (s.raiseCmdFault code opcode).rsp = s.rsp := rfl
@[simp] theorem State.raiseCmdFault_samplesDone (s : State) (code opcode : Byte) : (s.raiseCmdFault code opcode).samplesDone = s.samplesDone := rfl
@[simp] theorem State.raiseCmdFault_hostOps (s : State) (code opcode : Byte) : (s.raiseCmdFault code opcode).hostOps = s.hostOps := rfl
@[simp] theorem State.raiseCmdFault_slice (s : State) (code opcode : Byte) : (s.raiseCmdFault code opcode).slice = s.slice := rfl
@[simp] theorem State.raiseCmdFault_turns (s : State) (code opcode : Byte) : (s.raiseCmdFault code opcode).turns = s.turns := rfl
@[simp] theorem State.raiseCmdFault_portDev (s : State) (code opcode : Byte) : (s.raiseCmdFault code opcode).portDev = s.portDev := rfl
@[simp] theorem State.raiseCmdFault_noise (s : State) (code opcode : Byte) : (s.raiseCmdFault code opcode).noise = s.noise := rfl
@[simp] theorem State.raiseCmdFault_storeOrder (s : State) (code opcode : Byte) : (s.raiseCmdFault code opcode).storeOrder = s.storeOrder := rfl
@[simp] theorem State.raiseCmdFault_hostWords (s : State) (code opcode : Byte) : (s.raiseCmdFault code opcode).hostWords = s.hostWords := rfl
@[simp] theorem State.raiseCmdFault_seqActs (s : State) (code opcode : Byte) : (s.raiseCmdFault code opcode).seqActs = s.seqActs := rfl

/-! ## `State.enterFill` -/

@[simp] theorem State.enterFill_cfg (s : State) : s.enterFill.cfg = s.cfg := rfl
@[simp] theorem State.enterFill_voices (s : State) : s.enterFill.voices = s.voices := rfl
@[simp] theorem State.enterFill_master (s : State) : s.enterFill.master = s.master := rfl
@[simp] theorem State.enterFill_drainHalf (s : State) : s.enterFill.drainHalf = s.drainHalf.other := rfl
@[simp] theorem State.enterFill_tickCnt (s : State) : s.enterFill.tickCnt = s.tickCnt := rfl
@[simp] theorem State.enterFill_fillState (s : State) : s.enterFill.fillState = .count := rfl
@[simp] theorem State.enterFill_fillI (s : State) : s.enterFill.fillI = 0 := rfl
@[simp] theorem State.enterFill_initStep (s : State) : s.enterFill.initStep = s.initStep := rfl
@[simp] theorem State.enterFill_pollCnt (s : State) : s.enterFill.pollCnt = s.pollCnt := rfl
@[simp] theorem State.enterFill_pendFill (s : State) : s.enterFill.pendFill = false := rfl
@[simp] theorem State.enterFill_pendTimer (s : State) : s.enterFill.pendTimer = s.pendTimer := rfl
@[simp] theorem State.enterFill_inFill (s : State) : s.enterFill.inFill = true := rfl
@[simp] theorem State.enterFill_tickOpen (s : State) : s.enterFill.tickOpen = s.tickOpen := rfl
@[simp] theorem State.enterFill_fillOverrun (s : State) : s.enterFill.fillOverrun = s.fillOverrun := rfl
@[simp] theorem State.enterFill_pcmState (s : State) : s.enterFill.pcmState = s.pcmState := rfl
@[simp] theorem State.enterFill_faultCode (s : State) : s.enterFill.faultCode = s.faultCode := rfl
@[simp] theorem State.enterFill_faultDiag (s : State) : s.enterFill.faultDiag = s.faultDiag := rfl
@[simp] theorem State.enterFill_halted (s : State) : s.enterFill.halted = s.halted := rfl
@[simp] theorem State.enterFill_timerInited (s : State) : s.enterFill.timerInited = s.timerInited := rfl
@[simp] theorem State.enterFill_fmInited (s : State) : s.enterFill.fmInited = s.fmInited := rfl
@[simp] theorem State.enterFill_pcmInited (s : State) : s.enterFill.pcmInited = s.pcmInited := rfl
@[simp] theorem State.enterFill_timerFreq (s : State) : s.enterFill.timerFreq = s.timerFreq := rfl
@[simp] theorem State.enterFill_timerDiv (s : State) : s.enterFill.timerDiv = s.timerDiv := rfl
@[simp] theorem State.enterFill_tickCount (s : State) : s.enterFill.tickCount = s.tickCount := rfl
@[simp] theorem State.enterFill_keycache (s : State) : s.enterFill.keycache = s.keycache := rfl
@[simp] theorem State.enterFill_fmImage (s : State) : s.enterFill.fmImage = s.fmImage := rfl
@[simp] theorem State.enterFill_mem (s : State) : s.enterFill.mem = s.mem := rfl
@[simp] theorem State.enterFill_dmaRun (s : State) : s.enterFill.dmaRun = s.dmaRun := rfl
@[simp] theorem State.enterFill_drainPos (s : State) : s.enterFill.drainPos = s.drainPos := rfl
@[simp] theorem State.enterFill_timerRun (s : State) : s.enterFill.timerRun = s.timerRun := rfl
@[simp] theorem State.enterFill_portTrace (s : State) : s.enterFill.portTrace = s.portTrace := rfl
@[simp] theorem State.enterFill_fmTrace (s : State) : s.enterFill.fmTrace = s.fmTrace := rfl
@[simp] theorem State.enterFill_pcmOut (s : State) : s.enterFill.pcmOut = s.pcmOut := rfl
@[simp] theorem State.enterFill_tickTrace (s : State) : s.enterFill.tickTrace = s.tickTrace := rfl
@[simp] theorem State.enterFill_diagLine (s : State) : s.enterFill.diagLine = s.diagLine := rfl
@[simp] theorem State.enterFill_rsp (s : State) : s.enterFill.rsp = s.rsp := rfl
@[simp] theorem State.enterFill_samplesDone (s : State) : s.enterFill.samplesDone = s.samplesDone := rfl
@[simp] theorem State.enterFill_hostOps (s : State) : s.enterFill.hostOps = s.hostOps := rfl
@[simp] theorem State.enterFill_slice (s : State) : s.enterFill.slice = s.slice := rfl
@[simp] theorem State.enterFill_turns (s : State) : s.enterFill.turns = s.turns := rfl
@[simp] theorem State.enterFill_portDev (s : State) : s.enterFill.portDev = s.portDev := rfl
@[simp] theorem State.enterFill_noise (s : State) : s.enterFill.noise = s.noise := rfl
@[simp] theorem State.enterFill_storeOrder (s : State) : s.enterFill.storeOrder = s.storeOrder := rfl
@[simp] theorem State.enterFill_hostWords (s : State) : s.enterFill.hostWords = s.hostWords := rfl
@[simp] theorem State.enterFill_seqActs (s : State) : s.enterFill.seqActs = s.seqActs := rfl

/-! ## `State.leaveFill` -/

@[simp] theorem State.leaveFill_cfg (s : State) : s.leaveFill.cfg = s.cfg := rfl
@[simp] theorem State.leaveFill_voices (s : State) : s.leaveFill.voices = s.voices := rfl
@[simp] theorem State.leaveFill_master (s : State) : s.leaveFill.master = s.master := rfl
@[simp] theorem State.leaveFill_drainHalf (s : State) : s.leaveFill.drainHalf = s.drainHalf := rfl
@[simp] theorem State.leaveFill_tickCnt (s : State) : s.leaveFill.tickCnt = s.tickCnt := rfl
@[simp] theorem State.leaveFill_fillState (s : State) : s.leaveFill.fillState = .idle := rfl
@[simp] theorem State.leaveFill_fillI (s : State) : s.leaveFill.fillI = s.fillI := rfl
@[simp] theorem State.leaveFill_initStep (s : State) : s.leaveFill.initStep = s.initStep := rfl
@[simp] theorem State.leaveFill_pollCnt (s : State) : s.leaveFill.pollCnt = s.pollCnt := rfl
@[simp] theorem State.leaveFill_pendFill (s : State) : s.leaveFill.pendFill = s.pendFill := rfl
@[simp] theorem State.leaveFill_pendTimer (s : State) : s.leaveFill.pendTimer = s.pendTimer := rfl
@[simp] theorem State.leaveFill_inFill (s : State) : s.leaveFill.inFill = false := rfl
@[simp] theorem State.leaveFill_tickOpen (s : State) : s.leaveFill.tickOpen = s.tickOpen := rfl
@[simp] theorem State.leaveFill_fillOverrun (s : State) : s.leaveFill.fillOverrun = s.fillOverrun := rfl
@[simp] theorem State.leaveFill_pcmState (s : State) : s.leaveFill.pcmState = s.pcmState := rfl
@[simp] theorem State.leaveFill_faultCode (s : State) : s.leaveFill.faultCode = s.faultCode := rfl
@[simp] theorem State.leaveFill_faultDiag (s : State) : s.leaveFill.faultDiag = s.faultDiag := rfl
@[simp] theorem State.leaveFill_halted (s : State) : s.leaveFill.halted = s.halted := rfl
@[simp] theorem State.leaveFill_timerInited (s : State) : s.leaveFill.timerInited = s.timerInited := rfl
@[simp] theorem State.leaveFill_fmInited (s : State) : s.leaveFill.fmInited = s.fmInited := rfl
@[simp] theorem State.leaveFill_pcmInited (s : State) : s.leaveFill.pcmInited = s.pcmInited := rfl
@[simp] theorem State.leaveFill_timerFreq (s : State) : s.leaveFill.timerFreq = s.timerFreq := rfl
@[simp] theorem State.leaveFill_timerDiv (s : State) : s.leaveFill.timerDiv = s.timerDiv := rfl
@[simp] theorem State.leaveFill_tickCount (s : State) : s.leaveFill.tickCount = s.tickCount := rfl
@[simp] theorem State.leaveFill_keycache (s : State) : s.leaveFill.keycache = s.keycache := rfl
@[simp] theorem State.leaveFill_fmImage (s : State) : s.leaveFill.fmImage = s.fmImage := rfl
@[simp] theorem State.leaveFill_mem (s : State) : s.leaveFill.mem = s.mem := rfl
@[simp] theorem State.leaveFill_dmaRun (s : State) : s.leaveFill.dmaRun = s.dmaRun := rfl
@[simp] theorem State.leaveFill_drainPos (s : State) : s.leaveFill.drainPos = s.drainPos := rfl
@[simp] theorem State.leaveFill_timerRun (s : State) : s.leaveFill.timerRun = s.timerRun := rfl
@[simp] theorem State.leaveFill_portTrace (s : State) : s.leaveFill.portTrace = s.portTrace := rfl
@[simp] theorem State.leaveFill_fmTrace (s : State) : s.leaveFill.fmTrace = s.fmTrace := rfl
@[simp] theorem State.leaveFill_pcmOut (s : State) : s.leaveFill.pcmOut = s.pcmOut := rfl
@[simp] theorem State.leaveFill_tickTrace (s : State) : s.leaveFill.tickTrace = s.tickTrace := rfl
@[simp] theorem State.leaveFill_diagLine (s : State) : s.leaveFill.diagLine = s.diagLine := rfl
@[simp] theorem State.leaveFill_rsp (s : State) : s.leaveFill.rsp = s.rsp := rfl
@[simp] theorem State.leaveFill_samplesDone (s : State) : s.leaveFill.samplesDone = s.samplesDone := rfl
@[simp] theorem State.leaveFill_hostOps (s : State) : s.leaveFill.hostOps = s.hostOps := rfl
@[simp] theorem State.leaveFill_slice (s : State) : s.leaveFill.slice = s.slice := rfl
@[simp] theorem State.leaveFill_turns (s : State) : s.leaveFill.turns = s.turns := rfl
@[simp] theorem State.leaveFill_portDev (s : State) : s.leaveFill.portDev = s.portDev := rfl
@[simp] theorem State.leaveFill_noise (s : State) : s.leaveFill.noise = s.noise := rfl
@[simp] theorem State.leaveFill_storeOrder (s : State) : s.leaveFill.storeOrder = s.storeOrder := rfl
@[simp] theorem State.leaveFill_hostWords (s : State) : s.leaveFill.hostWords = s.hostWords := rfl
@[simp] theorem State.leaveFill_seqActs (s : State) : s.leaveFill.seqActs = s.seqActs := rfl

/-! ## `State.openTick` -/

@[simp] theorem State.openTick_cfg (s : State) : s.openTick.cfg = s.cfg := rfl
@[simp] theorem State.openTick_voices (s : State) : s.openTick.voices = s.voices := rfl
@[simp] theorem State.openTick_master (s : State) : s.openTick.master = s.master := rfl
@[simp] theorem State.openTick_drainHalf (s : State) : s.openTick.drainHalf = s.drainHalf := rfl
@[simp] theorem State.openTick_tickCnt (s : State) : s.openTick.tickCnt = s.tickCnt := rfl
@[simp] theorem State.openTick_fillState (s : State) : s.openTick.fillState = .waitTick := rfl
@[simp] theorem State.openTick_fillI (s : State) : s.openTick.fillI = s.fillI := rfl
@[simp] theorem State.openTick_initStep (s : State) : s.openTick.initStep = s.initStep := rfl
@[simp] theorem State.openTick_pollCnt (s : State) : s.openTick.pollCnt = s.pollCnt := rfl
@[simp] theorem State.openTick_pendFill (s : State) : s.openTick.pendFill = s.pendFill := rfl
@[simp] theorem State.openTick_pendTimer (s : State) : s.openTick.pendTimer = s.pendTimer := rfl
@[simp] theorem State.openTick_inFill (s : State) : s.openTick.inFill = s.inFill := rfl
@[simp] theorem State.openTick_tickOpen (s : State) : s.openTick.tickOpen = true := rfl
@[simp] theorem State.openTick_fillOverrun (s : State) : s.openTick.fillOverrun = s.fillOverrun := rfl
@[simp] theorem State.openTick_pcmState (s : State) : s.openTick.pcmState = s.pcmState := rfl
@[simp] theorem State.openTick_faultCode (s : State) : s.openTick.faultCode = s.faultCode := rfl
@[simp] theorem State.openTick_faultDiag (s : State) : s.openTick.faultDiag = s.faultDiag := rfl
@[simp] theorem State.openTick_halted (s : State) : s.openTick.halted = s.halted := rfl
@[simp] theorem State.openTick_timerInited (s : State) : s.openTick.timerInited = s.timerInited := rfl
@[simp] theorem State.openTick_fmInited (s : State) : s.openTick.fmInited = s.fmInited := rfl
@[simp] theorem State.openTick_pcmInited (s : State) : s.openTick.pcmInited = s.pcmInited := rfl
@[simp] theorem State.openTick_timerFreq (s : State) : s.openTick.timerFreq = s.timerFreq := rfl
@[simp] theorem State.openTick_timerDiv (s : State) : s.openTick.timerDiv = s.timerDiv := rfl
@[simp] theorem State.openTick_tickCount (s : State) : s.openTick.tickCount = s.tickCount := rfl
@[simp] theorem State.openTick_keycache (s : State) : s.openTick.keycache = s.keycache := rfl
@[simp] theorem State.openTick_fmImage (s : State) : s.openTick.fmImage = s.fmImage := rfl
@[simp] theorem State.openTick_mem (s : State) : s.openTick.mem = s.mem := rfl
@[simp] theorem State.openTick_dmaRun (s : State) : s.openTick.dmaRun = s.dmaRun := rfl
@[simp] theorem State.openTick_drainPos (s : State) : s.openTick.drainPos = s.drainPos := rfl
@[simp] theorem State.openTick_timerRun (s : State) : s.openTick.timerRun = s.timerRun := rfl
@[simp] theorem State.openTick_portTrace (s : State) : s.openTick.portTrace = s.portTrace := rfl
@[simp] theorem State.openTick_fmTrace (s : State) : s.openTick.fmTrace = s.fmTrace := rfl
@[simp] theorem State.openTick_pcmOut (s : State) : s.openTick.pcmOut = s.pcmOut := rfl
@[simp] theorem State.openTick_tickTrace (s : State) : s.openTick.tickTrace = s.tickTrace ++ [s.samplesDone] := rfl
@[simp] theorem State.openTick_diagLine (s : State) : s.openTick.diagLine = s.diagLine := rfl
@[simp] theorem State.openTick_rsp (s : State) : s.openTick.rsp = s.rsp := rfl
@[simp] theorem State.openTick_samplesDone (s : State) : s.openTick.samplesDone = s.samplesDone := rfl
@[simp] theorem State.openTick_hostOps (s : State) : s.openTick.hostOps = s.hostOps := rfl
@[simp] theorem State.openTick_slice (s : State) : s.openTick.slice = s.slice := rfl
@[simp] theorem State.openTick_turns (s : State) : s.openTick.turns = s.turns := rfl
@[simp] theorem State.openTick_portDev (s : State) : s.openTick.portDev = s.portDev := rfl
@[simp] theorem State.openTick_noise (s : State) : s.openTick.noise = s.noise := rfl
@[simp] theorem State.openTick_storeOrder (s : State) : s.openTick.storeOrder = s.storeOrder := rfl
@[simp] theorem State.openTick_hostWords (s : State) : s.openTick.hostWords = s.hostWords := rfl
@[simp] theorem State.openTick_seqActs (s : State) : s.openTick.seqActs = s.seqActs := rfl

/-! ## `State.requestFill` -/

@[simp] theorem State.requestFill_cfg (s : State) : s.requestFill.cfg = s.cfg := rfl
@[simp] theorem State.requestFill_voices (s : State) : s.requestFill.voices = s.voices := rfl
@[simp] theorem State.requestFill_master (s : State) : s.requestFill.master = s.master := rfl
@[simp] theorem State.requestFill_drainHalf (s : State) : s.requestFill.drainHalf = s.drainHalf := rfl
@[simp] theorem State.requestFill_tickCnt (s : State) : s.requestFill.tickCnt = s.tickCnt := rfl
@[simp] theorem State.requestFill_fillState (s : State) : s.requestFill.fillState = s.fillState := rfl
@[simp] theorem State.requestFill_fillI (s : State) : s.requestFill.fillI = s.fillI := rfl
@[simp] theorem State.requestFill_initStep (s : State) : s.requestFill.initStep = s.initStep := rfl
@[simp] theorem State.requestFill_pollCnt (s : State) : s.requestFill.pollCnt = s.pollCnt := rfl
@[simp] theorem State.requestFill_pendFill (s : State) : s.requestFill.pendFill = true := rfl
@[simp] theorem State.requestFill_pendTimer (s : State) : s.requestFill.pendTimer = s.pendTimer := rfl
@[simp] theorem State.requestFill_inFill (s : State) : s.requestFill.inFill = s.inFill := rfl
@[simp] theorem State.requestFill_tickOpen (s : State) : s.requestFill.tickOpen = s.tickOpen := rfl
@[simp] theorem State.requestFill_fillOverrun (s : State) : s.requestFill.fillOverrun = (s.fillOverrun || s.pendFill) := rfl
@[simp] theorem State.requestFill_pcmState (s : State) : s.requestFill.pcmState = s.pcmState := rfl
@[simp] theorem State.requestFill_faultCode (s : State) : s.requestFill.faultCode = s.faultCode := rfl
@[simp] theorem State.requestFill_faultDiag (s : State) : s.requestFill.faultDiag = s.faultDiag := rfl
@[simp] theorem State.requestFill_halted (s : State) : s.requestFill.halted = s.halted := rfl
@[simp] theorem State.requestFill_timerInited (s : State) : s.requestFill.timerInited = s.timerInited := rfl
@[simp] theorem State.requestFill_fmInited (s : State) : s.requestFill.fmInited = s.fmInited := rfl
@[simp] theorem State.requestFill_pcmInited (s : State) : s.requestFill.pcmInited = s.pcmInited := rfl
@[simp] theorem State.requestFill_timerFreq (s : State) : s.requestFill.timerFreq = s.timerFreq := rfl
@[simp] theorem State.requestFill_timerDiv (s : State) : s.requestFill.timerDiv = s.timerDiv := rfl
@[simp] theorem State.requestFill_tickCount (s : State) : s.requestFill.tickCount = s.tickCount := rfl
@[simp] theorem State.requestFill_keycache (s : State) : s.requestFill.keycache = s.keycache := rfl
@[simp] theorem State.requestFill_fmImage (s : State) : s.requestFill.fmImage = s.fmImage := rfl
@[simp] theorem State.requestFill_mem (s : State) : s.requestFill.mem = s.mem := rfl
@[simp] theorem State.requestFill_dmaRun (s : State) : s.requestFill.dmaRun = s.dmaRun := rfl
@[simp] theorem State.requestFill_drainPos (s : State) : s.requestFill.drainPos = s.drainPos := rfl
@[simp] theorem State.requestFill_timerRun (s : State) : s.requestFill.timerRun = s.timerRun := rfl
@[simp] theorem State.requestFill_portTrace (s : State) : s.requestFill.portTrace = s.portTrace := rfl
@[simp] theorem State.requestFill_fmTrace (s : State) : s.requestFill.fmTrace = s.fmTrace := rfl
@[simp] theorem State.requestFill_pcmOut (s : State) : s.requestFill.pcmOut = s.pcmOut := rfl
@[simp] theorem State.requestFill_tickTrace (s : State) : s.requestFill.tickTrace = s.tickTrace := rfl
@[simp] theorem State.requestFill_diagLine (s : State) : s.requestFill.diagLine = s.diagLine := rfl
@[simp] theorem State.requestFill_rsp (s : State) : s.requestFill.rsp = s.rsp := rfl
@[simp] theorem State.requestFill_samplesDone (s : State) : s.requestFill.samplesDone = s.samplesDone := rfl
@[simp] theorem State.requestFill_hostOps (s : State) : s.requestFill.hostOps = s.hostOps := rfl
@[simp] theorem State.requestFill_slice (s : State) : s.requestFill.slice = s.slice := rfl
@[simp] theorem State.requestFill_turns (s : State) : s.requestFill.turns = s.turns := rfl
@[simp] theorem State.requestFill_portDev (s : State) : s.requestFill.portDev = s.portDev := rfl
@[simp] theorem State.requestFill_noise (s : State) : s.requestFill.noise = s.noise := rfl
@[simp] theorem State.requestFill_storeOrder (s : State) : s.requestFill.storeOrder = s.storeOrder := rfl
@[simp] theorem State.requestFill_hostWords (s : State) : s.requestFill.hostWords = s.hostWords := rfl
@[simp] theorem State.requestFill_seqActs (s : State) : s.requestFill.seqActs = s.seqActs := rfl

/-! ## `State.drain` -/

@[simp] theorem State.drain_cfg (s : State) : s.drain.cfg = s.cfg := rfl
@[simp] theorem State.drain_voices (s : State) : s.drain.voices = s.voices := rfl
@[simp] theorem State.drain_master (s : State) : s.drain.master = s.master := rfl
@[simp] theorem State.drain_drainHalf (s : State) : s.drain.drainHalf = s.drainHalf := rfl
@[simp] theorem State.drain_tickCnt (s : State) : s.drain.tickCnt = s.tickCnt := rfl
@[simp] theorem State.drain_fillState (s : State) : s.drain.fillState = s.fillState := rfl
@[simp] theorem State.drain_fillI (s : State) : s.drain.fillI = s.fillI := rfl
@[simp] theorem State.drain_initStep (s : State) : s.drain.initStep = s.initStep := rfl
@[simp] theorem State.drain_pollCnt (s : State) : s.drain.pollCnt = s.pollCnt := rfl
@[simp] theorem State.drain_pendFill (s : State) : s.drain.pendFill = s.pendFill := rfl
@[simp] theorem State.drain_pendTimer (s : State) : s.drain.pendTimer = s.pendTimer := rfl
@[simp] theorem State.drain_inFill (s : State) : s.drain.inFill = s.inFill := rfl
@[simp] theorem State.drain_tickOpen (s : State) : s.drain.tickOpen = s.tickOpen := rfl
@[simp] theorem State.drain_fillOverrun (s : State) : s.drain.fillOverrun = s.fillOverrun := rfl
@[simp] theorem State.drain_pcmState (s : State) : s.drain.pcmState = s.pcmState := rfl
@[simp] theorem State.drain_faultCode (s : State) : s.drain.faultCode = s.faultCode := rfl
@[simp] theorem State.drain_faultDiag (s : State) : s.drain.faultDiag = s.faultDiag := rfl
@[simp] theorem State.drain_halted (s : State) : s.drain.halted = s.halted := rfl
@[simp] theorem State.drain_timerInited (s : State) : s.drain.timerInited = s.timerInited := rfl
@[simp] theorem State.drain_fmInited (s : State) : s.drain.fmInited = s.fmInited := rfl
@[simp] theorem State.drain_pcmInited (s : State) : s.drain.pcmInited = s.pcmInited := rfl
@[simp] theorem State.drain_timerFreq (s : State) : s.drain.timerFreq = s.timerFreq := rfl
@[simp] theorem State.drain_timerDiv (s : State) : s.drain.timerDiv = s.timerDiv := rfl
@[simp] theorem State.drain_tickCount (s : State) : s.drain.tickCount = s.tickCount := rfl
@[simp] theorem State.drain_keycache (s : State) : s.drain.keycache = s.keycache := rfl
@[simp] theorem State.drain_fmImage (s : State) : s.drain.fmImage = s.fmImage := rfl
@[simp] theorem State.drain_mem (s : State) : s.drain.mem = s.mem := rfl
@[simp] theorem State.drain_dmaRun (s : State) : s.drain.dmaRun = s.dmaRun := rfl
@[simp] theorem State.drain_drainPos (s : State) : s.drain.drainPos = (s.drainPos + 1) % s.cfg.bufferSamples := rfl
@[simp] theorem State.drain_timerRun (s : State) : s.drain.timerRun = s.timerRun := rfl
@[simp] theorem State.drain_portTrace (s : State) : s.drain.portTrace = s.portTrace := rfl
@[simp] theorem State.drain_fmTrace (s : State) : s.drain.fmTrace = s.fmTrace := rfl
@[simp] theorem State.drain_pcmOut (s : State) : s.drain.pcmOut = s.pcmOut ++ [s.sample s.drainPos] := rfl
@[simp] theorem State.drain_tickTrace (s : State) : s.drain.tickTrace = s.tickTrace := rfl
@[simp] theorem State.drain_diagLine (s : State) : s.drain.diagLine = s.diagLine := rfl
@[simp] theorem State.drain_rsp (s : State) : s.drain.rsp = s.rsp := rfl
@[simp] theorem State.drain_samplesDone (s : State) : s.drain.samplesDone = s.samplesDone := rfl
@[simp] theorem State.drain_hostOps (s : State) : s.drain.hostOps = s.hostOps := rfl
@[simp] theorem State.drain_slice (s : State) : s.drain.slice = s.slice := rfl
@[simp] theorem State.drain_turns (s : State) : s.drain.turns = s.turns := rfl
@[simp] theorem State.drain_portDev (s : State) : s.drain.portDev = s.portDev := rfl
@[simp] theorem State.drain_noise (s : State) : s.drain.noise = s.noise := rfl
@[simp] theorem State.drain_storeOrder (s : State) : s.drain.storeOrder = s.storeOrder := rfl
@[simp] theorem State.drain_hostWords (s : State) : s.drain.hostWords = s.hostWords := rfl
@[simp] theorem State.drain_seqActs (s : State) : s.drain.seqActs = s.seqActs := rfl

/-! ## `State.tookTurn` -/

@[simp] theorem State.tookTurn_cfg (s : State) : s.tookTurn.cfg = s.cfg := rfl
@[simp] theorem State.tookTurn_voices (s : State) : s.tookTurn.voices = s.voices := rfl
@[simp] theorem State.tookTurn_master (s : State) : s.tookTurn.master = s.master := rfl
@[simp] theorem State.tookTurn_drainHalf (s : State) : s.tookTurn.drainHalf = s.drainHalf := rfl
@[simp] theorem State.tookTurn_tickCnt (s : State) : s.tookTurn.tickCnt = s.tickCnt := rfl
@[simp] theorem State.tookTurn_fillState (s : State) : s.tookTurn.fillState = s.fillState := rfl
@[simp] theorem State.tookTurn_fillI (s : State) : s.tookTurn.fillI = s.fillI := rfl
@[simp] theorem State.tookTurn_initStep (s : State) : s.tookTurn.initStep = s.initStep := rfl
@[simp] theorem State.tookTurn_pollCnt (s : State) : s.tookTurn.pollCnt = s.pollCnt := rfl
@[simp] theorem State.tookTurn_pendFill (s : State) : s.tookTurn.pendFill = s.pendFill := rfl
@[simp] theorem State.tookTurn_pendTimer (s : State) : s.tookTurn.pendTimer = s.pendTimer := rfl
@[simp] theorem State.tookTurn_inFill (s : State) : s.tookTurn.inFill = s.inFill := rfl
@[simp] theorem State.tookTurn_tickOpen (s : State) : s.tookTurn.tickOpen = s.tickOpen := rfl
@[simp] theorem State.tookTurn_fillOverrun (s : State) : s.tookTurn.fillOverrun = s.fillOverrun := rfl
@[simp] theorem State.tookTurn_pcmState (s : State) : s.tookTurn.pcmState = s.pcmState := rfl
@[simp] theorem State.tookTurn_faultCode (s : State) : s.tookTurn.faultCode = s.faultCode := rfl
@[simp] theorem State.tookTurn_faultDiag (s : State) : s.tookTurn.faultDiag = s.faultDiag := rfl
@[simp] theorem State.tookTurn_halted (s : State) : s.tookTurn.halted = s.halted := rfl
@[simp] theorem State.tookTurn_timerInited (s : State) : s.tookTurn.timerInited = s.timerInited := rfl
@[simp] theorem State.tookTurn_fmInited (s : State) : s.tookTurn.fmInited = s.fmInited := rfl
@[simp] theorem State.tookTurn_pcmInited (s : State) : s.tookTurn.pcmInited = s.pcmInited := rfl
@[simp] theorem State.tookTurn_timerFreq (s : State) : s.tookTurn.timerFreq = s.timerFreq := rfl
@[simp] theorem State.tookTurn_timerDiv (s : State) : s.tookTurn.timerDiv = s.timerDiv := rfl
@[simp] theorem State.tookTurn_tickCount (s : State) : s.tookTurn.tickCount = s.tickCount := rfl
@[simp] theorem State.tookTurn_keycache (s : State) : s.tookTurn.keycache = s.keycache := rfl
@[simp] theorem State.tookTurn_fmImage (s : State) : s.tookTurn.fmImage = s.fmImage := rfl
@[simp] theorem State.tookTurn_mem (s : State) : s.tookTurn.mem = s.mem := rfl
@[simp] theorem State.tookTurn_dmaRun (s : State) : s.tookTurn.dmaRun = s.dmaRun := rfl
@[simp] theorem State.tookTurn_drainPos (s : State) : s.tookTurn.drainPos = s.drainPos := rfl
@[simp] theorem State.tookTurn_timerRun (s : State) : s.tookTurn.timerRun = s.timerRun := rfl
@[simp] theorem State.tookTurn_portTrace (s : State) : s.tookTurn.portTrace = s.portTrace := rfl
@[simp] theorem State.tookTurn_fmTrace (s : State) : s.tookTurn.fmTrace = s.fmTrace := rfl
@[simp] theorem State.tookTurn_pcmOut (s : State) : s.tookTurn.pcmOut = s.pcmOut := rfl
@[simp] theorem State.tookTurn_tickTrace (s : State) : s.tookTurn.tickTrace = s.tickTrace := rfl
@[simp] theorem State.tookTurn_diagLine (s : State) : s.tookTurn.diagLine = s.diagLine := rfl
@[simp] theorem State.tookTurn_rsp (s : State) : s.tookTurn.rsp = s.rsp := rfl
@[simp] theorem State.tookTurn_samplesDone (s : State) : s.tookTurn.samplesDone = s.samplesDone := rfl
@[simp] theorem State.tookTurn_hostOps (s : State) : s.tookTurn.hostOps = s.hostOps := rfl
@[simp] theorem State.tookTurn_slice (s : State) : s.tookTurn.slice = s.slice := rfl
@[simp] theorem State.tookTurn_turns (s : State) : s.tookTurn.turns = (s.turns.next Config.freeTurn).2 := rfl
@[simp] theorem State.tookTurn_portDev (s : State) : s.tookTurn.portDev = s.portDev := rfl
@[simp] theorem State.tookTurn_noise (s : State) : s.tookTurn.noise = s.noise := rfl
@[simp] theorem State.tookTurn_storeOrder (s : State) : s.tookTurn.storeOrder = s.storeOrder := rfl
@[simp] theorem State.tookTurn_hostWords (s : State) : s.tookTurn.hostWords = s.hostWords := rfl
@[simp] theorem State.tookTurn_seqActs (s : State) : s.tookTurn.seqActs = s.seqActs := rfl

end Sys2Proof.Machine
end

