-- ==== Sys2Proof/Laws/Command.lean ====
section
/-!
SUPPORT. What acceptance does with a command, and how a command runs as a list of accesses: the lemmas to cite instead of
unfolding `State.command`, `State.runCommand` and `runAccesses`.
-/

namespace Sys2Proof.Machine

/-! ## Acceptance -/

theorem State.admits_iff (s : State) (op : Op) :
    s.admits op = true ↔ s.halted = false ∧ s.cmdReady = true ∧ op.inBuild s.cfg.backend = true := by
  simp [State.admits, and_assoc]

/-- An admitted command acts. -/
theorem State.command_admits {s : State} {op : Op} (act : State → State) (h : s.admits op = true) :
    s.command op act = act s := by
  obtain ⟨h1, h2, h3⟩ := (s.admits_iff op).mp h
  simp [State.command, h1, h2, h3]

/-- A halted block ignores the command (R233). -/
theorem State.command_halted {s : State} (op : Op) (act : State → State) (h : s.halted = true) :
    s.command op act = s := by
  simp [State.command, h]

/-- What acceptance can do: ignore, leave waiting, refuse the backend, or act. -/
theorem State.command_cases (s : State) (op : Op) (act : State → State) :
    s.command op act = s ∨ (s.halted = false ∧ s.command op act = s.raiseCmdFault cmdWrongBackend op.byte) ∨
      (s.admits op = true ∧ s.command op act = act s) := by
  unfold State.command
  split
  · exact .inl rfl
  · next h1 =>
    split
    · exact .inl rfl
    · next h2 =>
      split
      · exact .inr (.inl ⟨by simpa using h1, rfl⟩)
      · next h3 => exact .inr (.inr ⟨by simp_all [State.admits], rfl⟩)

@[simp] theorem State.checked_none (s : State) (op : Op) (act : State → State) : s.checked op none act = act s := rfl

@[simp] theorem State.checked_some (s : State) (op : Op) (code : Byte) (act : State → State) :
    s.checked op (some code) act = s.raiseCmdFault code op.byte := rfl

/-- The Host may start only when no tick window is open and no command of its own is unfinished. -/
theorem State.hostReady_iff (s : State) :
    s.hostReady = true ↔ s.inFill = false ∧ s.tickOpen = false ∧ s.hostOps = [] := by
  simp [State.hostReady, and_assoc]

/-- Outside a tick window, an accepting port has no unfinished Host command. -/
theorem State.hostOps_of_cmdReady {s : State} (h : s.cmdReady = true) (ht : s.tickOpen = false) : s.hostOps = [] := by
  have h' : s.hostReady = true := by simpa [State.cmdReady, ht] using h
  exact ((State.hostReady_iff s).mp h').2.2

/-! ## Running accesses -/

@[simp] theorem runAccesses_nil (n : Nat) (s : State) : runAccesses n [] s = (s, []) := by
  cases n <;> rfl

@[simp] theorem runAccesses_zero (ops : List Access) (s : State) : runAccesses 0 ops s = (s, ops) := by
  cases ops <;> rfl

theorem runAccesses_succ (n : Nat) (a : Access) (ops : List Access) (s : State) :
    runAccesses (n + 1) (a :: ops) s =
      (match runAccess a s with
        | (t, none) => (t, [])
        | (t, some more) => runAccesses n (more ++ ops) t) := rfl

/-- Running in two parts. -/
theorem runAccesses_add (m n : Nat) (ops : List Access) (s : State) :
    runAccesses (m + n) ops s = runAccesses n (runAccesses m ops s).2 (runAccesses m ops s).1 := by
  induction m generalizing ops s with
  | zero => simp
  | succ m ih =>
    cases ops with
    | nil => simp
    | cons a ops =>
      rw [show m + 1 + n = (m + n) + 1 by omega, runAccesses_succ, runAccesses_succ]
      cases h : runAccess a s with
      | mk t more =>
        cases more with
        | none => simp
        | some more => exact ih (more ++ ops) t

/-- A property every access keeps, every run of accesses keeps. -/
theorem runAccesses_keeps {P : State → Prop} (h : ∀ a s, P s → P (runAccess a s).1) (n : Nat) (ops : List Access)
    (s : State) (hs : P s) : P (runAccesses n ops s).1 := by
  induction n generalizing ops s with
  | zero => simpa using hs
  | succ n ih =>
    cases ops with
    | nil => simpa using hs
    | cons a ops =>
      rw [runAccesses_succ]
      have ha := h a s hs
      cases hr : runAccess a s with
      | mk t more =>
        rw [hr] at ha
        cases more with
        | none => exact ha
        | some more => exact ih _ _ ha

/-- The whole of a command is at least its length. -/
theorem State.budget_of_whole {s : State} (ops : List Access) (h : s.runsWhole = true) :
    s.budget ops = ops.length + s.cfg.resetPollMax := by
  unfold State.budget
  cases ht : s.tickOpen with
  | true => rfl
  | false =>
    have : s.slice = none := by simpa [State.runsWhole, ht] using h
    simp [this, wholeCount]

/-- A command that runs to its end within its budget leaves the state its accesses make. -/
theorem State.runCommand_done {s t : State} {ops : List Access} (h : runAccesses (s.budget ops) ops s = (t, []))
    (hh : s.tickOpen = false → t.hostOps = []) : s.runCommand ops = t := by
  unfold State.runCommand
  rw [h]
  cases ht : s.tickOpen with
  | true => rfl
  | false => simp [← hh ht]

/-! ## What one access leaves alone -/

/-- No access touches the configuration, the master volume, the flip flag, the fill engine's and the interrupt registers, the
timer's counters, or the environment's sources but the port answers. -/
theorem runAccess_frame (a : Access) (s : State) :
    (runAccess a s).1.cfg = s.cfg ∧ (runAccess a s).1.master = s.master ∧ (runAccess a s).1.drainHalf = s.drainHalf ∧
    (runAccess a s).1.tickCnt = s.tickCnt ∧ (runAccess a s).1.fillState = s.fillState ∧ (runAccess a s).1.fillI = s.fillI ∧
    (runAccess a s).1.pendFill = s.pendFill ∧ (runAccess a s).1.pendTimer = s.pendTimer ∧
    (runAccess a s).1.inFill = s.inFill ∧ (runAccess a s).1.tickOpen = s.tickOpen ∧
    (runAccess a s).1.fillOverrun = s.fillOverrun ∧ (runAccess a s).1.timerInited = s.timerInited ∧
    (runAccess a s).1.fmInited = s.fmInited ∧ (runAccess a s).1.pcmInited = s.pcmInited ∧
    (runAccess a s).1.tickCount = s.tickCount ∧ (runAccess a s).1.drainPos = s.drainPos ∧
    (runAccess a s).1.pcmOut = s.pcmOut ∧ (runAccess a s).1.tickTrace = s.tickTrace ∧ (runAccess a s).1.rsp = s.rsp ∧
    (runAccess a s).1.samplesDone = s.samplesDone ∧ (runAccess a s).1.hostOps = s.hostOps ∧
    (runAccess a s).1.slice = s.slice ∧ (runAccess a s).1.turns = s.turns ∧ (runAccess a s).1.noise = s.noise ∧
    (runAccess a s).1.storeOrder = s.storeOrder ∧ (runAccess a s).1.hostWords = s.hostWords ∧
    (runAccess a s).1.seqActs = s.seqActs := by
  cases a <;> simp only [runAccess, runPoll, runReadAck, runReadMinor, runReadMixer] <;> (try split) <;> (try split) <;> simp

end Sys2Proof.Machine
end

