-- ==== Sys2Proof/Laws/Config.lean ====
section
/-!
SUPPORT. What the checks on a configuration say as propositions: the lemmas to cite instead of unfolding `hasLength` and
`maxByte`.
-/

namespace Sys2Proof.Machine

theorem hasLength_iff {α : Type} (xs : List α) (n : Nat) : hasLength xs n = true ↔ xs.length = n := by
  induction xs generalizing n with
  | nil => cases n <;> simp [hasLength]
  | cons x xs ih => cases n <;> simp [hasLength, ih]

/-- The largest byte bounds every byte, and is no larger than any bound. -/
theorem maxByte_le_iff (bs : List Byte) (n : Nat) : maxByte bs ≤ n ↔ ∀ b ∈ bs, b.toNat ≤ n := by
  induction bs with
  | nil => simp [maxByte]
  | cons x xs ih => simp [maxByte, ih]

/-- The largest byte of a list that is not empty stands in it. -/
theorem exists_maxByte {bs : List Byte} (h : bs ≠ []) : ∃ b ∈ bs, b.toNat = maxByte bs := by
  induction bs with
  | nil => exact absurd rfl h
  | cons x xs ih =>
    by_cases hx : xs = []
    · subst hx
      exact ⟨x, by simp, by simp [maxByte]⟩
    · obtain ⟨b, hb, e⟩ := ih hx
      rcases Nat.le_total x.toNat (maxByte xs) with hle | hle
      · exact ⟨b, List.mem_cons_of_mem _ hb, by simp [maxByte, e, Nat.max_eq_right hle]⟩
      · exact ⟨x, by simp, by simp [maxByte, Nat.max_eq_left hle]⟩

/-- Two lists of bytes add up to at most `n` at their largest exactly when every pair does. -/
theorem maxByte_add_le_iff {as bs : List Byte} (ha : as ≠ []) (hb : bs ≠ []) (n : Nat) :
    maxByte as + maxByte bs ≤ n ↔ ∀ a ∈ as, ∀ b ∈ bs, a.toNat + b.toNat ≤ n := by
  constructor
  · intro h a ma b mb
    have := (maxByte_le_iff as _).mp le_rfl a ma
    have := (maxByte_le_iff bs _).mp le_rfl b mb
    omega
  · intro h
    obtain ⟨a, ma, ea⟩ := exists_maxByte ha
    obtain ⟨b, mb, eb⟩ := exists_maxByte hb
    have := h a ma b mb
    omega

end Sys2Proof.Machine
end

