-- ==== Sys2Proof/Laws/Encoding.lean ====
section
/-!
SUPPORT. The fields of a packed word, the rows of the opcode map, and a presented word that decodes: the lemmas to cite
instead of unfolding `packWord`, `decode` and `presentWord`.
-/

namespace Sys2Proof

/-- The value of a packed word (R90). -/
theorem toNat_packWord (o v a b : Byte) :
    (packWord o v a b).toNat = o.toNat * 16777216 + v.toNat * 65536 + a.toNat * 256 + b.toNat := by
  have := o.isLt; have := v.isLt; have := a.isLt; have := b.isLt
  simp only [packWord, BitVec.toNat_ofNat]
  norm_num
  omega

@[simp] theorem opField_packWord (o v a b : Byte) : opField (packWord o v a b) = o := by
  have := o.isLt; have := v.isLt; have := a.isLt; have := b.isLt
  apply BitVec.eq_of_toNat_eq
  rw [opField, BitVec.extractLsb'_toNat, Nat.shiftRight_eq_div_pow, toNat_packWord]
  norm_num
  omega

@[simp] theorem voiceField_packWord (o v a b : Byte) : voiceField (packWord o v a b) = v := by
  have := o.isLt; have := v.isLt; have := a.isLt; have := b.isLt
  apply BitVec.eq_of_toNat_eq
  rw [voiceField, BitVec.extractLsb'_toNat, Nat.shiftRight_eq_div_pow, toNat_packWord]
  norm_num
  omega

@[simp] theorem aField_packWord (o v a b : Byte) : aField (packWord o v a b) = a := by
  have := o.isLt; have := v.isLt; have := a.isLt; have := b.isLt
  apply BitVec.eq_of_toNat_eq
  rw [aField, BitVec.extractLsb'_toNat, Nat.shiftRight_eq_div_pow, toNat_packWord]
  norm_num
  omega

@[simp] theorem bField_packWord (o v a b : Byte) : bField (packWord o v a b) = b := by
  have := o.isLt; have := v.isLt; have := a.isLt; have := b.isLt
  apply BitVec.eq_of_toNat_eq
  rw [bField, BitVec.extractLsb'_toNat, Nat.shiftRight_eq_div_pow, toNat_packWord]
  norm_num
  omega

/-- A word is its four fields. -/
theorem packWord_fields (w : Word) : packWord (opField w) (voiceField w) (aField w) (bField w) = w := by
  have := w.isLt
  apply BitVec.eq_of_toNat_eq
  simp only [opField, voiceField, aField, bField, packWord, BitVec.extractLsb'_toNat, BitVec.toNat_ofNat,
    Nat.shiftRight_eq_div_pow]
  omega

/-- The row that an opcode selects has that opcode. -/
theorem Op.byte_of_ofByte {b : Byte} {op : Op} (h : Op.ofByte b = some op) : op.byte = b := by
  revert b op
  decide

/-- The opcode of a row selects it. -/
theorem Op.ofByte_byte (op : Op) : Op.ofByte op.byte = some op := by
  cases op <;> rfl

@[simp] theorem Op.build_op (op : Op) (voice a b : Byte) : (op.build voice a b).op = op := by
  cases op <;> rfl

/-- What decodes to an operation: its row, with the reserved fields zero. -/
theorem decode_instr {w : Word} {i : Instr} (h : decode w = .instr i) :
    Op.ofByte (opField w) = some i.op ∧ i.op.reservedZero (voiceField w) (aField w) (bField w) = true ∧
      i = i.op.build (voiceField w) (aField w) (bField w) := by
  unfold decode at h
  split at h
  · cases h
  · next op ho =>
    split at h
    · next hr =>
      cases h
      exact ⟨by simpa using ho, by simpa using hr, by simp⟩
    · cases h

namespace Machine

/-- A command whose row the build lacks is the command fault of R95, where the port takes it. -/
theorem exec_wrongBackend {i : Instr} {s : State} (h1 : s.halted = false) (h2 : s.cmdReady = true)
    (h3 : i.op.inBuild s.cfg.backend = false) (h4 : i.isEvent = false) :
    exec i s = .next (s.raiseCmdFault cmdWrongBackend i.op.byte) := by
  have key : ∀ (op : Op) (act : State → State), op.inBuild s.cfg.backend = false →
      s.command op act = s.raiseCmdFault cmdWrongBackend op.byte := by
    intro op act h
    simp [State.command, h1, h2, h]
  cases i <;> first | exact congrArg _ (key _ _ h3) | cases h4

/-- A command that a halted block ignores, or that has to wait, changes nothing. -/
theorem exec_idle {i : Instr} {s : State} (h : s.halted = true ∨ s.cmdReady = false) (h4 : i.isEvent = false) :
    exec i s = .next s := by
  have key : ∀ (op : Op) (act : State → State), s.command op act = s := by
    intro op act
    rcases h with h | h <;> simp [State.command, h]
  cases i <;> first | exact congrArg _ (key _ _) | cases h4

/-- A word that decodes to a command runs it. -/
theorem presentWord_command {s : State} {w : Word} {i : Instr} (hd : decode w = .instr i) (he : i.isEvent = false) :
    presentWord w s = exec i s := by
  obtain ⟨ho, hr, -⟩ := decode_instr hd
  have he' : i.op.isEvent = false := he
  unfold presentWord wordFault
  simp only [ho, he', hr, hd]
  by_cases hk : i.op.inBuild s.cfg.backend = true
  · simp [hk]
  · have hk' : i.op.inBuild s.cfg.backend = false := by simpa using hk
    have hb := Op.byte_of_ofByte ho
    by_cases h1 : s.halted = true
    · simp [hk', State.rejectWord, h1, exec_idle (.inl h1) he]
    · by_cases h2 : s.cmdReady = true
      · simp [hk', State.rejectWord, h1, h2, exec_wrongBackend (by simpa using h1) h2 hk' he, hb]
      · simp [hk', State.rejectWord, h1, h2, exec_idle (.inr (by simpa using h2)) he]

/-- `exec` always answers a next state: failures of the block are next states (R231, R236). -/
theorem exec_next (i : Instr) (s : State) : ∃ t, exec i s = .next t := by
  cases i <;> exact ⟨_, rfl⟩

end Machine

end Sys2Proof
end

