-- ==== Sys2Proof/Laws/Memory.lean ====
section
/-!
SUPPORT. The laws of the cell lists: what a lookup finds after a store, that every operation keeps the canonical form, and
the same for the samples of the buffer.
-/

namespace Sys2Proof.Machine

/-! ## Lookups -/

@[simp] theorem cellFind_nil (a : Nat) : cellFind a [] = none := rfl

theorem cellFind_cellPut (a b : Nat) (v : Byte) (m : List Host.Cell) :
    cellFind b (cellPut a v m) = if a = b then some v else cellFind b m := by
  induction m with
  | nil => simp [cellPut, cellFind]
  | cons c rest ih =>
    obtain ⟨k, w⟩ := c
    by_cases hlt : a < k
    · simp [cellPut, cellFind, hlt]
    · by_cases hk : a = k
      · subst hk
        by_cases hb : a = b <;> simp [cellPut, cellFind, hb]
      · simp only [cellPut, hlt, hk, if_false, cellFind, ih]
        by_cases hb : k = b
        · subst hb; simp [hk]
        · simp [hb]

/-- In a sorted list, a key below the first is not listed. -/
theorem cellFind_of_lt {a : Nat} {m : List Host.Cell} (h : ∀ c ∈ m, a < c.1) : cellFind a m = none := by
  induction m with
  | nil => rfl
  | cons c rest ih =>
    obtain ⟨k, w⟩ := c
    have hk : a < k := h _ (List.mem_cons_self ..)
    simp [cellFind, (Nat.ne_of_lt hk).symm, ih fun d hd => h d (List.mem_cons_of_mem _ hd)]

theorem cellsSorted_iff (m : List Host.Cell) : cellsSorted m = true ↔ m.Pairwise fun c d => c.1 < d.1 := by
  simp [cellsSorted]

theorem cellFind_cellDrop {a b : Nat} {m : List Host.Cell} (hs : cellsSorted m = true) :
    cellFind b (cellDrop a m) = if a = b then none else cellFind b m := by
  rw [cellsSorted_iff] at hs
  induction m with
  | nil => simp [cellDrop]
  | cons c rest ih =>
    obtain ⟨k, w⟩ := c
    rw [List.pairwise_cons] at hs
    by_cases hk : k = a
    · subst hk
      by_cases hb : k = b
      · subst hb
        simp [cellDrop, cellFind_of_lt hs.1]
      · simp [cellDrop, cellFind, hb]
    · simp only [cellDrop, hk, if_false, cellFind, ih hs.2]
      by_cases hb : k = b
      · subst hb; simp [Ne.symm hk]
      · simp [hb]

/-! ## Order -/

theorem mem_cellPut {a : Nat} {v : Byte} {m : List Host.Cell} {c : Host.Cell} (h : c ∈ cellPut a v m) :
    c = (a, v) ∨ c ∈ m := by
  induction m with
  | nil => simpa [cellPut] using h
  | cons d rest ih =>
    obtain ⟨k, w⟩ := d
    by_cases hlt : a < k
    · simpa [cellPut, hlt] using h
    · by_cases hk : a = k
      · subst hk
        simp only [cellPut, Nat.lt_irrefl, if_false, if_true, List.mem_cons] at h
        exact h.imp_right (List.mem_cons_of_mem _)
      · simp only [cellPut, hlt, hk, if_false, List.mem_cons] at h
        rcases h with h | h
        · exact .inr (by simp [h])
        · exact (ih h).imp_right (List.mem_cons_of_mem _)

theorem mem_of_mem_cellDrop {a : Nat} {m : List Host.Cell} {c : Host.Cell} (h : c ∈ cellDrop a m) : c ∈ m := by
  induction m with
  | nil => simp [cellDrop] at h
  | cons d rest ih =>
    obtain ⟨k, w⟩ := d
    by_cases hk : k = a
    · simp only [cellDrop, hk, if_true] at h
      exact List.mem_cons_of_mem _ h
    · simp only [cellDrop, hk, if_false, List.mem_cons] at h
      rcases h with h | h
      · simp [h]
      · exact List.mem_cons_of_mem _ (ih h)

theorem cellPut_sorted {a : Nat} {v : Byte} {m : List Host.Cell} (hs : cellsSorted m = true) :
    cellsSorted (cellPut a v m) = true := by
  rw [cellsSorted_iff] at hs ⊢
  induction m with
  | nil => simp [cellPut]
  | cons d rest ih =>
    obtain ⟨k, w⟩ := d
    have hs' := List.pairwise_cons.mp hs
    by_cases hlt : a < k
    · simp only [cellPut, hlt, if_true]
      refine List.pairwise_cons.mpr ⟨?_, hs⟩
      intro c hc
      rcases List.mem_cons.mp hc with rfl | hc
      · exact hlt
      · exact Nat.lt_trans hlt (hs'.1 c hc)
    · by_cases hk : a = k
      · subst hk
        simp only [cellPut, Nat.lt_irrefl, if_false, if_true]
        exact List.pairwise_cons.mpr hs'
      · simp only [cellPut, hlt, hk, if_false]
        refine List.pairwise_cons.mpr ⟨?_, ih hs'.2⟩
        intro c hc
        rcases mem_cellPut hc with rfl | hc
        · exact Nat.lt_of_le_of_ne (Nat.not_lt.mp hlt) (Ne.symm hk)
        · exact hs'.1 c hc

theorem cellDrop_sorted {a : Nat} {m : List Host.Cell} (hs : cellsSorted m = true) :
    cellsSorted (cellDrop a m) = true := by
  rw [cellsSorted_iff] at hs ⊢
  induction m with
  | nil => simp [cellDrop]
  | cons d rest ih =>
    obtain ⟨k, w⟩ := d
    have hs' := List.pairwise_cons.mp hs
    by_cases hk : k = a
    · simpa [cellDrop, hk] using hs'.2
    · simp only [cellDrop, hk, if_false]
      exact List.pairwise_cons.mpr ⟨fun c hc => hs'.1 c (mem_of_mem_cellDrop hc), ih hs'.2⟩

/-! ## Memory -/

theorem Memory.wf_iff (m : Memory) : m.wf = true ↔ cellsSorted m = true ∧ ∀ c ∈ m, c.2 ≠ 0 := by
  simp [Memory.wf]

theorem Memory.wf_sorted {m : Memory} (h : m.wf = true) : cellsSorted m = true := ((Memory.wf_iff m).mp h).1

/-- Every store keeps the canonical form. -/
theorem Memory.write_wf {m : Memory} (a : Nat) (v : Byte) (h : m.wf = true) : (m.write a v).wf = true := by
  rw [Memory.wf_iff] at h ⊢
  unfold Memory.write
  split
  · exact ⟨cellDrop_sorted h.1, fun c hc => h.2 c (mem_of_mem_cellDrop hc)⟩
  · next hv =>
    refine ⟨cellPut_sorted h.1, fun c hc => ?_⟩
    rcases mem_cellPut hc with rfl | hc
    · exact hv
    · exact h.2 c hc

/-- A read after a store. -/
theorem Memory.read_write {m : Memory} (a b : Nat) (v : Byte) (h : m.wf = true) :
    (m.write a v).read b = if a = b then v else m.read b := by
  unfold Memory.write Memory.read
  split
  · next hv =>
    rw [cellFind_cellDrop (Memory.wf_sorted h)]
    split <;> simp [hv]
  · rw [cellFind_cellPut]
    split <;> simp

/-- Every listed byte after a store is the stored one or was listed before. -/
theorem Memory.mem_write {m : Memory} {a : Nat} {v : Byte} {c : Host.Cell} (h : c ∈ m.write a v) :
    c = (a, v) ∨ c ∈ m := by
  unfold Memory.write at h
  split at h
  · exact .inr (mem_of_mem_cellDrop h)
  · exact mem_cellPut h

/-! ## Samples -/

theorem toNat_lowByte (v : Sample) : (lowByte v).toNat = v.toNat % 256 := by
  simp [lowByte, BitVec.extractLsb'_toNat]

theorem toNat_highByte (v : Sample) : (highByte v).toNat = v.toNat / 256 := by
  have := v.isLt
  simp only [highByte, BitVec.extractLsb'_toNat, Nat.shiftRight_eq_div_pow]
  omega

/-- The two bytes of a sample make the sample (R63 (a)). -/
theorem sample_of_bytes (v : Sample) : BitVec.ofNat 16 ((highByte v).toNat * 256 + (lowByte v).toNat) = v := by
  apply BitVec.eq_of_toNat_eq
  have := v.isLt
  rw [toNat_highByte, toNat_lowByte, BitVec.toNat_ofNat]
  omega

theorem Memory.writeSample_wf {m : Memory} (a : Nat) (v : Sample) (h : m.wf = true) : (m.writeSample a v).wf = true :=
  Memory.write_wf _ _ (Memory.write_wf _ _ h)

/-- Every byte after a sample store. -/
theorem Memory.read_writeSample {m : Memory} (a b : Nat) (v : Sample) (h : m.wf = true) :
    (m.writeSample a v).read b = if b = a then lowByte v else if b = a + 1 then highByte v else m.read b := by
  unfold Memory.writeSample
  rw [Memory.read_write _ _ _ (Memory.write_wf _ _ h), Memory.read_write _ _ _ h]
  by_cases h1 : b = a
  · subst h1; simp
  · by_cases h2 : b = a + 1
    · subst h2; simp
    · simp [h1, h2, Ne.symm h1, Ne.symm h2]

theorem Memory.readSample_writeSample_same {m : Memory} (a : Nat) (v : Sample) (h : m.wf = true) :
    (m.writeSample a v).readSample a = v := by
  have e := sample_of_bytes v
  simpa [Memory.readSample, Memory.read_writeSample a _ v h] using e

theorem Memory.readSample_writeSample_other {m : Memory} {a b : Nat} (v : Sample) (h : m.wf = true)
    (h1 : a + 2 ≤ b ∨ b + 2 ≤ a) : (m.writeSample a v).readSample b = m.readSample b := by
  unfold Memory.readSample
  rw [Memory.read_writeSample _ _ _ h, Memory.read_writeSample _ _ _ h]
  have a1 : b + 1 ≠ a := by omega
  have a2 : b + 1 ≠ a + 1 := by omega
  have a3 : b ≠ a := by omega
  have a4 : b ≠ a + 1 := by omega
  simp [a1, a3, a4]

/-- A sample of the buffer after a sample store. -/
theorem State.sample_setSample {s : State} (k l : Nat) (v : Sample) (h : s.mem.wf = true) :
    (s.setSample k v).sample l = if l = k then v else s.sample l := by
  unfold State.sample State.setSample State.sampleAddr
  by_cases hl : l = k
  · subst hl
    simp [Memory.readSample_writeSample_same _ _ h]
  · simp only [hl, if_false]
    exact Memory.readSample_writeSample_other _ h (by omega)

/-- The state after reset has no byte listed, which is canonical. -/
theorem State.reset_mem_wf : State.reset.mem.wf = true := rfl

/-- A sample store keeps memory canonical. -/
theorem State.setSample_mem_wf {s : State} (k : Nat) (v : Sample) (h : s.mem.wf = true) : (s.setSample k v).mem.wf = true :=
  Memory.writeSample_wf _ _ h

/-- An FM register write keeps the register image's keys rising. -/
theorem State.fmStore_image_sorted {s : State} (bank : Bank) (reg val : Byte) (h : cellsSorted s.fmImage = true) :
    cellsSorted (s.fmStore bank reg val).fmImage = true :=
  cellPut_sorted h

/-- Every FM register after an FM register write (R130, R34). -/
theorem State.fmImageAt_fmStore (s : State) (b b' : Bank) (r r' val : Byte) :
    (s.fmStore b r val).fmImageAt b' r' = if b' = b ∧ r' = r then some val else s.fmImageAt b' r' := by
  have key : fmKey b r = fmKey b' r' ↔ b' = b ∧ r' = r := by
    have := r.isLt
    have := r'.isLt
    have e : r.toNat = r'.toNat ↔ r' = r := ⟨fun h => (BitVec.eq_of_toNat_eq h).symm, fun h => by rw [h]⟩
    cases b <;> cases b' <;> simp [fmKey, e] <;> omega
  unfold State.fmImageAt State.fmStore
  simp only [cellFind_cellPut, key]

end Sys2Proof.Machine
end

