-- ==== Sys2Proof/Laws/Mixer.lean ====
section
/-!
SUPPORT. What one voice and the loop over the voices can do: the lemmas to cite instead of unfolding `mixVoice` and
`mixVoices`.
-/

namespace Sys2Proof.Machine

/-! ## Facts of a configuration the model runs -/

/-- The wave tables of a configuration the model runs have `WAVE_LEN` entries (R10). -/
theorem wf_waveTable {c : Config} (h : c.wf = true) {w : Byte} {table : List Byte} (ht : c.waveTable w = some table) :
    table.length = c.waveLen := by
  simp only [Config.wf, Config.wfWaves, Bool.and_eq_true, decide_eq_true_eq, hasLength_iff] at h
  unfold Config.waveTable at ht
  split at ht
  · cases ht; omega
  · split at ht
    · cases ht; omega
    · split at ht
      · cases ht; omega
      · cases ht

theorem wf_waveLen {c : Config} (h : c.wf = true) : 1 ≤ c.waveLen ∧ c.waveLen ≤ 2 ^ 24 := by
  simp only [Config.wf, Config.wfWaves, Bool.and_eq_true, decide_eq_true_eq] at h
  omega

/-- An identifier that names no table names the noise source (R181). -/
theorem waveTable_of_isWave {c : Config} {w : Byte} (h : c.isWave w = true) (hn : w ≠ c.waveNoise) :
    ∃ table, c.waveTable w = some table := by
  simp only [Config.isWave, Config.waveIds, decide_eq_true_eq, List.mem_cons, List.not_mem_nil, or_false] at h
  unfold Config.waveTable
  split
  · exact ⟨_, rfl⟩
  · split
    · exact ⟨_, rfl⟩
    · split
      · exact ⟨_, rfl⟩
      · exfalso
        rcases h with h | h | h | h <;> contradiction

/-- The frequency of a sounding voice stays inside the width of R211. -/
theorem wf_freq {c : Config} (h : c.wf = true) (base : BitVec 16) {mul : Nat} (hm : mul ∈ c.octMul) :
    base.toNat * mul < 2 ^ 31 := by
  simp only [Config.wf, Config.wfNotes, Bool.and_eq_true, List.all_eq_true, decide_eq_true_eq] at h
  have hle : mul ≤ 2 ^ 15 := h.1.2.2 mul hm
  have hb : base.toNat ≤ 65535 := by have := base.isLt; omega
  have := Nat.mul_le_mul hb hle
  omega

/-- A note byte in range has an increment (R199, R200). -/
theorem phaseInc_of_ok {c : Config} (h : c.wf = true) {nb : Byte} (ho : c.noteByteOk nb = true) (hn : noteOf nb ≠ 0) :
    ∃ inc, phaseInc c nb = some inc := by
  simp only [Config.wf, Config.wfNotes, Bool.and_eq_true, decide_eq_true_eq] at h
  simp only [Config.noteByteOk, Bool.and_eq_true, Bool.or_eq_true, decide_eq_true_eq] at ho
  obtain ⟨n, hn'⟩ : ∃ n, noteOf nb = n + 1 := ⟨noteOf nb - 1, by omega⟩
  have h1 : n < c.noteBase.length := by omega
  have h2 : octaveOf nb < c.octMul.length := by omega
  unfold phaseInc
  rw [hn']
  simp only [Config.noteBaseAt, List.getElem?_eq_getElem h1, List.getElem?_eq_getElem h2]
  exact ⟨_, rfl⟩

/-! ## The phase -/

/-- The accumulator after an advance holds its value modulo `PHASE_MOD` (R201). -/
theorem toNat_advancePhase {c : Config} (h : c.waveLen ≤ 2 ^ 24) (phase : BitVec 32) (inc : Nat) (hw : 1 ≤ c.waveLen) :
    (advancePhase c phase inc).toNat = (phase.toNat + inc) % c.phaseMod ∧
      (advancePhase c phase inc).toNat < c.phaseMod := by
  have hm : 0 < c.phaseMod := by unfold Config.phaseMod; omega
  have hlt := Nat.mod_lt (phase.toNat + inc) hm
  have h32 : c.phaseMod ≤ 2 ^ 32 := by unfold Config.phaseMod; omega
  have : (advancePhase c phase inc).toNat = (phase.toNat + inc) % c.phaseMod := by
    unfold advancePhase
    rw [BitVec.toNat_ofNat, Nat.mod_eq_of_lt]
    omega
  exact ⟨this, this ▸ hlt⟩

/-! ## One voice -/

/-- What one voice does: the registers other than the phase are kept, and the phase is 0 for a silent voice, the advanced
one for a sounding one. -/
theorem mixVoice_frame {c : Config} {v v' : Voice} {src src' : Source Byte} {x : Int}
    (h : mixVoice c v src = .ok (v', x, src')) :
    v' = { v with phase := v'.phase } ∧
      ((noteOf v.note = 0 ∧ v'.phase = 0 ∧ x = 0 ∧ src' = src) ∨
       (noteOf v.note ≠ 0 ∧ ∃ inc, phaseInc c v.note = some inc ∧ v'.phase = advancePhase c v.phase inc)) := by
  unfold mixVoice at h
  split at h
  · next h0 => cases h; exact ⟨rfl, .inl ⟨h0, rfl, rfl, rfl⟩⟩
  · next h0 =>
    split at h
    · cases h
    · next inc hi =>
      simp only at h
      split at h
      · cases h
      · cases h; exact ⟨rfl, .inr ⟨h0, inc, hi, rfl⟩⟩

/-- A voice in range can always be mixed. -/
theorem mixVoice_total {c : Config} (hc : c.wf = true) {v : Voice} (hv : v.ok c = true) (src : Source Byte) :
    ∃ r, mixVoice c v src = .ok r := by
  simp only [Voice.ok, Bool.and_eq_true, decide_eq_true_eq] at hv
  unfold mixVoice
  split
  · exact ⟨_, rfl⟩
  · next h0 =>
    obtain ⟨inc, hi⟩ := phaseInc_of_ok hc hv.1.1 h0
    rw [hi]
    simp only [waveValue]
    by_cases hn : v.wave = c.waveNoise
    · simp only [hn, if_true]; exact ⟨_, rfl⟩
    · obtain ⟨table, ht⟩ := waveTable_of_isWave hv.1.2 hn
      have hl := wf_waveTable hc ht
      have hw := wf_waveLen hc
      have hp := (toNat_advancePhase hw.2 v.phase inc hw.1).2
      have : (advancePhase c v.phase inc).toNat / 256 < table.length := by
        rw [hl]
        unfold Config.phaseMod at hp
        omega
      simp only [hn, if_false, ht, List.getElem?_eq_getElem this]
      exact ⟨_, rfl⟩

/-- A voice in range stays in range. -/
theorem mixVoice_ok {c : Config} (hc : c.wf = true) {v v' : Voice} {src src' : Source Byte} {x : Int}
    (hv : v.ok c = true) (h : mixVoice c v src = .ok (v', x, src')) : v'.ok c = true := by
  have hw := wf_waveLen hc
  have hm : 0 < c.phaseMod := by unfold Config.phaseMod; omega
  obtain ⟨he, hp⟩ := mixVoice_frame h
  simp only [Voice.ok, Bool.and_eq_true, decide_eq_true_eq] at hv ⊢
  rw [he]
  refine ⟨hv.1, ?_⟩
  rcases hp with ⟨_, h0, _⟩ | ⟨_, inc, _, h0⟩
  · simp only [h0]; exact hm
  · simp only [h0]; exact (toNat_advancePhase hw.2 v.phase inc hw.1).2

/-! ## The loop over the voices -/

/-- What the loop can do: only phases and the noise source change, and voices it does not visit are kept. -/
theorem mixVoices_frame {js : List (Fin 8)} {s t : State} {acc acc' : Int} (h : mixVoices js s acc = .ok (t, acc')) :
    t = { s with voices := t.voices, noise := t.noise } ∧
      (∀ j : Fin 8, t.voices[j] = { s.voices[j] with phase := t.voices[j].phase }) ∧
      (∀ j : Fin 8, j ∉ js → t.voices[j] = s.voices[j]) := by
  induction js generalizing s acc with
  | nil => cases h; exact ⟨rfl, fun _ => rfl, fun _ _ => rfl⟩
  | cons i js ih =>
    rw [mixVoices] at h
    split at h
    · cases h
    · next v x src hv =>
      obtain ⟨e1, e2, e3⟩ := ih h
      have hf := (mixVoice_frame hv).1
      refine ⟨by rw [e1], fun j => ?_, fun j hj => ?_⟩
      · rw [e2 j]
        by_cases hji : i = j
        · subst hji
          simp only [Fin.getElem_fin, Vector.getElem_set_self]
          rw [hf]
          rfl
        · have : (i : Nat) ≠ j := fun e => hji (Fin.ext e)
          simp [this]
      · have hji : i ≠ j := fun e => hj (by simp [e])
        have : (i : Nat) ≠ j := fun e => hji (Fin.ext e)
        rw [e3 j (fun hm => hj (by simp [hm]))]
        simp [this]

/-- The loop over voices in range always ends, with the voices in range. -/
theorem mixVoices_total {s : State} (hc : s.cfg.wf = true) (hv : ∀ j : Fin 8, s.voices[j].ok s.cfg = true)
    (js : List (Fin 8)) (acc : Int) :
    ∃ t acc', mixVoices js s acc = .ok (t, acc') ∧ ∀ j : Fin 8, t.voices[j].ok t.cfg = true := by
  induction js generalizing s acc with
  | nil => exact ⟨s, acc, rfl, hv⟩
  | cons i js ih =>
    obtain ⟨⟨v, x, src⟩, hr⟩ := mixVoice_total hc (hv i) s.noise
    have hok := mixVoice_ok hc (hv i) hr
    rw [mixVoices, hr]
    apply ih
    · exact hc
    · intro j
      by_cases hji : (i : Nat) = j
      · simp [hji, hok]
      · have := hv j
        simpa [Vector.getElem_set, hji] using this

/-- The sum so far only shifts the sum. -/
theorem mixVoices_acc (js : List (Fin 8)) (s : State) (acc d : Int) :
    mixVoices js s (acc + d) = (mixVoices js s acc).map fun r => (r.1, r.2 + d) := by
  induction js generalizing s acc with
  | nil => rfl
  | cons i js ih =>
    rw [mixVoices, mixVoices]
    cases h : mixVoice s.cfg s.voices[i] s.noise with
    | error f => rfl
    | ok r =>
      obtain ⟨v, x, src⟩ := r
      simp only
      rw [show acc + d + x = acc + x + d by omega]
      exact ih _ _

end Sys2Proof.Machine
end

