-- ==== Sys2Proof/Laws/PerInstr.lean ====
section
/-!
SUPPORT. Per-instruction laws of the syntax. `OpcodeField`: the opcode byte of an operation's word is its row's (R92), the
row it selects is the operation's, and bit 31 of the word is set for the events only (R93).
-/

namespace Sys2Proof.Laws.OpcodeField

open Sys2Proof

/-- The statement for one instruction. -/
def Statement (i : Instr) : Prop :=
  opField (encode i) = i.op.byte ∧ Op.ofByte (opField (encode i)) = some i.op ∧
    (opField (encode i)).getLsbD 7 = i.isEvent

/-- A packed word has the opcode field it was packed with. -/
theorem of_packWord {i : Instr} {op voice a b : Byte} (he : encode i = packWord op voice a b) (hb : i.op.byte = op)
    (hv : op.getLsbD 7 = i.isEvent) : Statement i := by
  unfold Statement
  rw [he, opField_packWord, ← hb, Op.ofByte_byte]
  exact ⟨rfl, rfl, hb ▸ hv⟩

theorem timerInit : Statement .timerInit := of_packWord rfl rfl rfl

theorem timerGetTicks : Statement .timerGetTicks := of_packWord rfl rfl rfl

theorem fmInit : Statement .fmInit := of_packWord rfl rfl rfl

theorem fmAssignInstrument (voice patch : Byte) : Statement (.fmAssignInstrument voice patch) := of_packWord rfl rfl rfl

theorem fmSetNote (voice octave note : Byte) : Statement (.fmSetNote voice octave note) := of_packWord rfl rfl rfl

theorem fmSetMaster (volume : Byte) : Statement (.fmSetMaster volume) := of_packWord rfl rfl rfl

theorem pcmInit : Statement .pcmInit := of_packWord rfl rfl rfl

theorem pcmSetNote (voice octave note : Byte) : Statement (.pcmSetNote voice octave note) := of_packWord rfl rfl rfl

theorem pcmSetWaveform (voice waveform volume : Byte) : Statement (.pcmSetWaveform voice waveform volume) :=
  of_packWord rfl rfl rfl

theorem pcmSetVolume (voice volume : Byte) : Statement (.pcmSetVolume voice volume) := of_packWord rfl rfl rfl

theorem pcmSetMaster (volume : Byte) : Statement (.pcmSetMaster volume) := of_packWord rfl rfl rfl

theorem evTimerIrq : Statement .evTimerIrq := of_packWord rfl rfl rfl

theorem evFillIrq : Statement .evFillIrq := of_packWord rfl rfl rfl

theorem evTickReturn : Statement .evTickReturn := of_packWord rfl rfl rfl

end Sys2Proof.Laws.OpcodeField
end

