-- ==== Sys2Proof/Laws/Run.lean ====
section
/-!
SUPPORT. What runs of accesses do: a list of accesses that ask for nothing more, the polling loop of `PCM_INIT`, and more
accesses allowed than a command has.
-/

namespace Sys2Proof.Machine

/-- A command that is done within `n` accesses is done within more, with the same state. -/
theorem runAccesses_done_mono {m n : Nat} {ops : List Access} {s t : State} (h : runAccesses m ops s = (t, []))
    (hmn : m ≤ n) : runAccesses n ops s = (t, []) := by
  obtain ⟨d, rfl⟩ := Nat.exists_eq_add_of_le hmn
  rw [runAccesses_add, h, runAccesses_nil]

/-- Accesses that ask for nothing more run one after another. -/
theorem runAccesses_straight (as ops : List Access) (s : State)
    (h : ∀ a ∈ as, ∀ t, (runAccess a t).2 = some []) (n : Nat) :
    runAccesses (as.length + n) (as ++ ops) s = runAccesses n ops (as.foldl (fun t a => (runAccess a t).1) s) := by
  induction as generalizing s with
  | nil => simp
  | cons a as ih =>
    have ha := h a (by simp) s
    rw [List.length_cons, show as.length + 1 + n = (as.length + n) + 1 by omega, List.cons_append, runAccesses_succ]
    cases hr : runAccess a s with
    | mk t more =>
      rw [hr] at ha
      simp only at ha
      subst ha
      simpa [hr] using ih t (fun b hb => h b (by simp [hb]))

/-- What every access and a change of the unfinished rest keep, a command keeps. -/
theorem State.runCommand_keeps {P : State → Prop} (h : ∀ a s, P s → P (runAccess a s).1)
    (hh : ∀ s ops, P s → P { s with hostOps := ops }) (s : State) (ops : List Access) (hs : P s) :
    P (s.runCommand ops) := by
  have hr := runAccesses_keeps h (s.budget ops) ops s hs
  unfold State.runCommand
  simp only
  split
  · exact hr
  · exact hh _ _ hr

/-- What every access and a change of the unfinished rest keep, the resumption of a cut command keeps. -/
theorem State.resumeHost_keeps {P : State → Prop} (h : ∀ a s, P s → P (runAccess a s).1)
    (hh : ∀ s ops, P s → P { s with hostOps := ops }) (s : State) (hs : P s) : P s.resumeHost :=
  hh _ _ (runAccesses_keeps h (s.budget s.hostOps) s.hostOps s hs)

/-- What a command's own writes, its accesses and a raised fault keep, every command keeps: the rule to prove a property
of all the operations by. -/
theorem exec_command_keeps {P : State → Prop} (h : ∀ a s, P s → P (runAccess a s).1)
    (hh : ∀ s ops, P s → P { s with hostOps := ops })
    (hf : ∀ s code op, P s → P (s.raiseCmdFault code op))
    (ht : ∀ s d f, P s → P { s with timerInited := true, timerDiv := d, timerFreq := f, tickCount := 0 })
    (hr : ∀ s, P s → P { s with rsp := some s.tickCount })
    (hm : ∀ s, P s → P { s with fmInited := true })
    (hp : ∀ s, P s → P { s with pcmInited := true, initStep := 0 })
    (hn : ∀ s j b, P s → P (State.setNote s j b)) (hv : ∀ s j b, P s → P (State.setVol s j b))
    (ho : ∀ s src, P s → P { s with storeOrder := src }) (hx : ∀ s x, P s → P { s with master := x })
    {i : Instr} {s t : State} (he : i.isEvent = false) (hs : P s) (hx' : exec i s = .next t) : P t := by
  have key : ∀ (op : Op) (act : State → State), P (act s) → P (s.command op act) := by
    intro op act ha
    rcases s.command_cases op act with e | ⟨-, e⟩ | ⟨-, e⟩ <;> rw [e]
    · exact hs
    · exact hf _ _ _ hs
    · exact ha
  have chk : ∀ (op : Op) (o : Option Byte) (act : State → State), P (act s) → P (s.checked op o act) := by
    intro op o act ha
    cases o
    · exact ha
    · exact hf _ _ _ hs
  have run := fun s ops => State.runCommand_keeps h hh s ops
  cases i <;> first | (cases hx'; apply key) | cases he
  · split
    · exact hf _ _ _ hs
    · exact run _ _ (ht _ _ _ hs)
  · exact hr _ hs
  · split
    · exact hf _ _ _ hs
    · exact run _ _ (hm _ hs)
  · exact chk _ _ _ (run _ _ hs)
  · apply chk
    split
    · exact run _ _ hs
    · exact run _ _ hs
  · exact hs
  · split
    · exact hf _ _ _ hs
    · exact run _ _ (hp _ hs)
  · exact chk _ _ _ (hn _ _ _ hs)
  · apply chk
    split
    · exact run _ _ (ho _ _ hs)
    · exact run _ _ hs
  · exact chk _ _ _ (hv _ _ _ hs)
  · exact hx _ _ hs

/-- A command of such accesses that no interrupt cuts makes them all, one after another. -/
theorem State.runCommand_straight {s : State} {ops : List Access} (hw : s.runsWhole = true)
    (hs : ∀ a ∈ ops, ∀ t, (runAccess a t).2 = some []) (hh : s.tickOpen = false → s.hostOps = []) :
    s.runCommand ops = ops.foldl (fun t a => (runAccess a t).1) s := by
  apply State.runCommand_done
  · rw [State.budget_of_whole _ hw]
    simpa using runAccesses_straight ops [] s hs s.cfg.resetPollMax
  · intro ht
    have key : ∀ (as : List Access) (t : State), t.hostOps = [] →
        (as.foldl (fun t a => (runAccess a t).1) t).hostOps = [] := by
      intro as
      induction as with
      | nil => exact fun t h => h
      | cons a as ih => exact fun t h => ih _ (by simp [runAccess_frame, h])
    exact key ops s (hh ht)

/-- FM register writes ask for nothing more. -/
theorem fmWrites_straight (ws : List FmRecord) : ∀ a ∈ fmWrites ws, ∀ t, (runAccess a t).2 = some [] := by
  intro a ha t
  simp only [fmWrites, List.mem_flatMap, fmWrite] at ha
  obtain ⟨w, -, h⟩ := ha
  simp only [List.mem_cons, List.not_mem_nil, or_false] at h
  rcases h with rfl | rfl <;> rfl

/-- The answer of a port read with a listed byte. -/
theorem State.portAnswer_cons {s : State} {b : Byte} {bs : List Byte} (h : s.portDev.listed = b :: bs) :
    s.portAnswer = b := by
  simp [State.portAnswer, Source.next, h]

/-- The source after a port read with a listed byte. -/
theorem State.portDev_portRead_cons {s : State} {b : Byte} {bs : List Byte} (h : s.portDev.listed = b :: bs)
    (a : PortAddr) : (s.portRead a).portDev = ⟨bs, s.portDev.drawn + 1⟩ := by
  simp [State.portRead, Source.next, h]

/-- A counted port read with a listed byte, as an update. -/
theorem State.initRead_cons {s : State} {b : Byte} {bs : List Byte} (h : s.portDev.listed = b :: bs) (a : PortAddr) :
    s.initRead a = { s with
      portDev := ⟨bs, s.portDev.drawn + 1⟩, portTrace := s.portTrace ++ [.read a b], initStep := s.initStep + 1 } := by
  simp [State.initRead, State.portRead, State.portAnswer, Source.next, h]

/-- The polling loop while bit 7 stays clear and the bound is not reached (R153): one access a status byte. -/
theorem runAccesses_poll_clear (sts more : List Byte) (ops : List Access) (n : Nat) (s : State)
    (hb : ∀ b ∈ sts, b.getLsbD 7 = false) (hl : s.portDev.listed = sts ++ more)
    (hm : s.pollCnt + sts.length < s.cfg.resetPollMax) :
    runAccesses (sts.length + n) (.poll :: ops) s = runAccesses n (.poll :: ops)
      { s with
        portDev := ⟨more, s.portDev.drawn + sts.length⟩
        portTrace := s.portTrace ++ sts.map (PortAccess.read s.cfg.ports.dspRstatus)
        initStep := s.initStep + sts.length
        pollCnt := s.pollCnt + sts.length } := by
  induction sts generalizing s with
  | nil =>
    have : (⟨more, s.portDev.drawn⟩ : Source Byte) = s.portDev := by
      simp only [List.nil_append] at hl
      rw [← hl]
    simp [this]
  | cons b sts ih =>
    have hb0 : b.getLsbD 7 = false := hb b (by simp)
    have hl' : s.portDev.listed = b :: (sts ++ more) := hl
    rw [List.length_cons] at hm ⊢
    rw [show sts.length + 1 + n = (sts.length + n) + 1 by omega, runAccesses_succ]
    have hne : ¬ s.pollCnt + 1 = s.cfg.resetPollMax := by omega
    simp only [runAccess, runPoll, State.portAnswer_cons hl', State.initRead_cons hl', hb0, hne, if_false,
      Bool.false_eq_true, List.cons_append, List.nil_append]
    rw [ih]
    · simp [Nat.add_assoc, Nat.add_comm]
    · exact fun c hc => hb c (by simp [hc])
    · rfl
    · simp only; omega

end Sys2Proof.Machine
end

