-- ==== Sys2Proof/Tests/Slice0.lean ====
section
/-!
SUPPORT. Tests of single steps, with the expected values of spec/95_test_vectors.md (the vector is named in each comment), and
for each statement with hypotheses a witness that they can be met together. The reference configuration is that file's.
-/

namespace Sys2Proof.Tests

/-! One kernel evaluation at a time: the many small closed theorems below would else each start a thread of their own. -/

set_option Elab.async false

open Sys2Proof Sys2Proof.Machine Sys2Proof.Claims

/-- The step answers a next state with this property. -/
def answers (o : Host.Outcome State Fault Refusal) (p : State → Bool) : Bool :=
  match o with
  | .next s => p s
  | .fault _ => false
  | .refused _ => false

/-- Reset, PCM build. -/
def pcm : State := State.reset

/-- Reset, FM build. -/
def fm : State := State.resetWith (Config.reference .fm)

/-- In the COUNT step of a fill. -/
def counting : State := { pcm with fillState := .count, inFill := true, pcmInited := true, dmaRun := true }

/-- In the MIX step of a fill, the master volume at its highest. -/
def mixing : State := { counting with fillState := .mix, master := 255 }

/-- In a tick window. -/
def ticking : State := { counting with fillState := .waitTick, tickOpen := true, tickCnt := 3 }

/-- A fill of a build whose playback line is 10. -/
def lineTen : State := { counting with cfg := { Config.reference .pcm with pcmIrqLine := 10 } }

/-- Run a word as the first operation from a state. -/
def ran (s : State) (w : Nat) : Host.Outcome State Fault Refusal := step (s.withFetchWord 32 w)

/-- The word is a command fault with this code and opcode byte. -/
def faults (s : State) (w : Nat) (code op : Byte) : Bool :=
  answers (ran s w) fun t => t.halted && t.faultCode == code && t.faultDiag == op && t.portTrace.isEmpty

/-! ## Well-formed operands: one refused term for each check -/

theorem test_wellFormed_fmVoice : (Instr.fmAssignInstrument 6 0).wellFormed = false ∧
    (Instr.fmSetNote 6 4 10).wellFormed = false ∧ (Instr.fmSetNote 5 4 10).wellFormed = true := by decide

theorem test_wellFormed_pcmVoice : (Instr.pcmSetVolume 8 0).wellFormed = false ∧
    (Instr.pcmSetWaveform 8 0 0).wellFormed = false ∧ (Instr.pcmSetVolume 7 0).wellFormed = true := by decide

theorem test_wellFormed_pcmNote : (Instr.pcmSetNote 0 0 13).wellFormed = false ∧
    (Instr.pcmSetNote 0 16 0).wellFormed = false ∧ (Instr.pcmSetNote 7 15 12).wellFormed = true := by decide

/-! ## Configurations: the default is run, one that breaks each check is not -/

theorem test_config_default : (Config.reference .pcm).wf = true ∧ (Config.reference .fm).wf = true := by decide +kernel

theorem test_config_buffer : Config.wfBuffer { Config.reference .pcm with bufferSamples := 7 } = false ∧
    Config.wfBuffer { Config.reference .pcm with bufPhys := 0x01FFFE } = false := by decide

theorem test_config_rates : Config.wfRates { Config.reference .pcm with samplesPerTick := 0 } = false := by decide

theorem test_config_waves : Config.wfWaves { Config.reference .pcm with waveSquare := 0 } = false := by decide +kernel

theorem test_config_notes : Config.wfNotes { Config.reference .pcm with numOctaves := 9 } = false := by decide +kernel

/-- R211: sixteen octaves of R39 are the largest multipliers that run. -/
theorem test_config_multipliers :
    Config.wfNotes { Config.reference .pcm with numOctaves := 16, octMul := powersOfTwo 16 } = true ∧
    Config.wfNotes { Config.reference .pcm with octMul := [1, 2, 4, 8, 16, 32, 64, 2 ^ 15 + 1] } = false := by decide +kernel

theorem test_config_fm : Config.wfFm { Config.reference .fm with op2Slot := [0, 4, 5, 11, 12, 13] } = false := by
  decide +kernel

/-! ## Decoding: the words of vectors E1 to E22, written from the fields of R90 -/

theorem test_decode_timer : decode 0x01000000 = .instr .timerInit ∧ decode 0x02000000 = .instr .timerGetTicks := by
  decide +kernel

theorem test_decode_fm : decode 0x10000000 = .instr .fmInit ∧ decode 0x11030100 = .instr (.fmAssignInstrument 3 1) ∧
    decode 0x1202040A = .instr (.fmSetNote 2 4 10) ∧ decode 0x12020000 = .instr (.fmSetNote 2 0 0) ∧
    decode 0x130000FF = .instr (.fmSetMaster 255) := by decide +kernel

theorem test_decode_pcm : decode 0x20000000 = .instr .pcmInit ∧ decode 0x2100040A = .instr (.pcmSetNote 0 4 10) ∧
    decode 0x22010180 = .instr (.pcmSetWaveform 1 1 128) ∧ decode 0x23070080 = .instr (.pcmSetVolume 7 128) ∧
    decode 0x240000FF = .instr (.pcmSetMaster 255) := by decide +kernel

theorem test_decode_events : decode 0x80000000 = .instr .evTimerIrq ∧ decode 0x81000000 = .instr .evFillIrq ∧
    decode 0x82000000 = .instr .evTickReturn := by decide +kernel

theorem test_decode_reserved : decode 0x24000100 = .reservedField .pcmSetMaster ∧
    decode 0x11000001 = .reservedField .fmAssignInstrument ∧ decode 0x25000000 = .illegalOpcode 0x25 ∧
    decode 0x80000001 = .reservedField .evTimerIrq := by decide +kernel

theorem test_table_words : decodeTableWord 32 0x1202040A = some (.fmSetNote 2 4 10) ∧
    decodeTableWord 32 0x00000000 = none ∧ decodeTableWord 24 0x010000 = none := by decide +kernel

/-- E14 to E20 and E22: opcode, backend, reserved field, in that order. -/
theorem test_decode_faults : faults pcm 0x00000000 0x20 0x00 = true ∧ faults pcm 0x25000000 0x20 0x25 = true ∧
    faults pcm 0x24000100 0x28 0x24 = true ∧ faults pcm 0x23070180 0x28 0x23 = true ∧
    faults pcm 0x23090180 0x28 0x23 = true := by decide +kernel

/-- E16 to E18: an event word on `cmd`, and the other backend's commands. -/
theorem test_present_faults :
    answers (presentWord 0x81000000 pcm) (fun t => t.faultCode == 0x20 && t.faultDiag == 0x81) = true ∧
    answers (presentWord 0x1202040A pcm) (fun t => t.faultCode == 0x21 && t.faultDiag == 0x12) = true ∧
    answers (presentWord 0x2100040A fm) (fun t => t.faultCode == 0x21 && t.faultDiag == 0x21) = true := by decide +kernel

/-! ## The system timer -/

/-- T1, T3, T5, T6, T8, T9, T11: the divisor. -/
theorem test_timer_divisors : [1, 19, 100, 1000, 4670, 8000, 65535].map (bestDivisor 3579545 3) =
    [65536, 62799, 11932, 1193, 256, 149, 18] := by decide +kernel

/-- The achieved rates of the same rows. -/
theorem test_timer_rates : [65536, 62799, 11932, 1193, 256, 149, 18].map (roundedRate 3579545 3) =
    [18, 19, 100, 1000, 4661, 8008, 66288] := by decide +kernel

/-- T17. -/
theorem test_timerInit : answers (ran pcm 0x01000000) (fun t =>
    t.portTrace == [.write 0x43 0x36, .write 0x40 0xA9, .write 0x40 0x04] && t.timerDiv == 1193 && t.timerFreq == 1000 &&
      t.timerRun && t.timerInited) = true := by decide +kernel

/-- T16. -/
theorem test_timerInit_twice : faults { pcm with timerInited := true } 0x01000000 0x27 0x01 = true := by decide +kernel

/-- T14 and the end of T12. -/
theorem test_timerGetTicks : answers (ran pcm 0x02000000) (fun t => t.rsp == some 0 && !t.halted) = true ∧
    answers (ran { fm with tickCount := 5 } 0x02000000) (fun t => t.rsp == some 5) = true := by decide +kernel

/-- T13. -/
theorem test_timerIrq_wraps : answers (ran { pcm with tickCount := 0xFFFFFFFF } 0x80000000)
    (fun t => t.tickCount == 0 && !t.pendTimer) = true := by decide +kernel

/-- T15: a second request while one waits is lost. -/
theorem test_timerDev_loses : State.timerDevStep { pcm with timerRun := true, pendTimer := true } =
    { pcm with timerRun := true, pendTimer := true } := by decide +kernel

/-! ## The FM encoder -/

/-- F1. -/
theorem test_fmInit : answers (ran fm 0x10000000) (fun t =>
    t.fmTrace == [⟨.secondary, 0x05, 0x01⟩, ⟨.primary, 0x01, 0x20⟩] && t.fmInited &&
      t.portTrace == [.write 0x38A 0x05, .write 0x38B 0x01, .write 0x388 0x01, .write 0x389 0x20]) = true := by
  decide +kernel

/-- F2. -/
theorem test_fmAssign : answers (ran fm 0x11030100) (fun t => t.fmTrace.map (fun w => (w.reg, w.val)) ==
    [(0x28, 0x35), (0x48, 0x33), (0x68, 0x31), (0x88, 0x32), (0xE8, 0x34), (0x2B, 0x3A), (0x4B, 0x38), (0x6B, 0x36),
      (0x8B, 0x37), (0xEB, 0x39), (0xC3, 0x30), (0xA3, 0x00), (0xB3, 0x00)] && t.fmImageAt .primary 0xE8 == some 0x34 &&
      t.portTrace.length == 26) = true := by decide +kernel

/-- F13. -/
theorem test_fmAssign_patch : faults fm 0x11000200 0x26 0x11 = true := by decide +kernel

/-- F3a. -/
theorem test_fmNote_on : answers (ran fm 0x1202040A) (fun t =>
    t.fmTrace == [⟨.primary, 0xA2, 0x44⟩, ⟨.primary, 0xB2, 0x32⟩] && t.keycache[2] == 0x32) = true := by decide +kernel

/-- F5, from the cache F3a leaves: the octave is not checked in the key-off arm. -/
theorem test_fmNote_off : answers (ran { fm with keycache := fm.keycache.set 2 0x32 } 0x12020900) (fun t =>
    t.fmTrace == [⟨.primary, 0xB2, 0x12⟩] && t.keycache[2] == 0x32) = true := by decide +kernel

/-- F8. -/
theorem test_fmMaster : answers (ran fm 0x130000FF) (fun t => t.portTrace == [] && t.master == 0 && !t.halted) = true := by
  decide +kernel

/-! ## PCM initialisation -/

/-- I1: the state and the first and last port accesses. -/
theorem test_pcmInit : answers (ran { pcm with portDev := ⟨[0x00, 0x00, 0x80, 0xAA, 0x04, 0x05, 0x02], 0⟩ } 0x20000000)
    (fun t => t.pcmState == .armed && t.pollCnt == 3 && t.dmaRun && t.sample 1 == 0x0180 && t.sample 3 == 0x0480 &&
      t.sample 4 == 0 && t.portTrace.length == 31 && t.portTrace.drop 15 ==
        [.write 0xD6 0x59, .write 0xC4 0xA0, .write 0xC4 0x91, .write 0xC6 0x07, .write 0xC6 0x00, .write 0x8B 0x01,
         .write 0xD4 0x01, .write 0x22C 0x41, .write 0x22C 0x56, .write 0x22C 0x22, .write 0x22C 0xB6, .write 0x22C 0x10,
         .write 0x22C 0x03, .write 0x22C 0x00, .write 0x22C 0xD1, .write 0x22C 0xD6]) = true := by decide +kernel

/-- I4: the version failure, its line and its trace. -/
theorem test_pcmInit_version : answers (ran { pcm with portDev := ⟨[0xFF, 0xAA, 0x03, 0x02], 0⟩ } 0x20000000) (fun t =>
    t.faultCode == 0x03 && t.faultDiag == 0x32 && t.halted && t.pcmState == .failed && t.portTrace.length == 7 &&
      t.diagLine == some "FAILED TO RESET SB16: 3/50".toList) = true := by decide +kernel

/-! ## The mixer commands -/

/-- PC2 and PC3. -/
theorem test_pcmNote : answers (ran pcm 0x2103070C) (fun t => t.voices[3].note == 0x7C) = true ∧
    answers (ran pcm 0x21030F00) (fun t => t.voices[3].note == 0xF0 && !t.halted) = true := by decide +kernel

/-- PC4 to PC7. -/
theorem test_pcmNote_ranges : faults pcm 0x21030801 0x24 0x21 = true ∧ faults pcm 0x21031000 0x24 0x21 = true ∧
    faults pcm 0x2103040D 0x23 0x21 = true ∧ faults pcm 0x21080401 0x22 0x21 = true := by decide +kernel

/-- PC9 and PC10. -/
theorem test_pcmWaveform : answers (ran pcm 0x22020207) (fun t => t.voices[2].wave == 2 && t.voices[2].vol == 7) = true ∧
    faults pcm 0x22020407 0x25 0x22 = true := by decide +kernel

/-- PC14: cut after one store, the voice holds one new byte, as the order chosen says. -/
theorem test_pcmWaveform_torn :
    answers (exec (.pcmSetWaveform 0 1 10)
      { pcm with voices := pcm.voices.set 0 ⟨0, 0, 255, 0⟩, slice := some 1, storeOrder := ⟨[true], 0⟩ })
      (fun t => t.voices[0].wave == 0 && t.voices[0].vol == 10 && t.hostOps == [.storeWave 0 1]) = true := by
  decide +kernel

/-- PC11, and step 2 of program P4. -/
theorem test_pcmVolume : answers (ran pcm 0x23070080) (fun t => t.voices[7].vol == 128) = true ∧
    faults pcm 0x2308000A 0x22 0x23 = true := by decide +kernel

/-- Steps 1 and 3 of program P4: a halted block ignores the command. -/
theorem test_pcmMaster : answers (ran pcm 0x240000C8) (fun t => t.master == 200) = true ∧
    answers (ran { pcm with master := 200, halted := true, faultCode := 0x22 } 0x240000FF)
      (fun t => t.master == 200) = true := by decide +kernel

/-! ## The fill engine -/

/-- A2. -/
theorem test_fillIrq : answers (ran pcm 0x81000000) (fun t => !t.pendFill && t.inFill && t.drainHalf == .back &&
    t.fillI == 0 && t.fillState == .count && t.fillBase == 0) = true := by decide +kernel

/-- A7 and A13: a request that is not accepted stays pending. -/
theorem test_fillIrq_masked : answers (exec .evFillIrq { pcm with pendFill := true, inFill := true }) (fun t => t.pendFill) &&
    answers (exec .evFillIrq { pcm with pendFill := true, halted := true }) (fun t => t.pendFill) = true := by
  decide +kernel

/-- Step 9 of program P1. -/
theorem test_tickReturn : answers (ran pcm 0x82000000) (fun t => !t.tickOpen && t.fillState == .mix) = true := by
  decide +kernel

/-- A9. -/
theorem test_tickReturn_outside : answers (exec .evTickReturn { pcm with fillState := .mix, tickOpen := true })
    (fun t => t.tickOpen && t.fillState == .mix) = true := by decide +kernel

/-- Step 8 of program P1: the counter at 1 reloads and ticks. -/
theorem test_count_tick : answers (engineStep { counting with tickCnt := 1, fillI := 2, samplesDone := 2 }) (fun t => t.tickCnt == 3 && t.tickTrace == [2] && t.tickOpen && t.fillState == .waitTick) = true := by
  decide +kernel

/-- A4: line 10 acknowledges the second controller first. -/
theorem test_exit_line10 : answers (engineStep { lineTen with fillState := .exit, portDev := ⟨[0x5A], 0⟩ })
    (fun t => t.portTrace == [.read 0x22F 0x5A, .write 0xA0 0x20, .write 0x20 0x20] && !t.inFill) = true := by decide +kernel

/-- M1: contribution and master scaling, floors included. -/
theorem test_scale : [(16, 255, 255), (-3, 255, 255), (-127, 255, 255), (-128, 255, 255), (-1, 1, 255), (1, 255, 1)].map
      (fun x : Int × Byte × Byte => (voiceScale x.1 x.2.1, masterScale (voiceScale x.1 x.2.1) x.2.2)) =
    [(2040, 2032), (-383, -382), (-16193, -16130), (-16320, -16257), (-1, -1), (127, 0)] := by decide +kernel

/-- The increments of 2.6, with the floor after the octave. -/
theorem test_increments : [0x01, 0x0A, 0x4A, 0x5A, 0x7C].map (phaseInc (Config.reference .pcm)) =
    [some 48, some 81, some 1307, some 2615, some 11742] := by decide +kernel

/-- M3, second row: the phase wraps. -/
theorem test_mix_wraps : answers (engineStep { mixing with voices := pcm.voices.set 0 ⟨0x4A, 0, 255, 65000⟩ }) (fun t => t.voices[0].phase == 771 && t.sample 4 == 0x0476) = true := by
  decide +kernel

/-- M8, eight voices: the sum wraps to 16 bits. -/
theorem test_mix_eight : answers (engineStep { mixing with voices := Vector.replicate 8 ⟨0x4A, 1, 255, 0⟩ }) (fun t => t.sample 4 == 0xF806) = true := by decide +kernel

/-- M9, first draw. -/
theorem test_mix_noise : answers (engineStep { mixing with voices := pcm.voices.set 0 ⟨0x4A, 2, 255, 0⟩, noise := ⟨[0x80, 0x7F], 0⟩ })
    (fun t => t.voices[0].phase == 1307 && t.sample 4 == 0xC07F && t.noise == ⟨[0x7F], 1⟩) = true := by decide +kernel

/-- A6: a boundary with a request still waiting is recorded as lost. -/
theorem test_dma_overrun : answers (dmaStep { pcm with dmaRun := true, drainPos := 7, pendFill := true })
    (fun t => t.drainPos == 0 && t.fillOverrun && t.pendFill && t.pcmOut == [0]) = true := by decide +kernel

/-! ## Witnesses: the hypotheses of each statement hold together, a boundary value for each clause -/

theorem witness_DecodeAndEncodeAgree : decode 0x1205FFFF = .instr (.fmSetNote 5 255 255) := by decide +kernel

theorem witness_CommandWordFaultsInOrder :
    (pcm.halted = false ∧ pcm.cmdReady = true ∧ fm.halted = false ∧ fm.cmdReady = true) ∧
    (BitVec.extractLsb' 24 8 (0x25000000 : Word)) ∉ commandOps ∧
    ((BitVec.extractLsb' 24 8 (0x13000000 : Word)) ∈ commandOps ∧
      wrongBackend pcm.cfg.backend (BitVec.extractLsb' 24 8 (0x13000000 : Word)) ∧
      wrongBackend fm.cfg.backend (BitVec.extractLsb' 24 8 (0x20000000 : Word))) ∧
    (¬ wrongBackend pcm.cfg.backend (BitVec.extractLsb' 24 8 (0x23070180 : Word)) ∧ reservedNonzero 0x23070180) ∧
    (¬ wrongBackend pcm.cfg.backend (BitVec.extractLsb' 24 8 (0x240000FF : Word)) ∧ ¬ reservedNonzero 0x240000FF) := by
  have hp : pcm.cfg.backend = .pcm := rfl
  have hf : fm.cfg.backend = .fm := rfl
  rw [hp, hf]
  unfold wrongBackend reservedNonzero
  decide +kernel

/-- The Host about to present a word. -/
def hosting (k : Option Nat) : State := { pcm with turns := ⟨[.host k], 0⟩, hostWords := [0x240000FF] }

theorem witness_HostTurnRunsTheWord (k : Option Nat) : (hosting k).cfg.wf = true ∧ (hosting k).nextTurn = .host k ∧
    (hosting k).halted = false ∧ (hosting k).hostReady = true ∧ (hosting k).hostWords = 0x240000FF :: [] ∧
    decode 0x240000FF = .instr (.pcmSetMaster 255) ∧ (Instr.pcmSetMaster 255).isEvent = false :=
  ⟨test_config_default.1, rfl, rfl, rfl, rfl, test_decode_pcm.2.2.2.2, rfl⟩

/-- Vectors E15 and E19 through a whole step: an illegal word raises its fault in the Host's turn. -/
theorem witness_HostTurnRunsTheWord_illegal :
    answers (step { hosting none with hostWords := [0x25000000] }) (fun t => t.halted && t.faultCode == 0x20) &&
    answers (step { hosting none with hostWords := [0x24000100] }) (fun t => t.halted && t.faultCode == 0x28) = true := by
  decide +kernel

/-- The Sequencer about to act. -/
def sequencing (a : SeqAct) : State := { ticking with turns := ⟨[.sequencer], 0⟩, seqActs := [a] }

theorem witness_SequencerTurnRunsTheWord : let s := sequencing (.command 0x240000FF)
    s.cfg.wf = true ∧ s.nextTurn = .sequencer ∧ s.tickOpen = true ∧ s.seqActs = .command 0x240000FF :: [] ∧
    decode 0x240000FF = .instr (.pcmSetMaster 255) ∧ (Instr.pcmSetMaster 255).isEvent = false :=
  ⟨test_config_default.1, rfl, rfl, rfl, test_decode_pcm.2.2.2.2, rfl⟩

/-- A state with one turn to come. -/
def onTurn (t : Turn) : State := { pcm with turns := ⟨[t], 0⟩ }

theorem witness_OtherTurnsRunTheirEvents : pcm.cfg.wf = true ∧ (onTurn .timerIrq).nextTurn = .timerIrq ∧
    ((onTurn .fill).nextTurn = .fill ∧ State.acceptsFill { onTurn .fill with pendFill := true } = true ∧
      (onTurn .fill).acceptsFill = false) ∧
    ((sequencing .tickReturn).nextTurn = .sequencer ∧ (sequencing .tickReturn).tickOpen = true ∧
      (sequencing .tickReturn).seqActs = .tickReturn :: []) ∧
    ((onTurn .sequencer).nextTurn = .sequencer ∧ (onTurn .sequencer).tickOpen = false) ∧
    (onTurn .dma).nextTurn = .dma ∧ (onTurn .timerDev).nextTurn = .timerDev ∧ (onTurn .timerDev).timerRun = false :=
  ⟨test_config_default.1, rfl, ⟨rfl, rfl, rfl⟩, ⟨rfl, rfl, rfl⟩, ⟨rfl, rfl⟩, rfl, rfl, rfl⟩

theorem witness_OnlyBadConfigurationsAreRefused :
    Config.wf { Config.reference .pcm with bufferSamples := 7 } = false := by decide +kernel

/-- A halted block with requests and words waiting. -/
def stopped : State := { counting with halted := true, faultCode := 0x22, pendTimer := true, timerRun := true }

theorem witness_HaltedBlockIsFrozen : stopped.halted = true ∧
    answers (step { stopped with turns := ⟨[.dma], 0⟩, drainPos := 3 }) (fun t => t.pendFill && t.drainPos == 4) = true := by
  decide +kernel

theorem witness_TimerInitEffect : pcm.admits .timerInit = true ∧ fm.admits .timerInit = true ∧ pcm.runsWhole = true ∧
    pcm.timerInited = false := by decide +kernel

/-- The divisors 1 and 2 are equally close to 9 for a base clock of 12. -/
theorem witness_BestDivisorIsClosest : (1 : Nat) ≤ 12 ∧ bestDivisor 12 1 9 = 1 ∧
    |(12 : ℚ) / (1 : ℕ) / (1 : ℕ) - (9 : ℕ)| = |(12 : ℚ) / (1 : ℕ) / (2 : ℕ) - (9 : ℕ)| := by
  refine ⟨by decide, by decide +kernel, ?_⟩
  norm_num [abs_of_pos, abs_of_neg]

theorem witness_TimerFreqIsNearestHertz : (Config.reference .pcm).wf = true ∧
    roundedRate (Config.reference .pcm).clockNum (Config.reference .pcm).clockDen (timerDivisor (Config.reference .pcm)) <
      2 ^ 32 := ⟨test_config_default.1, by decide +kernel⟩

theorem witness_OnlyGetTicksResponds : pcm.admits .timerGetTicks = true ∧
    (Instr.timerInit ≠ .timerGetTicks ∧ ∃ t, exec .timerInit pcm = .next t) :=
  ⟨by decide +kernel, by decide, _, rfl⟩

theorem witness_TimerIrqEffect : let s := { stopped with halted := false }
    (s.pendTimer = true ∧ s.halted = false) ∧ pcm.pendTimer = false ∧ stopped.halted = true := by decide +kernel

theorem witness_TickCountCountsInterrupts :
    let s := { pcm with timerRun := true, turns := ⟨[.timerDev, .timerIrq, .timerDev, .timerIrq, .dma], 0⟩ }
    s.cfg.wf = true ∧ s.halted = false ∧ s.timerRun = true ∧
      s.turns.listed = (List.replicate 2 [Turn.timerDev, Turn.timerIrq]).flatten ++ [.dma] :=
  ⟨test_config_default.1, rfl, rfl, rfl⟩

theorem witness_TimerCommutesWithFill : ∃ t, engineStep { counting with pendTimer := true } = .next t := ⟨_, rfl⟩

theorem witness_FmInitEffect : fm.admits .fmInit = true ∧ fm.runsWhole = true ∧ fm.fmInited = false := by decide +kernel

theorem witness_FmAssignEffect : fm.admits .fmAssignInstrument = true ∧ fm.runsWhole = true ∧
    (5 : Byte).toNat < fm.cfg.fmVoices ∧ (5 : Byte).toNat < 6 ∧ fm.cfg.patches[(1 : Byte).toNat]? = some testPatch1 ∧
    fm.cfg.op1Slot[(5 : Byte).toNat]? = some 0x0A ∧ fm.cfg.op2Slot[(5 : Byte).toNat]? = some 0x0D := by decide +kernel

theorem witness_FmKeyOffEffect : fm.admits .fmSetNote = true ∧ fm.runsWhole = true ∧
    (5 : Byte).toNat < fm.cfg.fmVoices ∧ (5 : Byte).toNat < 6 := by decide +kernel

theorem witness_FmNoteOnEffect : fm.admits .fmSetNote = true ∧ fm.runsWhole = true ∧
    (5 : Byte).toNat < fm.cfg.fmVoices ∧ (5 : Byte).toNat < 6 ∧ (12 : Byte) ≠ fm.cfg.fmNoteNone ∧
    1 ≤ (12 : Byte).toNat ∧ (12 : Byte).toNat ≤ 12 ∧ (7 : Byte).toNat ≤ 7 ∧
    fm.cfg.fnum[(12 : Byte).toNat - 1]? = some 0x28B := by decide +kernel

theorem witness_KeyByteLayout : (7 : Byte).toNat ≤ 7 ∧ keyByte 0x28B 7 = 0x3E := by decide +kernel

theorem witness_FmSetMasterDoesNothing : fm.admits .fmSetMaster = true := by decide +kernel

theorem witness_FmPatchRoundTrip : defaultFm fm.cfg ∧ (∃ t, exec (.fmAssignInstrument 5 1) fm = .next t) :=
  ⟨⟨rfl, rfl, rfl⟩, exec_next _ _⟩

theorem witness_FmVoicesAreIndependent : defaultFm fm.cfg ∧ fm.cfg.wf = true ∧ fm.runsWhole = true ∧ (0 : Byte) ≠ 5 ∧
    fmVoiceCommand (.fmAssignInstrument 0 1) 0 ∧ fmVoiceCommand (.fmSetNote 5 7 12) 5 ∧
    fm.admits (Instr.fmAssignInstrument 0 1).op = true ∧
    answers (exec (.fmAssignInstrument 0 1) fm) (fun a => answers (exec (.fmSetNote 5 7 12) a) fun b => !b.halted) = true ∧
    answers (exec (.fmSetNote 5 7 12) fm) (fun c => answers (exec (.fmAssignInstrument 0 1) c) fun _ => true) = true :=
  ⟨⟨rfl, rfl, rfl⟩, test_config_default.2, rfl, by decide, .inl ⟨1, rfl⟩, .inr ⟨7, 12, rfl⟩, by decide +kernel,
    by decide +kernel, by decide +kernel⟩

theorem witness_SecondInitIsAFault :
    (State.admits { pcm with timerInited := true } .timerInit = true) ∧
    (State.admits { fm with fmInited := true } .fmInit = true) ∧
    (State.admits { pcm with pcmInited := true } .pcmInit = true) := by decide +kernel

/-- PCM build with the port answers listed. -/
def answering (bs : List Byte) : State := { pcm with portDev := ⟨bs, 0⟩ }

/-- Vectors I1 and I7: acknowledged on the last read allowed. -/
theorem witness_PcmInitSucceeds : let s := answering [0x00, 0x7F, 0x80, 0xAA, 0x04, 0x05, 0x02]
    s.cfg.wf = true ∧ s.mem.wf = true ∧ s.admits .pcmInit = true ∧ s.runsWhole = true ∧ s.pcmInited = false ∧
    (∀ b ∈ ([0x00, 0x7F] : List Byte), b.getLsbD 7 = false) ∧ (0x80 : Byte).getLsbD 7 = true ∧
    [(0x00 : Byte), 0x7F].length < s.cfg.resetPollMax ∧ s.cfg.dspMinMajor.toNat ≤ (4 : Byte).toNat ∧
    s.portDev.listed = [0x00, 0x7F] ++ [0x80, s.cfg.dspAck, 0x04, 0x05, s.cfg.ports.mixerIrqValue] ++ [] := by
  decide +kernel

/-- Vector I2. -/
theorem witness_PcmInitTimesOut : let s := answering [0x7F, 0x7F, 0x7F]
    s.admits .pcmInit = true ∧ s.runsWhole = true ∧ s.pcmInited = false ∧
    (∀ b ∈ ([0x7F, 0x7F] : List Byte) ++ [0x7F], b.getLsbD 7 = false) ∧
    [(0x7F : Byte), 0x7F].length + 1 = s.cfg.resetPollMax ∧ s.portDev.listed = [0x7F, 0x7F] ++ [0x7F] ++ [] := by
  decide +kernel

/-- Vector I3. -/
theorem witness_PcmInitWrongAcknowledge : let s := answering [0x80, 0x55]
    s.admits .pcmInit = true ∧ s.runsWhole = true ∧ s.pcmInited = false ∧ (0x80 : Byte).getLsbD 7 = true ∧
    ([] : List Byte).length < s.cfg.resetPollMax ∧ (0x55 : Byte) ≠ s.cfg.dspAck ∧
    s.portDev.listed = [] ++ [0x80, 0x55] ++ [] := by decide +kernel

/-- Vector I4. -/
theorem witness_PcmInitVersionTooLow : let s := answering [0xFF, 0xAA, 0x03, 0x02]
    s.admits .pcmInit = true ∧ s.runsWhole = true ∧ s.pcmInited = false ∧ (0xFF : Byte).getLsbD 7 = true ∧
    ([] : List Byte).length < s.cfg.resetPollMax ∧ (3 : Byte).toNat < s.cfg.dspMinMajor.toNat ∧
    s.portDev.listed = [] ++ [0xFF, s.cfg.dspAck, 0x03, 0x02] ++ [] := by decide +kernel

/-- Vector I6. -/
theorem witness_PcmInitMixerMismatch : let s := answering [0x80, 0xAA, 0x04, 0x05, 0x04]
    s.admits .pcmInit = true ∧ s.runsWhole = true ∧ s.pcmInited = false ∧ (0x80 : Byte).getLsbD 7 = true ∧
    ([] : List Byte).length < s.cfg.resetPollMax ∧ s.cfg.dspMinMajor.toNat ≤ (4 : Byte).toNat ∧
    (0x04 : Byte) ≠ s.cfg.ports.mixerIrqValue ∧
    s.portDev.listed = [] ++ [0x80, s.cfg.dspAck, 0x04, 0x05, 0x04] ++ [] := by decide +kernel

theorem witness_PcmSetNoteEffect : pcm.admits .pcmSetNote = true ∧
    ((7 : Byte).toNat < 8 ∧ (12 : Byte).toNat ≤ 12 ∧ (7 : Byte).toNat < pcm.cfg.numOctaves) ∧
    ((15 : Byte).toNat ≤ 15 ∧ ((0 : Byte) ≠ 0 → (15 : Byte).toNat < pcm.cfg.numOctaves)) := by decide +kernel

theorem witness_PcmSetWaveformEffect : pcm.admits .pcmSetWaveform = true ∧ pcm.runsWhole = true ∧
    (7 : Byte).toNat < 8 ∧
    (2 : Byte) ∈ [pcm.cfg.waveSine, pcm.cfg.waveSquare, pcm.cfg.waveNoise, pcm.cfg.waveTriangle] := by decide +kernel

theorem witness_HostWaveformMayBeTorn (b : Bool) : let s := { pcm with slice := some 1, storeOrder := ⟨[b], 0⟩ }
    s.admits .pcmSetWaveform = true ∧ s.tickOpen = false ∧ s.slice = some 1 ∧ s.storeOrder.listed = b :: [] :=
  ⟨rfl, rfl, rfl, rfl⟩

theorem witness_PcmVolumesEffect : pcm.admits .pcmSetVolume = true ∧ (7 : Byte).toNat < 8 ∧
    pcm.admits .pcmSetMaster = true := by decide +kernel

theorem witness_PcmRangeFaultsInOrder :
    (pcm.admits .pcmSetNote = true ∧ 8 ≤ (8 : Byte).toNat ∧ (7 : Byte).toNat < 8 ∧ 12 < (13 : Byte).toNat ∧
      15 < (16 : Byte).toNat ∧ ((1 : Byte) ≠ 0 ∧ pcm.cfg.numOctaves ≤ (8 : Byte).toNat)) ∧
    (pcm.admits .pcmSetWaveform = true ∧
      (4 : Byte) ∉ [pcm.cfg.waveSine, pcm.cfg.waveSquare, pcm.cfg.waveNoise, pcm.cfg.waveTriangle]) ∧
    pcm.admits .pcmSetVolume = true := by decide +kernel

theorem witness_FmRangeFaultsInOrder : fm.cfg.wf = true ∧ fm.admits .fmAssignInstrument = true ∧
    fm.admits .fmSetNote = true ∧ fm.cfg.fmVoices ≤ (6 : Byte).toNat ∧ (5 : Byte).toNat < fm.cfg.fmVoices ∧
    fm.cfg.patches.length ≤ (2 : Byte).toNat ∧ ((13 : Byte) ≠ fm.cfg.fmNoteNone ∧ 12 < (13 : Byte).toNat) ∧
    ((12 : Byte) ≠ fm.cfg.fmNoteNone ∧ 1 ≤ (12 : Byte).toNat ∧ 7 < (8 : Byte).toNat) := by decide +kernel

/-- The low side of the note clause needs a sentinel other than 0. -/
theorem witness_FmRangeFaultsInOrder_low : let s := State.resetWith { Config.reference .fm with fmNoteNone := 0xFF }
    s.cfg.wf = true ∧ s.admits .fmSetNote = true ∧ (0 : Byte) ≠ s.cfg.fmNoteNone ∧ (0 : Byte).toNat < 1 := by decide +kernel

theorem witness_IllFormedOperandsHalt :
    ((Instr.fmSetNote 6 0 0).wellFormed = false ∧ fm.admits (Instr.fmSetNote 6 0 0).op = true) ∧
    ((Instr.pcmSetNote 7 16 12).wellFormed = false ∧ pcm.admits (Instr.pcmSetNote 7 16 12).op = true) := by decide +kernel

theorem witness_CutCommandResumesWhole : pcm.cfg.wf = true ∧ pcm.halted = false ∧ pcm.tickOpen = false ∧
    pcm.hostReady = true ∧ Instr.pcmInit.isEvent = false := ⟨test_config_default.1, rfl, rfl, rfl, rfl⟩

theorem witness_OnlyFillOwnsItsRegisters : ∃ t, exec .pcmInit pcm = .next t := ⟨_, rfl⟩

theorem witness_TracesOnlyGrow :
    answers (step { onTurn .dma with dmaRun := true }) (fun t => t.pcmOut.length == 1) = true := by decide +kernel

theorem witness_FillIrqStartsTheEngine : let s := { pcm with pendFill := true }
    (s.cfg.backend = .pcm ∧ s.pendFill = true ∧ s.inFill = false ∧ s.halted = false) ∧
    pcm.pendFill = false ∧ counting.inFill = true ∧ stopped.halted = true := by decide +kernel

theorem witness_TickReturnResumesTheEngine :
    (ticking.cfg.backend = .pcm ∧ ticking.fillState = .waitTick ∧ ticking.halted = false) ∧
    counting.fillState ≠ .waitTick := by decide +kernel

theorem witness_CountdownAndTick : counting.halted = false ∧ counting.fillState = .count ∧
    (counting.fillI < counting.cfg.halfSamples ∧ counting.tickCnt ≠ 1) ∧
    (let s := { counting with tickCnt := 1, fillI := 3 }; s.fillI < s.cfg.halfSamples ∧ s.tickCnt = 1) ∧
    (let s := { counting with fillI := 4 }; s.fillI = s.cfg.halfSamples) ∧
    ticking.fillState = .waitTick ∧ pcm.fillState = .idle := by decide +kernel

theorem witness_SilentVoiceIsZero : (0xF0 : Byte).extractLsb' 0 4 = 0 := by decide +kernel

/-- Vector M2, sample 0. -/
theorem witness_TableVoiceSample : let c := Config.reference .pcm
    c.waveLen ≤ 2 ^ 24 ∧ 1 ≤ c.waveLen ∧ 1 ≤ (0x4A : Byte).toNat % 16 ∧
    c.noteBase[(0x4A : Byte).toNat % 16 - 1]? = some 7040 ∧ c.octMul[(0x4A : Byte).toNat / 16]? = some 16 ∧
    (0 : Byte) ≠ c.waveNoise ∧ c.waveTable 0 = some defaultSine ∧
    defaultSine[(0 + 7040 * 16 * c.waveLen / c.sampleRate.toNat) % (c.waveLen * 256) / 256]? = some 16 := by decide +kernel

/-- Vector M9, first sample. -/
theorem witness_NoiseVoiceSample : let c := Config.reference .pcm
    1 ≤ (0x4A : Byte).toNat % 16 ∧ c.noteBase[(0x4A : Byte).toNat % 16 - 1]? = some 7040 ∧
    c.octMul[(0x4A : Byte).toNat / 16]? = some 16 ∧ (2 : Byte) = c.waveNoise ∧
    (Source.mk [(0x80 : Byte), 0x7F] 0).listed = 0x80 :: [0x7F] ∧ pcm.noise.listed = [] := by decide +kernel

/-- Two voices sound, on table waveforms (vector M6). -/
def sounding : State :=
  { mixing with voices := (pcm.voices.set 0 ⟨0x4A, 0, 200, 0⟩).set 1 ⟨0x55, 3, 200, 0⟩, master := 200 }

theorem sounding_voices_ok (j : Fin 8) : sounding.voices[j].ok sounding.cfg = true := by
  revert j
  decide +kernel

/-- Vector M6, sample 0: the voices that sound contribute 1600 and 1400. -/
theorem witness_VoicesAreSummedInOrder (j : Fin 8) : mixVoice sounding.cfg sounding.voices[j] sounding.noise =
    .ok (if j = 0 then ⟨0x4A, 0, 200, 1307⟩ else if j = 1 then ⟨0x55, 3, 200, 1959⟩ else ⟨0, 0, 0, 0⟩,
      if j = 0 then 1600 else if j = 1 then 1400 else 0, sounding.noise) := by
  fin_cases j <;> exact Eq.refl _

theorem witness_MixStoresOneSample : sounding.halted = false ∧ sounding.fillState = .mix ∧ sounding.mem.wf = true ∧
    (∃ u acc, mixVoices allVoices sounding 0 = .ok (u, acc)) ∧
    1 * sounding.cfg.halfSamples + sounding.fillI < sounding.cfg.bufferSamples := by
  obtain ⟨u, acc, h, -⟩ := mixVoices_total (s := sounding) test_config_default.1 sounding_voices_ok allVoices 0
  exact ⟨rfl, rfl, rfl, ⟨u, acc, h⟩, by decide +kernel⟩

theorem witness_MixerRanges : ((-128 : Int) ≤ -128 ∧ (-128 : Int) ≤ 127) ∧
    ((List.replicate 8 (-16320 : Int)).length = 8 ∧ ∀ c ∈ List.replicate 8 (-16320 : Int), -16320 ≤ c ∧ c ≤ 16192) ∧
    ((∀ x ∈ [((127 : Int), (255 : Byte)), (-128, 255)], -128 ≤ x.1 ∧ x.1 ≤ 127) ∧
      ([((127 : Int), (255 : Byte)), (-128, 255)].map fun x => 64 * x.2.toNat).sum * (255 : Byte).toNat < 32768 * 256) := by
  decide +kernel

theorem witness_LouderIsNotQuieter : (-128 : Int) ≤ -128 ∧ (-128 : Int) ≤ 127 ∧ (0 : Byte).toNat ≤ (255 : Byte).toNat ∧
    (254 : Byte).toNat ≤ (255 : Byte).toNat := by decide +kernel

theorem witness_TwoVoicesAdd : (0 : Fin 8) ≠ 1 ∧
    (∀ j : Fin 8, j ≠ 0 → j ≠ 1 → sounding.voices[j].note.extractLsb' 0 4 = 0) ∧
    sounding.voices[(0 : Fin 8)].wave ≠ sounding.cfg.waveNoise ∧ sounding.voices[(1 : Fin 8)].wave ≠ sounding.cfg.waveNoise ∧
    (∃ u acc, mixVoices allVoices sounding 0 = .ok (u, acc)) ∧
    (∃ u acc, mixVoices allVoices (sounding.setNote 1 0) 0 = .ok (u, acc)) ∧
    (∃ u acc, mixVoices allVoices (sounding.setNote 0 0) 0 = .ok (u, acc)) := by
  have ok0 : ∀ j : Fin 8, (sounding.setNote 0 0).voices[j].ok (sounding.setNote 0 0).cfg = true := by decide +kernel
  have ok1 : ∀ j : Fin 8, (sounding.setNote 1 0).voices[j].ok (sounding.setNote 1 0).cfg = true := by decide +kernel
  obtain ⟨u, a, h, -⟩ := mixVoices_total (s := sounding) test_config_default.1 sounding_voices_ok allVoices 0
  obtain ⟨u0, a0, h0, -⟩ := mixVoices_total (s := sounding.setNote 0 0) test_config_default.1 ok0 allVoices 0
  obtain ⟨u1, a1, h1, -⟩ := mixVoices_total (s := sounding.setNote 1 0) test_config_default.1 ok1 allVoices 0
  exact ⟨by decide, by decide +kernel, by decide +kernel, by decide +kernel, ⟨u, a, h⟩, ⟨u1, a1, h1⟩, ⟨u0, a0, h0⟩⟩

theorem witness_ExitAcknowledges : let s := { counting with fillState := .exit }
    s.halted = false ∧ s.fillState = .exit := ⟨rfl, rfl⟩

theorem witness_FillRunsToItsEnd :
    let s := { sounding with fillState := .count, tickCnt := 5, drainHalf := .back, drainPos := 4 }
    s.inv = true ∧ s.halted = false ∧ s.fillState = .count ∧ s.fillI = 0 ∧ s.cfg.halfSamples < s.tickCnt.toNat := by
  decide +kernel

theorem witness_DmaStepEffect : pcm.dmaRun = false ∧ counting.dmaRun = true ∧
    (let s := { counting with drainPos := 0 }; s.drainPos < s.cfg.bufferSamples ∧
      (s.drainPos + 1) % s.cfg.bufferSamples % s.cfg.halfSamples ≠ 0) ∧
    (let s := { counting with drainPos := 3 }; s.drainPos < s.cfg.bufferSamples ∧
      (s.drainPos + 1) % s.cfg.bufferSamples % s.cfg.halfSamples = 0) ∧
    (let s := { counting with drainPos := 7 }; s.drainPos < s.cfg.bufferSamples ∧
      (s.drainPos + 1) % s.cfg.bufferSamples % s.cfg.halfSamples = 0) := by decide +kernel

theorem witness_ResetKeepsTheInvariant : (Config.reference .fm).wf = true := test_config_default.2

theorem witness_StepKeepsTheInvariant : (hosting none).inv = true ∧
    answers (step (hosting none)) (fun t => t.master == 255) = true := by decide +kernel

theorem witness_InvariantStepsNeverStop : sounding.inv = true ∧ sounding.fillState = .mix := by decide +kernel

theorem witness_FillWritesTheOtherHalf : let s := { sounding with drainHalf := .back, drainPos := 7 }
    s.inv = true ∧ s.fillOverrun = false ∧ s.pendFill = false ∧ s.fillState = .mix := by decide +kernel

/-- A Host turn with the rest of a command: the second store of a cut `PCM_SET_WAVEFORM`. -/
def suspended : State := { hosting none with hostOps := [.storeVol 1 0x80] }

theorem witness_HostTurnResumesOrWaits (k : Option Nat) :
    ((hosting k).cfg.wf = true ∧ (hosting k).nextTurn = .host k) ∧
    (suspended.halted = false ∧ suspended.inFill = false ∧ suspended.tickOpen = false ∧ suspended.hostOps ≠ []) ∧
    (counting.halted = false ∧ counting.inFill = true) ∧ ticking.tickOpen = true ∧
    (pcm.hostOps = [] ∧ pcm.hostWords = []) ∧ stopped.halted = true ∧
    (counting.cmdReady = false ∧ (Instr.pcmSetMaster 1).isEvent = false) :=
  ⟨⟨test_config_default.1, rfl⟩, ⟨rfl, rfl, rfl, by decide +kernel⟩, ⟨rfl, rfl⟩, rfl, ⟨rfl, rfl⟩, rfl, ⟨rfl, rfl⟩⟩

/-- R74: the suspended command's store is made before the next word is presented. -/
theorem test_hostTurn_resumes : answers (step suspended)
    (fun t => t.voices[1].vol == 0x80 && t.hostOps.isEmpty && t.hostWords == [0x240000FF] && t.master == 0) = true := by
  decide +kernel

theorem witness_NoIntermediateOverflow : (Config.reference .pcm).wf = true ∧
    phaseInc (Config.reference .pcm) 0x7C = some 11742 ∧
    (List.replicate 8 ((127 : Byte), (255 : Byte))).length ≤ 8 ∧ pcm.inv = true :=
  ⟨test_config_default.1, by decide +kernel, by decide, by decide +kernel⟩

end Sys2Proof.Tests
end

section
/-!
The steps of the agents (00_scope.md R8): what a turn of the schedule comes to, that no turn is refused, and the constraints on a
configuration as propositions. With them the statements of 00_scope.md.
-/

namespace Sys2Proof.Machine

open Sys2Proof.Claims

/-! ## What a step is -/

theorem step_of_wf {s : State} (h : s.cfg.wf = true) : step s = runTurn s.nextTurn s.tookTurn :=
  if_pos h

theorem step_of_not_wf {s : State} (h : ¬ s.cfg.wf = true) : step s = .refused .configuration :=
  if_neg h

/-- A step of a running configuration, where the next turn is known. -/
theorem step_of_nextTurn {s : State} {t : Turn} (h : s.cfg.wf = true) (ht : s.nextTurn = t) :
    step s = runTurn t s.tookTurn := by
  rw [step_of_wf h, ht]

@[simp] theorem State.acceptsFill_tookTurn (s : State) : s.tookTurn.acceptsFill = s.acceptsFill := rfl

/-! ## The turns -/

/-- A Host that may start a command presents its next word (R75 (b)). -/
theorem hostTurn_word {s : State} {w : Word} {ws : List Word} (hh : s.halted = false) (hr : s.hostReady = true)
    (hw : s.hostWords = w :: ws) : hostTurn s = presentWord w { s with hostWords := ws } := by
  obtain ⟨hfill, htick, hops⟩ := s.hostReady_iff.mp hr
  simp [hostTurn, hh, hfill, htick, hops, hw]

/-- In a tick window the Sequencer presents its next word (R75 (a)). -/
theorem sequencerTurn_word {s : State} {w : Word} {rest : List SeqAct} (ht : s.tickOpen = true)
    (hs : s.seqActs = .command w :: rest) : sequencerTurn s = presentWord w { s with seqActs := rest } := by
  simp [sequencerTurn, ht, hs]

/-- In a tick window the Sequencer returns from the tick (R197). -/
theorem sequencerTurn_return {s : State} {rest : List SeqAct} (ht : s.tickOpen = true)
    (hs : s.seqActs = .tickReturn :: rest) : sequencerTurn s = exec .evTickReturn { s with seqActs := rest } := by
  simp [sequencerTurn, ht, hs]

/-- Outside a tick window, or with nothing to do, the Sequencer is idle. -/
theorem sequencerTurn_idle {s : State} (h : s.tickOpen = false ∨ s.seqActs = []) : sequencerTurn s = .next s := by
  rcases h with ht | hs
  · simp [sequencerTurn, ht]
  · simp [sequencerTurn, hs]

theorem fillTurn_accepted {s : State} (h : s.acceptsFill = true) : fillTurn s = exec .evFillIrq s :=
  if_pos h

theorem fillTurn_engine {s : State} (h : s.acceptsFill = false) : fillTurn s = engineStep s := by
  simp [fillTurn, h]

theorem State.timerDevStep_running {s : State} (h : s.timerRun = true) : s.timerDevStep = { s with pendTimer := true } :=
  if_pos h

theorem State.timerDevStep_stopped {s : State} (h : s.timerRun = false) : s.timerDevStep = s := by
  simp [State.timerDevStep, h]

/-! ## No turn is refused -/

theorem exec_ne_refused (i : Instr) (s : State) (r : Refusal) : exec i s ≠ .refused r := by
  obtain ⟨t, ht⟩ := exec_next i s
  simp [ht]

theorem presentWord_ne_refused (w : Word) (s : State) (r : Refusal) : presentWord w s ≠ .refused r := by
  unfold presentWord
  split
  · simp
  · split
    · exact exec_ne_refused _ _ _
    · simp
    · simp

theorem hostTurn_ne_refused (s : State) (r : Refusal) : hostTurn s ≠ .refused r := by
  unfold hostTurn
  split
  · simp
  · split
    · simp
    · split
      · simp
      · split
        · simp
        · exact presentWord_ne_refused _ _ _

theorem sequencerTurn_ne_refused (s : State) (r : Refusal) : sequencerTurn s ≠ .refused r := by
  unfold sequencerTurn
  split
  · split
    · simp
    · exact presentWord_ne_refused _ _ _
    · exact exec_ne_refused _ _ _
  · simp

theorem countStep_ne_refused (s : State) (r : Refusal) : countStep s ≠ .refused r := by
  unfold countStep
  split
  · simp
  · split <;> simp

theorem mixStep_ne_refused (s : State) (r : Refusal) : mixStep s ≠ .refused r := by
  unfold mixStep
  split
  · simp
  · split <;> simp

theorem engineStep_ne_refused (s : State) (r : Refusal) : engineStep s ≠ .refused r := by
  unfold engineStep
  split
  · simp
  · cases s.fillState with
    | idle => simp
    | count => exact countStep_ne_refused s r
    | waitTick => simp
    | mix => exact mixStep_ne_refused s r
    | exit => simp [exitStep]

theorem fillTurn_ne_refused (s : State) (r : Refusal) : fillTurn s ≠ .refused r := by
  unfold fillTurn
  split
  · exact exec_ne_refused _ _ _
  · exact engineStep_ne_refused _ _

theorem dmaStep_ne_refused (s : State) (r : Refusal) : dmaStep s ≠ .refused r := by
  unfold dmaStep
  split
  · simp
  · split
    · simp
    · dsimp only
      split <;> simp

theorem runTurn_ne_refused (t : Turn) (s : State) (r : Refusal) : runTurn t s ≠ .refused r := by
  cases t with
  | host slice => exact hostTurn_ne_refused _ _
  | sequencer => exact sequencerTurn_ne_refused _ _
  | fill => exact fillTurn_ne_refused _ _
  | timerIrq => exact exec_ne_refused .evTimerIrq s r
  | dma => exact dmaStep_ne_refused _ _
  | timerDev => simp [runTurn]

/-- A step is refused exactly for a configuration the model does not run, and under that one name. -/
theorem step_refused_iff (s : State) (r : Refusal) :
    step s = .refused r ↔ ¬ s.cfg.wf = true ∧ r = .configuration := by
  by_cases h : s.cfg.wf = true
  · simp [step_of_wf h, runTurn_ne_refused, h]
  · simp [step_of_not_wf h, h, eq_comm]

/-! ## The constraints on a configuration -/

/-- R64: an even number of samples, at an even address, whose first and last byte lie in one 128 KiB page. -/
theorem Config.wfBuffer_iff (c : Config) : c.wfBuffer = true ↔
    (c.bufferSamples % 2 = 0 ∧ 2 ≤ c.bufferSamples ∧ c.bufferSamples ≤ 65536) ∧
    (c.bufPhys.toNat % 2 = 0 ∧ c.bufPhys.toNat / 131072 = (c.bufPhys.toNat + 2 * c.bufferSamples - 1) / 131072) := by
  simp only [Config.wfBuffer, Bool.and_eq_true, decide_eq_true_eq]
  omega

theorem Config.wfRates_iff (c : Config) : c.wfRates = true ↔
    c.sampleRate ≠ 0 ∧ c.samplesPerTick ≠ 0 ∧ c.tickCntReset ≠ 0 ∧ c.timerTargetHz ≠ 0 ∧ 1 ≤ c.clockNum ∧ 1 ≤ c.clockDen ∧
    1 ≤ c.resetPollMax ∧ c.pcmIrqLine ≠ 0 := by
  simp only [Config.wfRates, Bool.and_eq_true, decide_eq_true_eq, and_assoc]

/-- Where the four identifiers differ, those of a table are those other than the noise source's (R40, R41). -/
theorem Config.isWave_and_ne_noise_iff {c : Config} (h : c.waveIds.Nodup) (w : Byte) :
    c.isWave w = true ∧ w ≠ c.waveNoise ↔ w ∈ [c.waveSine, c.waveSquare, c.waveTriangle] := by
  simp only [Config.waveIds, List.nodup_cons, List.mem_cons, List.not_mem_nil, or_false, not_or] at h
  simp only [Config.isWave, Config.waveIds, decide_eq_true_eq, List.mem_cons, List.not_mem_nil, or_false]
  obtain ⟨⟨-, hsine, -⟩, ⟨hsquare, -⟩, hnoise, -⟩ := h
  constructor
  · tauto
  · rintro (rfl | rfl | rfl)
    · exact ⟨.inl rfl, hsine⟩
    · exact ⟨.inr (.inl rfl), hsquare⟩
    · exact ⟨.inr (.inr (.inr rfl)), Ne.symm hnoise⟩

theorem Config.wfWaves_iff (c : Config) : c.wfWaves = true ↔
    (1 ≤ c.waveLen ∧ c.waveLen ≤ 2 ^ 24) ∧
    (c.sineTable.length = c.waveLen ∧ c.squareTable.length = c.waveLen ∧ c.triangleTable.length = c.waveLen) ∧
    c.waveIds.Nodup ∧
    (0 ∈ c.waveIds ∧ c.defaultWave ∈ c.waveIds ∧ c.refWave ∈ [c.waveSine, c.waveSquare, c.waveTriangle]) := by
  simp only [Config.wfWaves, Bool.and_eq_true, decide_eq_true_eq, hasLength_iff, and_assoc]
  refine and_congr_right fun _ => and_congr_right fun _ => and_congr_right fun _ => and_congr_right fun _ =>
    and_congr_right fun _ => and_congr_right fun hids => ?_
  rw [Config.isWave_and_ne_noise_iff hids]
  simp only [Config.isWave, decide_eq_true_eq]

theorem Config.wfNotes_iff (c : Config) : c.wfNotes = true ↔
    c.noteBase.length = 12 ∧ (1 ≤ c.numOctaves ∧ c.numOctaves ≤ 16 ∧ c.octMul.length = c.numOctaves) ∧
    ∀ m ∈ c.octMul, m ≤ 2 ^ 15 := by
  simp only [Config.wfNotes, Bool.and_eq_true, decide_eq_true_eq, List.all_eq_true, and_assoc]

/-- The largest byte plus `n` stays inside a bound exactly when every byte plus `n` does. -/
theorem maxByte_add_const_le_iff {bs : List Byte} (n m : Nat) (h : n ≤ m) :
    maxByte bs + n ≤ m ↔ ∀ b ∈ bs, b.toNat + n ≤ m := by
  rw [← Nat.le_sub_iff_add_le h, maxByte_le_iff]
  simp only [Nat.le_sub_iff_add_le h]

theorem Config.wfFm_iff (c : Config) : c.wfFm = true ↔
    c.fnum.length = 12 ∧ c.fmVoices ≤ 6 ∧ c.op1Slot.length = 6 ∧ c.op2Slot.length = 6 ∧
    (∀ b ∈ c.op1Slot, b ∉ c.op2Slot) ∧ 2 ≤ c.patches.length ∧
    (∀ base ∈ [c.fmMap.tvsm, c.fmMap.kslTl, c.fmMap.ad, c.fmMap.sr, c.fmMap.wave], ∀ slot ∈ c.op1Slot ++ c.op2Slot,
      base.toNat + slot.toNat ≤ 255) ∧
    (∀ base ∈ [c.fmMap.fbSyn, c.fmMap.freq, c.fmMap.key], base.toNat + 5 ≤ 255) := by
  simp only [Config.wfFm, Bool.and_eq_true, decide_eq_true_eq, List.all_eq_true, and_assoc]
  refine and_congr_right fun _ => and_congr_right fun _ => and_congr_right fun hslots => and_congr_right fun _ =>
    and_congr_right fun _ => and_congr_right fun _ => ?_
  have hne : c.op1Slot ++ c.op2Slot ≠ [] :=
    List.append_ne_nil_of_left_ne_nil (List.ne_nil_of_length_eq_add_one hslots) _
  rw [maxByte_add_le_iff (by simp) hne, maxByte_add_const_le_iff 5 255 (by decide)]

/-- The model runs exactly the configurations that break neither a constraint of the spec nor one of its own. -/
theorem Config.wf_iff (c : Config) : c.wf = true ↔ specConstraints c ∧ modelConstraints c := by
  simp only [Config.wf, Bool.and_eq_true, Config.wfBuffer_iff, Config.wfRates_iff, Config.wfWaves_iff, Config.wfNotes_iff,
    Config.wfFm_iff, specConstraints, modelConstraints, Config.waveIds]
  -- the same conjuncts stand on both sides, grouped by table on the left and by origin on the right
  tauto

/-! ## The statements of 00_scope.md -/

/-- Settles O7: only a broken configuration stops a step with a refusal, and its check says what the spec's constraints and
log entry 15's say together. -/
theorem onlyBadConfigurationsAreRefused : Obligations.OnlyBadConfigurationsAreRefused := by
  intro s r
  rw [step_refused_iff, Config.wf_iff]

/-- Settles O4: a Host that may start a command presents its next word, and a word that decodes to a command runs it. -/
theorem hostTurnRunsTheWord : Obligations.HostTurnRunsTheWord := by
  intro s k w ws hwf hturn hhalt hready hwords t
  have hstep : step s = presentWord w t :=
    (step_of_nextTurn hwf hturn).trans (hostTurn_word (s := { s.tookTurn with slice := k }) hhalt hready hwords)
  exact ⟨hstep, fun i hd he => hstep.trans (presentWord_command hd he)⟩

/-- Settles O5: in a tick window the Sequencer presents its next word, and a word that decodes to a command runs it. -/
theorem sequencerTurnRunsTheWord : Obligations.SequencerTurnRunsTheWord := by
  intro s w rest hwf hturn htick hacts t
  have hstep : step s = presentWord w t :=
    (step_of_nextTurn hwf hturn).trans (sequencerTurn_word (s := s.tookTurn) htick hacts)
  exact ⟨hstep, fun i hd he => hstep.trans (presentWord_command hd he)⟩

/-- Settles O6: each turn by the lemma of its agent, at the state with the turn taken off the schedule. -/
theorem otherTurnsRunTheirEvents : Obligations.OtherTurnsRunTheirEvents := by
  intro s hwf
  refine ⟨fun ht => ?timer, fun ht ha => ?accept, fun ht ha => ?engine, fun rest ht ho hs => ?tickReturn,
    fun ht hi => ?idle, fun ht => ?dma, fun ht hr => ?device, fun ht hr => ?deviceStopped⟩ <;>
    rw [step_of_nextTurn hwf ht]
  case timer => rfl
  case accept => exact fillTurn_accepted (s.acceptsFill_tookTurn.trans ha)
  case engine => exact fillTurn_engine (s.acceptsFill_tookTurn.trans ha)
  case tickReturn => exact sequencerTurn_return (s := s.tookTurn) ho hs
  case idle => exact sequencerTurn_idle (s := s.tookTurn) hi
  case dma => rfl
  case device => exact congrArg _ (State.timerDevStep_running (s := s.tookTurn) hr)
  case deviceStopped => exact congrArg _ (State.timerDevStep_stopped (s := s.tookTurn) hr)

end Sys2Proof.Machine
end

section
/-!
The invariant of the block as a structure of propositions, one field per clause, so that a step lemma proves only the clauses
of the registers its step writes. With it the values after reset.
-/

namespace Sys2Proof.Machine

open Sys2Proof.Claims

/-! ## The invariant as propositions -/

/-- The command that holds this access may go on with it: what it stores is in range, and what it starts has its INIT. -/
def State.permits (s : State) (a : Access) : Prop :=
  a.ok s.cfg = true ∧ (a = .dmaStart → s.pcmInited = true) ∧ (a = .timerStart → s.timerInited = true)

/-- `State.inv`, clause by clause. -/
structure State.Invariant (s : State) : Prop where
  cfg_wf : s.cfg.wf = true
  mem_wf : s.mem.wf = true
  mem_inBuffer : ∀ c ∈ s.mem, s.cfg.bufPhys.toNat ≤ c.1 ∧ c.1 < s.cfg.bufPhys.toNat + 2 * s.cfg.bufferSamples
  image_sorted : cellsSorted s.fmImage = true
  image_keys : ∀ c ∈ s.fmImage, c.1 < 512
  voices_ok : ∀ j : Fin 8, s.voices[j].ok s.cfg = true
  hostOps_permitted : ∀ a ∈ s.hostOps, s.permits a
  tickCnt_ne_zero : s.tickCnt ≠ 0
  fillI_le : s.fillI ≤ s.cfg.halfSamples
  fillI_lt : s.fillState = .mix ∨ s.fillState = .waitTick → s.fillI < s.cfg.halfSamples
  inFill_iff : s.inFill = true ↔ s.fillState ≠ .idle
  tickOpen_iff : s.tickOpen = true ↔ s.fillState = .waitTick
  drainPos_lt : s.drainPos < s.cfg.bufferSamples
  drainHalf_eq : s.fillOverrun = false → (s.drainHalf.index + s.pendFill.toNat) % 2 = s.drainPos / s.cfg.halfSamples
  halted_iff : s.halted = true ↔ s.faultCode ≠ 0
  failed_halted : s.pcmState = .failed → s.halted = true
  pcmInited_build : s.pcmInited = true → s.cfg.backend = .pcm
  fmInited_build : s.fmInited = true → s.cfg.backend = .fm
  dmaRun_inited : s.dmaRun = true → s.pcmInited = true
  timerRun_inited : s.timerRun = true → s.timerInited = true
  pendFill_dmaRun : s.pendFill = true → s.dmaRun = true
  inFill_dmaRun : s.inFill = true → s.dmaRun = true
  pendTimer_timerRun : s.pendTimer = true → s.timerRun = true

theorem mem_allVoices (j : Fin 8) : j ∈ allVoices := by
  revert j
  decide

theorem State.invStore_iff (s : State) : s.invStore = true ↔
    s.cfg.wf = true ∧ s.mem.wf = true ∧
    (∀ c ∈ s.mem, s.cfg.bufPhys.toNat ≤ c.1 ∧ c.1 < s.cfg.bufPhys.toNat + 2 * s.cfg.bufferSamples) ∧
    cellsSorted s.fmImage = true ∧ ∀ c ∈ s.fmImage, c.1 < 512 := by
  simp only [State.invStore, Bool.and_eq_true, List.all_eq_true, decide_eq_true_eq, and_assoc]

theorem State.invVoices_iff (s : State) : s.invVoices = true ↔
    (∀ j : Fin 8, s.voices[j].ok s.cfg = true) ∧ ∀ a ∈ s.hostOps, a.ok s.cfg = true := by
  simp only [State.invVoices, Bool.and_eq_true, List.all_eq_true, mem_allVoices, true_imp_iff]

theorem State.invFill_iff (s : State) : s.invFill = true ↔
    s.tickCnt ≠ 0 ∧ s.fillI ≤ s.cfg.halfSamples ∧
    (s.fillState = .mix ∨ s.fillState = .waitTick → s.fillI < s.cfg.halfSamples) ∧
    (s.inFill = true ↔ s.fillState ≠ .idle) ∧ (s.tickOpen = true ↔ s.fillState = .waitTick) := by
  simp only [State.invFill, Bool.and_eq_true, Bool.or_eq_true, beq_iff_eq, decide_eq_true_eq, and_assoc,
    Bool.eq_iff_iff (b := decide _)]
  tauto

theorem State.invDrain_iff (s : State) : s.invDrain = true ↔
    s.drainPos < s.cfg.bufferSamples ∧
    (s.fillOverrun = false → (s.drainHalf.index + s.pendFill.toNat) % 2 = s.drainPos / s.cfg.halfSamples) := by
  cases h : s.fillOverrun <;> simp [State.invDrain, h]

theorem State.invFaults_iff (s : State) : s.invFaults = true ↔
    (s.halted = true ↔ s.faultCode ≠ 0) ∧ (s.pcmState = .failed → s.halted = true) := by
  simp only [State.invFaults, Bool.and_eq_true, Bool.or_eq_true, beq_iff_eq, decide_eq_true_eq,
    Bool.eq_iff_iff (b := decide _)]
  tauto

theorem State.invInits_iff (s : State) : s.invInits = true ↔
    (s.pcmInited = true → s.cfg.backend = .pcm) ∧ (s.fmInited = true → s.cfg.backend = .fm) ∧
    (s.dmaRun = true → s.pcmInited = true) ∧ (s.timerRun = true → s.timerInited = true) ∧
    (s.pendFill = true → s.dmaRun = true) ∧ (s.inFill = true → s.dmaRun = true) ∧
    (s.pendTimer = true → s.timerRun = true) ∧
    (Access.dmaStart ∈ s.hostOps → s.pcmInited = true) ∧ (Access.timerStart ∈ s.hostOps → s.timerInited = true) := by
  simp only [State.invInits, Bool.and_eq_true, Bool.or_eq_true, Bool.not_eq_true', decide_eq_true_eq, and_assoc,
    ← Bool.not_eq_true, ← imp_iff_not_or]

/-- The model's invariant is its clauses. -/
theorem State.inv_iff (s : State) : s.inv = true ↔ s.Invariant := by
  simp only [State.inv, Bool.and_eq_true, State.invStore_iff, State.invVoices_iff, State.invFill_iff, State.invDrain_iff,
    State.invFaults_iff, State.invInits_iff]
  constructor
  · rintro ⟨⟨⟨⟨⟨⟨wf, memWf, memIn, sorted, keys⟩, voices, opsOk⟩, tick, le, lt, line, window⟩, pos, flip⟩, halted, failed⟩,
      pcm, fm, dma, timer, fillReq, handler, timerReq, opsDma, opsTimer⟩
    have ops : ∀ a ∈ s.hostOps, s.permits a :=
      fun a ha => ⟨opsOk a ha, fun e => opsDma (e ▸ ha), fun e => opsTimer (e ▸ ha)⟩
    exact ⟨wf, memWf, memIn, sorted, keys, voices, ops, tick, le, lt, line, window, pos, flip, halted, failed, pcm, fm, dma,
      timer, fillReq, handler, timerReq⟩
  · rintro ⟨wf, memWf, memIn, sorted, keys, voices, ops, tick, le, lt, line, window, pos, flip, halted, failed, pcm, fm, dma,
      timer, fillReq, handler, timerReq⟩
    exact ⟨⟨⟨⟨⟨⟨wf, memWf, memIn, sorted, keys⟩, voices, fun a ha => (ops a ha).1⟩, tick, le, lt, line, window⟩, pos, flip⟩,
      halted, failed⟩, pcm, fm, dma, timer, fillReq, handler, timerReq, fun ha => (ops _ ha).2.1 rfl,
      fun ha => (ops _ ha).2.2 rfl⟩

theorem Voice.ok_iff (c : Config) (v : Voice) :
    v.ok c = true ↔ c.noteByteOk v.note = true ∧ c.isWave v.wave = true ∧ v.phase.toNat < c.phaseMod := by
  simp only [Voice.ok, Bool.and_eq_true, decide_eq_true_eq, and_assoc]

/-! ## Facts of a configuration the model runs -/

/-- The buffer is two halves of at least one sample (R10). -/
theorem wf_halves {c : Config} (h : c.wf = true) : c.bufferSamples = 2 * c.halfSamples ∧ 1 ≤ c.halfSamples := by
  obtain ⟨⟨⟨⟨hbuffer, -⟩, -⟩, -⟩, -⟩ := by simpa only [Config.wf, Bool.and_eq_true] using h
  obtain ⟨⟨heven, htwo, -⟩, -⟩ := (Config.wfBuffer_iff c).mp hbuffer
  unfold Config.halfSamples
  omega

theorem wf_tickReloads {c : Config} (h : c.wf = true) : c.samplesPerTick ≠ 0 ∧ c.tickCntReset ≠ 0 := by
  obtain ⟨⟨⟨⟨-, hrates⟩, -⟩, -⟩, -⟩ := by simpa only [Config.wf, Bool.and_eq_true] using h
  obtain ⟨-, htick, hreset, -⟩ := (Config.wfRates_iff c).mp hrates
  exact ⟨htick, hreset⟩

/-- The waveforms that reset and `PCM_INIT` give a voice exist (R202). -/
theorem wf_initialWaves {c : Config} (h : c.wf = true) : c.isWave 0 = true ∧ c.isWave c.defaultWave = true := by
  obtain ⟨⟨⟨-, hwaves⟩, -⟩, -⟩ := by simpa only [Config.wf, Bool.and_eq_true] using h
  obtain ⟨-, -, -, hzero, hdefault, -⟩ := (Config.wfWaves_iff c).mp hwaves
  exact ⟨decide_eq_true hzero, decide_eq_true hdefault⟩

/-- A silent note byte is in range in every configuration (R22). -/
theorem noteByteOk_zero (c : Config) : c.noteByteOk 0 = true := by
  simp [Config.noteByteOk, noteOf]

/-! ## Reset -/

@[simp] theorem State.resetWith_voice (c : Config) (j : Fin 8) : (State.resetWith c).voices[j] = Voice.reset := by
  simp [State.resetWith]

/-- A voice as reset leaves it is in range. -/
theorem Voice.reset_ok {c : Config} (h : c.wf = true) : Voice.reset.ok c = true := by
  have hlen := (wf_waveLen h).1
  refine (Voice.ok_iff c _).mpr ⟨noteByteOk_zero c, (wf_initialWaves h).1, ?_⟩
  simp [Voice.reset, Config.phaseMod]
  omega

/-- Where memory lists nothing, every sample reads 0. -/
theorem Memory.readSample_nil (a : Nat) : Memory.readSample [] a = 0 := by
  simp [Memory.readSample, Memory.read]

theorem State.resetWith_invariant {c : Config} (h : c.wf = true) : (State.resetWith c).Invariant where
  cfg_wf := h
  mem_wf := rfl
  mem_inBuffer := nofun
  image_sorted := rfl
  image_keys := nofun
  voices_ok j := by
    rw [State.resetWith_voice]
    exact Voice.reset_ok h
  hostOps_permitted := nofun
  tickCnt_ne_zero := (wf_tickReloads h).2
  fillI_le := Nat.zero_le _
  fillI_lt := nofun
  inFill_iff := by simp [State.resetWith]
  tickOpen_iff := by simp [State.resetWith]
  drainPos_lt := by
    obtain ⟨heq, hpos⟩ := wf_halves h
    show 0 < c.bufferSamples
    omega
  drainHalf_eq _ := (Nat.zero_div _).symm
  halted_iff := by simp [State.resetWith]
  failed_halted := nofun
  pcmInited_build := nofun
  fmInited_build := nofun
  dmaRun_inited := nofun
  timerRun_inited := nofun
  pendFill_dmaRun := nofun
  inFill_dmaRun := nofun
  pendTimer_timerRun := nofun

/-- Settles O54: the registers by the definition of reset, the buffer because an unlisted byte reads 0. -/
theorem resetValues : Obligations.ResetValues := by
  intro c s
  have hvoice : ∀ j : Fin 8, s.voices[j] = ⟨0, 0, 0, 0⟩ := State.resetWith_voice c
  have hcache : ∀ i : Fin 6, s.keycache[i] = 0 := by simp [s, State.resetWith]
  have himage : ∀ (b : Bank) (r : Byte), s.fmImageAt b r = none := fun _ _ => rfl
  have hbuffer : ∀ k < c.bufferSamples, s.sample k = 0 := fun _ _ => Memory.readSample_nil _
  exact ⟨hvoice, rfl, rfl, rfl, rfl, rfl, rfl, rfl, rfl, rfl, rfl, rfl, rfl, rfl, rfl, rfl, rfl, rfl, rfl, rfl, rfl, rfl,
    rfl, hcache, himage, hbuffer, rfl, rfl, rfl, rfl, rfl, rfl, rfl, rfl, rfl⟩

/-- Settles O55: clause by clause, from the constraints on the configuration. -/
theorem resetKeepsTheInvariant : Obligations.ResetKeepsTheInvariant :=
  fun _ h => (State.inv_iff _).mpr (State.resetWith_invariant h)

end Sys2Proof.Machine
end

section
/-!
Every access of a command and every operation keeps the invariant of the block.
-/

namespace Sys2Proof.Machine

/-! ## Stores -/

/-- A byte listed after a sample store lies in the sample's two bytes or was listed before. -/
theorem Memory.mem_writeSample {m : Memory} {a : Nat} {v : Sample} {c : Host.Cell} (h : c ∈ m.writeSample a v) :
    c.1 = a ∨ c.1 = a + 1 ∨ c ∈ m := by
  rcases Memory.mem_write h with rfl | h
  · exact .inr (.inl rfl)
  · rcases Memory.mem_write h with rfl | h
    · exact .inl rfl
    · exact .inr (.inr h)

theorem fmKey_lt (bank : Bank) (reg : Byte) : fmKey bank reg < 512 := by
  have := reg.isLt
  cases bank <;> simp only [fmKey] <;> omega

namespace State.Invariant

/-- A store to a sample of the buffer (R60). -/
theorem setSample {s : State} (h : s.Invariant) {k : Nat} (hk : k < s.cfg.bufferSamples) (v : Sample) :
    (s.setSample k v).Invariant :=
  { h with
    mem_wf := State.setSample_mem_wf k v h.mem_wf
    mem_inBuffer := by
      intro c hc
      rcases Memory.mem_writeSample hc with e | e | hc
      · rw [e]; simp only [State.sampleAddr, State.setSample_cfg]; omega
      · rw [e]; simp only [State.sampleAddr, State.setSample_cfg]; omega
      · exact h.mem_inBuffer c hc }

theorem fmStore {s : State} (h : s.Invariant) (bank : Bank) (reg val : Byte) : (s.fmStore bank reg val).Invariant :=
  { h with
    image_sorted := State.fmStore_image_sorted bank reg val h.image_sorted
    image_keys := by
      intro c hc
      rcases mem_cellPut hc with rfl | hc
      · exact fmKey_lt bank reg
      · exact h.image_keys c hc }

/-- A store to one voice whose registers stay in range (R22, R23, R202). -/
theorem setVoice {s : State} (h : s.Invariant) (j : Fin 8) {v : Voice} (hv : v.ok s.cfg = true) :
    State.Invariant { s with voices := s.voices.set j v } :=
  { h with
    voices_ok := by
      intro i
      have := h.voices_ok i
      by_cases hij : (j : Nat) = i
      · simp [hij, hv]
      · simpa [Vector.getElem_set, hij] using this }

theorem setNote {s : State} (h : s.Invariant) (j : Fin 8) {b : Byte} (hb : s.cfg.noteByteOk b = true) :
    (s.setNote j b).Invariant := by
  obtain ⟨-, hwave, hphase⟩ := (Voice.ok_iff _ _).mp (h.voices_ok j)
  exact h.setVoice j ((Voice.ok_iff _ _).mpr ⟨hb, hwave, hphase⟩)

theorem setWave {s : State} (h : s.Invariant) (j : Fin 8) {b : Byte} (hb : s.cfg.isWave b = true) :
    (s.setWave j b).Invariant := by
  obtain ⟨hnote, -, hphase⟩ := (Voice.ok_iff _ _).mp (h.voices_ok j)
  exact h.setVoice j ((Voice.ok_iff _ _).mpr ⟨hnote, hb, hphase⟩)

theorem setVol {s : State} (h : s.Invariant) (j : Fin 8) (b : Byte) : (s.setVol j b).Invariant :=
  h.setVoice j (h.voices_ok j)

/-! ## Faults -/

theorem raiseFatal {s : State} (h : s.Invariant) {code : Byte} (hcode : code ≠ 0) (diag : Byte) :
    (s.raiseFatal code diag).Invariant :=
  { h with
    halted_iff := iff_of_true rfl hcode
    failed_halted := fun _ => rfl }

theorem raiseCmdFault {s : State} (h : s.Invariant) {code : Byte} (hcode : code ≠ 0) (opcode : Byte) :
    (s.raiseCmdFault code opcode).Invariant :=
  { h with
    halted_iff := iff_of_true rfl hcode
    failed_halted := fun _ => rfl }

/-! ## One access -/

/-- The state after a read of `PCM_INIT`. -/
theorem initRead {s : State} (h : s.Invariant) (a : PortAddr) : (s.initRead a).Invariant :=
  { h with }

/-- `pcm_state` moves on, to any state but `FAILED` (R151). -/
theorem enterState {s : State} (h : s.Invariant) {p : PcmState} (hp : p ≠ .failed) :
    State.Invariant { s with pcmState := p } :=
  { h with failed_halted := fun e => absurd e hp }

theorem runPoll {s : State} (h : s.Invariant) : (Machine.runPoll s).1.Invariant := by
  have hread : State.Invariant { s.initRead s.cfg.ports.dspRstatus with pollCnt := s.pollCnt + 1 } :=
    { h.initRead s.cfg.ports.dspRstatus with }
  unfold Machine.runPoll
  dsimp only
  split
  · exact hread
  · split
    · exact hread.raiseFatal (by decide) _
    · exact hread

theorem runReadAck {s : State} (h : s.Invariant) : (Machine.runReadAck s).1.Invariant := by
  unfold Machine.runReadAck
  dsimp only
  split
  · exact h.initRead _
  · exact (h.initRead _).raiseFatal (by decide) _

theorem runReadMinor {s : State} (h : s.Invariant) (major : Byte) : (Machine.runReadMinor major s).1.Invariant := by
  unfold Machine.runReadMinor
  dsimp only
  split
  · exact (h.initRead _).raiseFatal (by decide) _
  · exact (h.initRead _).enterState (by decide)

theorem runReadMixer {s : State} (h : s.Invariant) : (Machine.runReadMixer s).1.Invariant := by
  unfold Machine.runReadMixer
  dsimp only
  split
  · exact (h.initRead _).enterState (by decide)
  · exact (h.initRead _).raiseFatal (by decide) _

/-- An access that its command may make keeps the invariant. -/
theorem runAccess {s : State} (h : s.Invariant) {a : Access} (ha : s.permits a) : (Machine.runAccess a s).1.Invariant := by
  obtain ⟨hok, hdma, htimer⟩ := ha
  cases a with
  | portWrite addr val => exact { h with }
  | timerStart => exact { h with timerRun_inited := fun _ => htimer rfl, pendTimer_timerRun := fun _ => rfl }
  | fmIndex bank reg => exact { h with }
  | fmData bank reg val => exact h.fmStore bank reg val
  | cacheKey i k => exact { h with }
  | initWrite addr val => exact { h with }
  | enterState p => exact h.enterState (of_decide_eq_true hok)
  | startPoll => exact { h.enterState (p := .awaitingAck) (by decide) with }
  | poll => exact h.runPoll
  | readAck => exact h.runReadAck
  | readMajor => exact h.initRead _
  | readMinor major => exact h.runReadMinor major
  | readMixer => exact h.runReadMixer
  | dmaStart =>
    exact { h with
      dmaRun_inited := fun _ => hdma rfl
      pendFill_dmaRun := fun _ => rfl
      inFill_dmaRun := fun _ => rfl }
  | storeNote j b => exact h.setNote j hok
  | storeWave j b => exact h.setWave j hok
  | storeVol j b => exact h.setVol j b
  | preload k =>
    have hk : k < s.cfg.halfSamples := of_decide_eq_true hok
    obtain ⟨hbuffer, -⟩ := wf_halves h.cfg_wf
    exact h.setSample (by omega) _

end State.Invariant

/-! ## A run of accesses -/

/-- What an access asks to run next is always permitted: another poll, or the second version read. -/
theorem permits_of_runAccess_more {a : Access} {s t u : State} {more : List Access}
    (h : runAccess a s = (t, some more)) : ∀ b ∈ more, u.permits b := by
  have key : more = [] ∨ more = [.poll] ∨ ∃ major, more = [.readMinor major] := by
    cases a with
    | poll => simp only [runAccess, runPoll] at h; split_ifs at h <;> cases h <;> simp
    | readAck => simp only [runAccess, runReadAck] at h; split at h <;> cases h; exact .inl rfl
    | readMajor => cases h; exact .inr (.inr ⟨_, rfl⟩)
    | readMinor major => simp only [runAccess, runReadMinor] at h; split at h <;> cases h; exact .inl rfl
    | readMixer => simp only [runAccess, runReadMixer] at h; split at h <;> cases h; exact .inl rfl
    | _ => cases h; exact .inl rfl
  rcases key with rfl | rfl | ⟨major, rfl⟩ <;> simp [State.permits, Access.ok]

@[simp] theorem State.permits_runAccess (a b : Access) (s : State) : (runAccess a s).1.permits b ↔ s.permits b := by
  simp [State.permits, runAccess_frame]

/-- A run of permitted accesses keeps the invariant, and what it leaves undone stays permitted. -/
theorem State.Invariant.runAccesses (n : Nat) {ops : List Access} {s : State} (h : s.Invariant)
    (hops : ∀ a ∈ ops, s.permits a) :
    (Machine.runAccesses n ops s).1.Invariant ∧
      ∀ a ∈ (Machine.runAccesses n ops s).2, (Machine.runAccesses n ops s).1.permits a := by
  induction n generalizing ops s with
  | zero => simpa using ⟨h, hops⟩
  | succ n ih =>
    cases ops with
    | nil => simpa using h
    | cons a ops =>
      have ht := h.runAccess (hops a (List.mem_cons_self ..))
      have hrest : ∀ b ∈ ops, (Machine.runAccess a s).1.permits b :=
        fun b hb => (State.permits_runAccess a b s).mpr (hops b (List.mem_cons_of_mem _ hb))
      rw [runAccesses_succ]
      cases hr : Machine.runAccess a s with
      | mk t more =>
        rw [hr] at ht hrest
        cases more with
        | none => exact ⟨ht, nofun⟩
        | some more =>
          refine ih ht fun b hb => ?_
          rcases List.mem_append.mp hb with hb | hb
          · exact permits_of_runAccess_more hr b hb
          · exact hrest b hb

namespace State.Invariant

/-- A command of permitted accesses, cut or whole (R74, R196). -/
theorem runCommand {s : State} (h : s.Invariant) {ops : List Access} (hops : ∀ a ∈ ops, s.permits a) :
    (s.runCommand ops).Invariant := by
  obtain ⟨hrun, hleft⟩ := h.runAccesses (s.budget ops) hops
  unfold State.runCommand
  dsimp only
  split
  · exact hrun
  · exact { hrun with hostOps_permitted := hleft }

theorem resumeHost {s : State} (h : s.Invariant) : s.resumeHost.Invariant := by
  obtain ⟨hrun, hleft⟩ := h.runAccesses (s.budget s.hostOps) h.hostOps_permitted
  exact { hrun with hostOps_permitted := hleft }

/-! ## Acceptance and range checks -/

theorem command {s : State} (h : s.Invariant) {op : Op} {act : State → State}
    (hact : s.admits op = true → (act s).Invariant) : (s.command op act).Invariant := by
  rcases s.command_cases op act with e | ⟨-, e⟩ | ⟨hadmits, e⟩ <;> rw [e]
  · exact h
  · exact h.raiseCmdFault (by decide) _
  · exact hact hadmits

theorem checked {s : State} (h : s.Invariant) {op : Op} {fault : Option Byte} {act : State → State}
    (hcode : fault ≠ some 0) (hact : fault = none → (act s).Invariant) : (s.checked op fault act).Invariant := by
  cases fault with
  | none => exact hact rfl
  | some code => exact h.raiseCmdFault (fun e => hcode (congrArg some e)) _

end State.Invariant

/-- The checks of `PCM_SET_NOTE` pass exactly the operands of R180. -/
theorem pcmNoteFault_none {c : Config} {voice octave note : Byte} (h : pcmNoteFault c voice octave note = none) :
    note.toNat ≤ 12 ∧ octave.toNat ≤ 15 ∧ (note = 0 ∨ octave.toNat < c.numOctaves) := by
  unfold pcmNoteFault at h
  split_ifs at h with hvoice hnote hoctave hrange
  rw [not_and_or, not_not, not_le] at hrange
  exact ⟨by omega, by omega, hrange⟩

theorem pcmWaveformFault_none {c : Config} {voice w : Byte} (h : pcmWaveformFault c voice w = none) :
    c.isWave w = true := by
  unfold pcmWaveformFault at h
  split_ifs at h with hvoice hwave
  simpa using hwave

theorem pcmNoteFault_ne_zero (c : Config) (voice octave note : Byte) : pcmNoteFault c voice octave note ≠ some 0 := by
  unfold pcmNoteFault
  split_ifs <;> decide

theorem pcmWaveformFault_ne_zero (c : Config) (voice w : Byte) : pcmWaveformFault c voice w ≠ some 0 := by
  unfold pcmWaveformFault
  split_ifs <;> decide

theorem pcmVolumeFault_ne_zero (voice : Byte) : pcmVolumeFault voice ≠ some 0 := by
  unfold pcmVolumeFault
  split_ifs <;> decide

theorem fmVoiceFault_ne_zero (c : Config) (voice : Byte) : fmVoiceFault c voice ≠ some 0 := by
  unfold fmVoiceFault
  split_ifs <;> decide

theorem fmAssignFault_ne_zero (c : Config) (voice patch : Byte) : fmAssignFault c voice patch ≠ some 0 := by
  unfold fmAssignFault
  split
  · next code hv => exact hv ▸ fmVoiceFault_ne_zero c voice
  · split_ifs <;> decide

theorem fmNoteFault_ne_zero (c : Config) (voice octave note : Byte) : fmNoteFault c voice octave note ≠ some 0 := by
  unfold fmNoteFault
  split
  · next code hv => exact hv ▸ fmVoiceFault_ne_zero c voice
  · split_ifs <;> decide

/-- A note byte packed from operands inside their fields holds both (R96). -/
theorem packNote_fields {octave note : Byte} (hnote : note.toNat ≤ 15) (hoctave : octave.toNat ≤ 15) :
    noteOf (packNote octave note) = note.toNat ∧ octaveOf (packNote octave note) = octave.toNat := by
  have key : (packNote octave note).toNat = octave.toNat * 16 + note.toNat := by
    have hor := Nat.two_pow_add_eq_or_of_lt (i := 4) (b := note.toNat) (by omega) octave.toNat
    rw [packNote, BitVec.toNat_or, BitVec.toNat_shiftLeft, Nat.shiftLeft_eq, Nat.mod_eq_of_lt (by omega)]
    rw [Nat.mul_comm, ← hor]
  unfold noteOf octaveOf
  omega

theorem noteByteOk_packNote {c : Config} {voice octave note : Byte} (h : pcmNoteFault c voice octave note = none) :
    c.noteByteOk (packNote octave note) = true := by
  obtain ⟨hnote, hoctave, hrange⟩ := pcmNoteFault_none h
  obtain ⟨hn, ho⟩ := packNote_fields (note := note) (by omega) hoctave
  simp only [Config.noteByteOk, hn, ho, Bool.and_eq_true, Bool.or_eq_true, decide_eq_true_eq]
  exact ⟨hnote, hrange.imp_left fun (e : note = 0) => by simp [e]⟩

/-! ## The accesses of the commands -/

/-- FM register writes are always permitted. -/
theorem fmWrites_permitted (s : State) (ws : List FmRecord) : ∀ a ∈ fmWrites ws, s.permits a := by
  intro a ha
  obtain ⟨w, -, ha⟩ := List.mem_flatMap.mp ha
  simp only [fmWrite, List.mem_cons, List.not_mem_nil, or_false] at ha
  rcases ha with rfl | rfl <;> simp [State.permits, Access.ok]

theorem fmWrite_permitted (s : State) (bank : Bank) (reg val : Byte) : ∀ a ∈ fmWrite bank reg val, s.permits a := by
  simpa [fmWrites] using fmWrites_permitted s [⟨bank, reg, val⟩]

theorem assignAccesses_permitted (s : State) (c : Config) (voice patch : Byte) :
    ∀ a ∈ assignAccesses c voice patch, s.permits a := by
  unfold assignAccesses
  split
  · exact fmWrites_permitted s _
  · nofun

theorem noteOnAccesses_permitted (s : State) (c : Config) (voice octave note : Byte) :
    ∀ a ∈ noteOnAccesses c voice octave note, s.permits a := by
  unfold noteOnAccesses
  split
  · simp [fmWrite, State.permits, Access.ok]
  · nofun

theorem timerInitAccesses_permitted {s : State} (h : s.timerInited = true) (c : Config) :
    ∀ a ∈ timerInitAccesses c, s.permits a := by
  simp [timerInitAccesses, State.permits, Access.ok, h]

theorem waveformAccesses_permitted {s : State} {w : Byte} (h : s.cfg.isWave w = true) (volumeFirst : Bool) (j : Fin 8)
    (x : Byte) : ∀ a ∈ waveformAccesses volumeFirst j w x, s.permits a := by
  cases volumeFirst <;> simp [waveformAccesses, State.permits, Access.ok, h]

/-- The accesses of `PCM_INIT`, once the flag is set: its voice stores are in range (R163), its preload in the front half
(R164). -/
theorem pcmInitAccesses_permitted {s : State} (hwf : s.cfg.wf = true) (h : s.pcmInited = true) :
    ∀ a ∈ pcmInitAccesses s.cfg, s.permits a := by
  have hvoices : ∀ a ∈ initVoiceAccesses s.cfg, s.permits a := by
    intro a ha
    obtain ⟨j, rfl | rfl⟩ : ∃ j, a = .storeNote j 0 ∨ a = .storeWave j s.cfg.defaultWave := by
      simpa [initVoiceAccesses] using ha
    · exact ⟨noteByteOk_zero _, nofun, nofun⟩
    · exact ⟨(wf_initialWaves hwf).2, nofun, nofun⟩
  have hpreload : ∀ a ∈ preloadAccesses s.cfg, s.permits a := by
    simp [preloadAccesses, State.permits, Access.ok]
  simp only [pcmInitAccesses, List.forall_mem_append]
  refine ⟨⟨⟨?arming, hvoices⟩, hpreload⟩, ?armed⟩
  case arming =>
    simp [handshakeAccesses, configureIrqAccesses, dmaAccesses, rateAccesses, playAccesses, dspWrite, State.permits,
      Access.ok, h]
  case armed => simp [State.permits, Access.ok]

/-! ## The operations -/

namespace State.Invariant

/-- `timer_inited` is set, with the registers of R120 that the invariant does not speak of. -/
theorem setTimerInited {s : State} (h : s.Invariant) (d : BitVec 17) (f n : BitVec 32) :
    State.Invariant { s with timerInited := true, timerDiv := d, timerFreq := f, tickCount := n } :=
  { h with
    hostOps_permitted := fun a ha => ⟨(h.hostOps_permitted a ha).1, (h.hostOps_permitted a ha).2.1, fun _ => rfl⟩
    timerRun_inited := fun _ => rfl }

theorem setFmInited {s : State} (h : s.Invariant) (hb : s.cfg.backend = .fm) :
    State.Invariant { s with fmInited := true } :=
  { h with fmInited_build := fun _ => hb }

theorem setPcmInited {s : State} (h : s.Invariant) (hb : s.cfg.backend = .pcm) (n : Nat) :
    State.Invariant { s with pcmInited := true, initStep := n } :=
  { h with
    hostOps_permitted := fun a ha => ⟨(h.hostOps_permitted a ha).1, fun _ => rfl, (h.hostOps_permitted a ha).2.2⟩
    pcmInited_build := fun _ => hb
    dmaRun_inited := fun _ => rfl }

theorem drawStoreOrder {s : State} (h : s.Invariant) (src : Source Bool) :
    State.Invariant { s with storeOrder := src } :=
  { h with }

/-- Acceptance of the playback interrupt flips the flag and clears the latch together (R191). -/
theorem enterFill {s : State} (h : s.Invariant) (hp : s.pendFill = true) (hf : s.inFill = false) :
    s.enterFill.Invariant := by
  have hidle : s.fillState = .idle := by
    by_contra hne
    simp [h.inFill_iff.mpr hne] at hf
  have htick : s.tickOpen = false := by
    rw [← Bool.not_eq_true, h.tickOpen_iff, hidle]
    decide
  exact { h with
    fillI_le := Nat.zero_le _
    fillI_lt := nofun
    inFill_iff := by simp
    tickOpen_iff := by simp [htick]
    drainHalf_eq := by
      intro ho
      have := h.drainHalf_eq ho
      cases hd : s.drainHalf <;> simp [hd, hp, Half.index, Half.other] at this ⊢ <;> exact this
    pendFill_dmaRun := nofun
    inFill_dmaRun := fun _ => h.pendFill_dmaRun hp }

/-- The tick's return closes the window and goes on to the sample of the tick (R197). -/
theorem tickReturn {s : State} (h : s.Invariant) (hw : s.fillState = .waitTick) :
    State.Invariant { s with tickOpen := false, fillState := .mix } :=
  { h with
    fillI_lt := fun _ => h.fillI_lt (.inr hw)
    inFill_iff := by simp [h.inFill_iff, hw]
    tickOpen_iff := by simp }

/-- Every operation, whatever its operands, keeps the invariant. -/
theorem exec {i : Instr} {s t : State} (h : s.Invariant) (he : Machine.exec i s = .next t) : t.Invariant := by
  cases i with
  | timerInit =>
    cases he
    refine h.command fun _ => ?_
    split
    · exact h.raiseCmdFault (by decide) _
    · exact (h.setTimerInited _ _ _).runCommand (timerInitAccesses_permitted rfl _)
  | timerGetTicks =>
    cases he
    exact h.command fun _ => { h with }
  | fmInit =>
    cases he
    refine h.command fun hadmits => ?_
    split
    · exact h.raiseCmdFault (by decide) _
    · have hb : s.cfg.backend = .fm := (of_decide_eq_true ((s.admits_iff _).mp hadmits).2.2 : Backend.fm = _).symm
      exact (h.setFmInited hb).runCommand (fmWrites_permitted _ _)
  | fmAssignInstrument voice patch =>
    cases he
    exact h.command fun _ => h.checked (fmAssignFault_ne_zero _ _ _) fun _ =>
      h.runCommand (assignAccesses_permitted _ _ _ _)
  | fmSetNote voice octave note =>
    cases he
    refine h.command fun _ => h.checked (fmNoteFault_ne_zero _ _ _ _) fun _ => ?_
    split
    · exact h.runCommand (fmWrite_permitted _ _ _ _)
    · exact h.runCommand (noteOnAccesses_permitted _ _ _ _ _)
  | fmSetMaster volume =>
    cases he
    exact h.command fun _ => h
  | pcmInit =>
    cases he
    refine h.command fun hadmits => ?_
    split
    · exact h.raiseCmdFault (by decide) _
    · have hb : s.cfg.backend = .pcm := (of_decide_eq_true ((s.admits_iff _).mp hadmits).2.2 : Backend.pcm = _).symm
      exact (h.setPcmInited hb 0).runCommand (pcmInitAccesses_permitted (s := { s with pcmInited := true }) h.cfg_wf rfl)
  | pcmSetNote voice octave note =>
    cases he
    exact h.command fun _ => h.checked (pcmNoteFault_ne_zero _ _ _ _) fun hf =>
      h.setNote (pcmVoice voice) (noteByteOk_packNote hf)
  | pcmSetWaveform voice w x =>
    cases he
    refine h.command fun _ => h.checked (pcmWaveformFault_ne_zero _ _ _) fun hf => ?_
    split
    · exact (h.drawStoreOrder _).runCommand (waveformAccesses_permitted (pcmWaveformFault_none hf) _ _ _)
    · exact h.runCommand (waveformAccesses_permitted (pcmWaveformFault_none hf) _ _ _)
  | pcmSetVolume voice x =>
    cases he
    exact h.command fun _ => h.checked (pcmVolumeFault_ne_zero _) fun _ => h.setVol (pcmVoice voice) x
  | pcmSetMaster x =>
    cases he
    exact h.command fun _ => { h with }
  | evTimerIrq =>
    cases he
    split
    · exact { h with pendTimer_timerRun := nofun }
    · exact h
  | evFillIrq =>
    cases he
    split
    · next ha =>
      obtain ⟨⟨⟨hp, hf⟩, -⟩, -⟩ := by simpa [State.acceptsFill] using ha
      exact h.enterFill hp hf
    · exact h
  | evTickReturn =>
    cases he
    split
    · next ha =>
      obtain ⟨⟨hw, -⟩, -⟩ := by simpa [State.acceptsTickReturn] using ha
      exact h.tickReturn hw
    · exact h

end State.Invariant

end Sys2Proof.Machine
end

section
/-!
What a step of the block keeps: the rule that derives it from the operations, the fill engine and the DMA agent. With it, every
step keeps the invariant, and from a state that keeps it no step stops.
-/

namespace Sys2Proof.Machine

/-! ## What every operation and every agent keeps, a step keeps -/

theorem wordFault_ne_zero (bk : Backend) (w : Word) : wordFault bk w ≠ some 0 := by
  unfold wordFault
  split
  · decide
  · split_ifs <;> decide

section Keeps

variable {P : State → Prop} (hexec : ∀ i s t, P s → exec i s = .next t → P t)
  (hfault : ∀ s code op, code ≠ 0 → P s → P (s.raiseCmdFault code op))

include hfault in
theorem State.rejectWord_keeps {s : State} {code : Byte} (hcode : code ≠ 0) (w : Word) (hs : P s) :
    P (s.rejectWord code w) := by
  unfold State.rejectWord
  split
  · exact hs
  · split
    · exact hs
    · exact hfault _ _ _ hcode hs

include hexec hfault

theorem presentWord_keeps {w : Word} {s t : State} (hs : P s) (h : presentWord w s = .next t) : P t := by
  unfold presentWord at h
  split at h
  · next code hw =>
    cases h
    exact State.rejectWord_keeps hfault (fun e => wordFault_ne_zero _ _ (hw.trans (congrArg some e))) w hs
  · split at h
    · exact hexec _ _ _ hs h
    · cases h; exact State.rejectWord_keeps hfault (by decide) w hs
    · cases h; exact State.rejectWord_keeps hfault (by decide) w hs

variable (hinputs : ∀ s turns slice words acts, P s →
    P { s with turns := turns, slice := slice, hostWords := words, seqActs := acts })

include hinputs

theorem hostTurn_keeps (hresume : ∀ s, P s → P s.resumeHost) {s t : State} (hs : P s) (h : hostTurn s = .next t) :
    P t := by
  unfold hostTurn at h
  split at h
  · cases h; exact hinputs _ _ _ _ _ hs
  · split at h
    · cases h; exact hs
    · split at h
      · cases h; exact hresume _ hs
      · split at h
        · cases h; exact hs
        · exact presentWord_keeps hexec hfault (hinputs s _ _ _ _ hs) h

theorem sequencerTurn_keeps {s t : State} (hs : P s) (h : sequencerTurn s = .next t) : P t := by
  unfold sequencerTurn at h
  split at h
  · split at h
    · cases h; exact hs
    · exact presentWord_keeps hexec hfault (hinputs s _ _ _ _ hs) h
    · exact hexec _ _ _ (hinputs s _ _ _ _ hs) h
  · cases h; exact hs

/-- The rule to prove a property of every step by. -/
theorem step_keeps (hresume : ∀ s, P s → P s.resumeHost) (hengine : ∀ s t, P s → engineStep s = .next t → P t)
    (hdma : ∀ s t, P s → dmaStep s = .next t → P t) (hdevice : ∀ s, P s → P s.timerDevStep)
    {s t : State} (hs : P s) (h : step s = .next t) : P t := by
  by_cases hwf : s.cfg.wf = true
  · have htook : P s.tookTurn := hinputs s _ _ _ _ hs
    rw [step_of_wf hwf] at h
    generalize s.nextTurn = turn at h
    cases turn with
    | host slice => exact hostTurn_keeps hexec hfault hinputs hresume (hinputs s.tookTurn _ slice _ _ htook) h
    | sequencer => exact sequencerTurn_keeps hexec hfault hinputs htook h
    | fill =>
      cases ha : s.tookTurn.acceptsFill with
      | true => exact hexec _ _ _ htook ((fillTurn_accepted ha).symm.trans h)
      | false => exact hengine _ _ htook ((fillTurn_engine ha).symm.trans h)
    | timerIrq => exact hexec .evTimerIrq _ _ htook h
    | dma => exact hdma _ _ htook h
    | timerDev => cases h; exact hdevice _ htook
  · rw [step_of_not_wf hwf] at h
    cases h

end Keeps

/-! ## The fill engine -/

theorem Half.index_lt_two (d : Half) : d.index < 2 := by
  cases d <;> decide

@[simp] theorem State.acknowledge_fillState (s : State) : s.acknowledge.fillState = s.fillState := by
  unfold State.acknowledge
  dsimp only
  split <;> rfl

theorem Half.index_other (d : Half) : d.other.index = 1 - d.index := by
  cases d <;> rfl

namespace State.Invariant

/-- A running engine in MIX stores inside the half that the flip flag does not name (R192). -/
theorem fillIndex_mem {s : State} (h : s.Invariant) (hm : s.fillState = .mix) :
    s.fillIndex < s.cfg.bufferSamples ∧ s.fillIndex / s.cfg.halfSamples = 1 - s.drainHalf.index := by
  obtain ⟨hbuffer, hpos⟩ := wf_halves h.cfg_wf
  have hi := h.fillI_lt (.inl hm)
  unfold State.fillIndex State.fillBase
  rw [Half.index_other]
  constructor
  · have : (1 - s.drainHalf.index) * s.cfg.halfSamples ≤ 1 * s.cfg.halfSamples := Nat.mul_le_mul_right _ (by omega)
    omega
  · rw [Nat.mul_comm, Nat.mul_add_div hpos, Nat.div_eq_of_lt hi, Nat.add_zero]

/-- The engine goes on inside a fill, outside a tick window. -/
theorem moveEngine {s : State} (h : s.Invariant) (hrun : s.fillState ≠ .idle) (hwait : s.fillState ≠ .waitTick)
    {p : FillState} {i : Nat} (hp : p ≠ .idle ∧ p ≠ .waitTick) (hle : i ≤ s.cfg.halfSamples)
    (hlt : p = .mix → i < s.cfg.halfSamples) : State.Invariant { s with fillState := p, fillI := i } :=
  { h with
    fillI_le := hle
    fillI_lt := fun e => e.elim hlt fun e => absurd e hp.2
    inFill_iff := iff_of_true (h.inFill_iff.mpr hrun) hp.1
    tickOpen_iff := iff_of_false (fun e => hwait (h.tickOpen_iff.mp e)) hp.2 }

/-- The loop over the voices ends, and writes phases in range only. -/
theorem mixVoices {s : State} (h : s.Invariant) :
    ∃ u acc, Machine.mixVoices allVoices s 0 = .ok (u, acc) ∧ u = { s with voices := u.voices, noise := u.noise } ∧
      u.Invariant := by
  obtain ⟨u, acc, hu, hok⟩ := mixVoices_total h.cfg_wf h.voices_ok allVoices 0
  have hframe := (mixVoices_frame hu).1
  refine ⟨u, acc, hu, hframe, ?_⟩
  have hcfg : u.cfg = s.cfg := by rw [hframe]
  rw [hframe]
  exact { h with voices_ok := fun j => hcfg ▸ hok j }

/-- MIX never faults (R60, R202). -/
theorem mixStep {s : State} (h : s.Invariant) (hm : s.fillState = .mix) :
    ∃ t, Machine.mixStep s = .next t ∧ t.Invariant := by
  obtain ⟨u, acc, hu, hframe, hinv⟩ := h.mixVoices
  obtain ⟨hindex, -⟩ := h.fillIndex_mem hm
  have hi := h.fillI_lt (.inl hm)
  have hcfg : u.cfg = s.cfg := by rw [hframe]
  have hstate : u.fillState = .mix := by rw [hframe]; exact hm
  have hset := hinv.setSample (hcfg ▸ hindex) (trunc16 (masterScale acc s.master))
  have hnext := hset.moveEngine (p := .count) (i := s.fillI + 1) (by simp [hstate]) (by simp [hstate]) (by decide)
    (by simp only [State.setSample_cfg, hcfg]; omega) nofun
  unfold Machine.mixStep
  simp only [hu, hindex, if_true]
  exact ⟨_, rfl, { hnext with }⟩

/-- The decrement of COUNT, with the tick when the quantum is over (R194, R196). -/
theorem countDown {s : State} (h : s.Invariant) (hc : s.fillState = .count) (hi : s.fillI < s.cfg.halfSamples) :
    s.countDown.Invariant := by
  unfold State.countDown
  dsimp only
  split
  · exact { h with
      tickCnt_ne_zero := (wf_tickReloads h.cfg_wf).1
      fillI_lt := fun _ => hi
      inFill_iff := iff_of_true (h.inFill_iff.mpr (by simp [hc])) (by simp)
      tickOpen_iff := by simp }
  · next hn =>
    exact { h.moveEngine (p := .mix) (by simp [hc]) (by simp [hc]) (by decide) h.fillI_le fun _ => hi with
      tickCnt_ne_zero := hn }

/-- COUNT never faults: `fill_i` is at most the half (R210). -/
theorem countStep {s : State} (h : s.Invariant) (hc : s.fillState = .count) :
    ∃ t, Machine.countStep s = .next t ∧ t.Invariant := by
  unfold Machine.countStep
  rcases Nat.lt_or_eq_of_le h.fillI_le with hlt | heq
  · rw [if_pos hlt]
    exact ⟨_, rfl, h.countDown hc hlt⟩
  · rw [if_neg (by omega), if_pos heq]
    exact ⟨_, rfl, { h.moveEngine (p := .exit) (by simp [hc]) (by simp [hc]) (by decide) h.fillI_le nofun with }⟩

theorem acknowledge {s : State} (h : s.Invariant) : s.acknowledge.Invariant := by
  unfold State.acknowledge
  dsimp only
  split <;> exact { h with }

/-- Return from the handler (R208, R243). -/
theorem leaveFill {s : State} (h : s.Invariant) (hwait : s.fillState ≠ .waitTick) : s.leaveFill.Invariant :=
  { h with
    fillI_lt := nofun
    inFill_iff := by simp
    tickOpen_iff := iff_of_false (fun e => hwait (h.tickOpen_iff.mp e)) (by simp)
    inFill_dmaRun := nofun }


/-- The running engine never faults. -/
theorem engineStep {s : State} (h : s.Invariant) : ∃ t, Machine.engineStep s = .next t ∧ t.Invariant := by
  unfold Machine.engineStep
  split
  · exact ⟨_, rfl, h⟩
  · cases hs : s.fillState with
    | idle => exact ⟨_, rfl, h⟩
    | count => exact h.countStep hs
    | waitTick => exact ⟨_, rfl, h⟩
    | mix => exact h.mixStep hs
    | exit => exact ⟨_, rfl, h.acknowledge.leaveFill (by simp [hs])⟩

end State.Invariant

/-! ## The environment agents -/

/-- Where the next sample of the ring lies: in the other half exactly when its index is a multiple of the half. -/
theorem half_of_next {p n : Nat} (hn : 1 ≤ n) (hp : p < 2 * n) :
    (p + 1) % (2 * n) / n = if (p + 1) % (2 * n) % n = 0 then (p / n + 1) % 2 else p / n := by
  have front : ∀ k, k < n → k / n = 0 ∧ k % n = k := fun k hk => ⟨Nat.div_eq_of_lt hk, Nat.mod_eq_of_lt hk⟩
  have back : ∀ k, n ≤ k → k < 2 * n → k / n = 1 ∧ k % n = k - n := fun k hle hlt => by
    rw [Nat.div_eq_sub_div hn hle, Nat.mod_eq_sub_mod hle, (front (k - n) (by omega)).1, (front (k - n) (by omega)).2]
    exact ⟨rfl, rfl⟩
  rcases Nat.lt_or_ge p n with hfront | hback
  · rw [Nat.mod_eq_of_lt (by omega : p + 1 < 2 * n), (front p hfront).1]
    rcases Nat.lt_or_ge (p + 1) n with hlt | hge
    · simp [front _ hlt]
    · simp [back _ hge (by omega)]
      omega
  · rw [(back p hback hp).1]
    rcases Nat.lt_or_ge (p + 1) (2 * n) with hlt | hge
    · rw [Nat.mod_eq_of_lt hlt]
      simp [back _ (by omega) hlt]
      omega
    · rw [show p + 1 = 2 * n by omega, Nat.mod_self]
      simp

namespace State.Invariant

/-- Where the next read of the DMA agent lies (R80). -/
theorem nextHalf {s : State} (h : s.Invariant) :
    (s.drainPos + 1) % s.cfg.bufferSamples < s.cfg.bufferSamples ∧
    (s.drainPos + 1) % s.cfg.bufferSamples / s.cfg.halfSamples =
      if (s.drainPos + 1) % s.cfg.bufferSamples % s.cfg.halfSamples = 0 then (s.drainPos / s.cfg.halfSamples + 1) % 2
      else s.drainPos / s.cfg.halfSamples := by
  obtain ⟨hbuffer, hpos⟩ := wf_halves h.cfg_wf
  have hp := h.drainPos_lt
  rw [hbuffer] at hp ⊢
  exact ⟨Nat.mod_lt _ (by omega), half_of_next hpos hp⟩

/-- A read inside a half: the flip flag keeps naming it. -/
theorem drain {s : State} (h : s.Invariant)
    (hb : (s.drainPos + 1) % s.cfg.bufferSamples % s.cfg.halfSamples ≠ 0) : s.drain.Invariant := by
  obtain ⟨hlt, hnext⟩ := h.nextHalf
  rw [if_neg hb] at hnext
  exact { h with
    drainPos_lt := hlt
    drainHalf_eq := fun ho => (h.drainHalf_eq ho).trans hnext.symm }

/-- A read that reaches the next half, with its request: either that request waits, and the flip flag names the other half, or
one was lost (R77, R80). -/
theorem requestFill_drain {s : State} (h : s.Invariant) (hrun : s.dmaRun = true)
    (hb : (s.drainPos + 1) % s.cfg.bufferSamples % s.cfg.halfSamples = 0) : s.drain.requestFill.Invariant := by
  obtain ⟨hlt, hnext⟩ := h.nextHalf
  rw [if_pos hb] at hnext
  exact { h with
    drainPos_lt := hlt
    pendFill_dmaRun := fun _ => hrun
    drainHalf_eq := by
      intro ho
      obtain ⟨hover, hpend⟩ : s.fillOverrun = false ∧ s.pendFill = false := Bool.or_eq_false_iff.mp ho
      have hflip := h.drainHalf_eq hover
      have hd := Half.index_lt_two s.drainHalf
      rw [hpend, Bool.toNat_false, Nat.add_zero, Nat.mod_eq_of_lt hd] at hflip
      calc (s.drainHalf.index + 1) % 2 = (s.drainPos / s.cfg.halfSamples + 1) % 2 := by rw [hflip]
        _ = (s.drainPos + 1) % s.cfg.bufferSamples / s.cfg.halfSamples := hnext.symm }

/-- The DMA agent never faults: it stays in the buffer (R60). -/
theorem dmaStep {s : State} (h : s.Invariant) : ∃ t, Machine.dmaStep s = .next t ∧ t.Invariant := by
  have hp := h.drainPos_lt
  unfold Machine.dmaStep
  cases hrun : s.dmaRun with
  | false => exact ⟨_, rfl, h⟩
  | true =>
    simp only [Bool.not_true, Bool.false_eq_true, if_false, Nat.not_le.mpr hp]
    split
    · next hb => exact ⟨_, rfl, h.requestFill_drain hrun hb⟩
    · next hb => exact ⟨_, rfl, h.drain hb⟩

theorem timerDevStep {s : State} (h : s.Invariant) : s.timerDevStep.Invariant := by
  cases hr : s.timerRun with
  | true => rw [State.timerDevStep_running hr]; exact { h with pendTimer_timerRun := fun _ => hr }
  | false => rw [State.timerDevStep_stopped hr]; exact h

/-! ## Every step -/

theorem step {s t : State} (h : s.Invariant) (hstep : Machine.step s = .next t) : t.Invariant := by
  refine step_keeps (P := State.Invariant) (fun _ _ _ h he => h.exec he) (fun _ _ op hcode h => h.raiseCmdFault hcode op)
    (fun _ _ _ _ _ h => { h with }) (fun _ h => h.resumeHost) (fun s t h he => ?engine) (fun s t h he => ?dma)
    (fun _ h => h.timerDevStep) h hstep
  case engine =>
    obtain ⟨u, hu, hinv⟩ := h.engineStep
    cases hu.symm.trans he
    exact hinv
  case dma =>
    obtain ⟨u, hu, hinv⟩ := h.dmaStep
    cases hu.symm.trans he
    exact hinv

end State.Invariant

/-! ## Every turn answers a next state -/

theorem presentWord_next (w : Word) (s : State) : ∃ t, presentWord w s = .next t := by
  unfold presentWord
  split
  · exact ⟨_, rfl⟩
  · split
    · exact exec_next _ _
    · exact ⟨_, rfl⟩
    · exact ⟨_, rfl⟩

theorem hostTurn_next (s : State) : ∃ t, hostTurn s = .next t := by
  unfold hostTurn
  split_ifs
  · exact ⟨_, rfl⟩
  · exact ⟨_, rfl⟩
  · exact ⟨_, rfl⟩
  · split
    · exact ⟨_, rfl⟩
    · exact presentWord_next _ _

theorem sequencerTurn_next (s : State) : ∃ t, sequencerTurn s = .next t := by
  unfold sequencerTurn
  split
  · split
    · exact ⟨_, rfl⟩
    · exact presentWord_next _ _
    · exact exec_next _ _
  · exact ⟨_, rfl⟩

namespace State.Invariant

theorem fillTurn_next {s : State} (h : s.Invariant) : ∃ t, fillTurn s = .next t := by
  cases ha : s.acceptsFill with
  | true => rw [fillTurn_accepted ha]; exact exec_next _ _
  | false => rw [fillTurn_engine ha]; exact h.engineStep.imp fun _ ht => ht.1

/-- Only the engine and the DMA agent could stop, and they do not. -/
theorem runTurn_next {s : State} (h : s.Invariant) (turn : Turn) : ∃ t, runTurn turn s = .next t := by
  cases turn with
  | host slice => exact hostTurn_next _
  | sequencer => exact sequencerTurn_next _
  | fill => exact h.fillTurn_next
  | timerIrq => exact exec_next .evTimerIrq _
  | dma => exact h.dmaStep.imp fun _ ht => ht.1
  | timerDev => exact ⟨_, rfl⟩

end State.Invariant

/-! ## The statements on the invariant -/

/-- Settles O56: every operation keeps the invariant, the engine and the DMA agent keep it, and a step is made of these. -/
theorem stepKeepsTheInvariant : Obligations.StepKeepsTheInvariant :=
  fun s t h hstep => t.inv_iff.mpr ((s.inv_iff.mp h).step hstep)

/-- Settles O57: the configuration is not refused, and no turn reaches a fault. -/
theorem invariantStepsNeverStop : Obligations.InvariantStepsNeverStop := by
  intro s h
  have hinv := s.inv_iff.mp h
  have htook : s.tookTurn.Invariant := { hinv with }
  rw [step_of_wf hinv.cfg_wf]
  exact htook.runTurn_next _

/-- Settles O58: the invariant's clause on the flip flag, where nothing waits; and the store lies in the other half. -/
theorem fillWritesTheOtherHalf : Obligations.FillWritesTheOtherHalf := by
  intro s h hover hpend
  have hinv := s.inv_iff.mp h
  have hd := Half.index_lt_two s.drainHalf
  have hflip : s.drainHalf.index = s.drainPos / s.cfg.halfSamples := by
    simpa [hpend, Nat.mod_eq_of_lt hd] using hinv.drainHalf_eq hover
  refine ⟨hflip, fun hm => ?_⟩
  obtain ⟨hin, hhalf⟩ := hinv.fillIndex_mem hm
  exact ⟨hin, by omega⟩

end Sys2Proof.Machine
end

section
/-!
What the operations leave alone, and what a step only appends to: ownership (10_state.md R47, R48) and the traces (R37), with
the faults of a second INIT operation (60_exceptions.md R237).
-/

namespace Sys2Proof.Machine

open Sys2Proof.Claims

/-! ## A second INIT operation -/

/-- Settles O24: an admitted INIT operation whose flag is set acts by raising the fault. -/
theorem secondInitIsAFault : Obligations.SecondInitIsAFault := by
  intro s
  refine ⟨fun ha hi => ?timer, fun ha hi => ?fm, fun ha hi => ?pcm⟩
  case timer => exact congrArg Host.Outcome.next ((State.command_admits _ ha).trans (if_pos hi))
  case fm => exact congrArg Host.Outcome.next ((State.command_admits _ ha).trans (if_pos hi))
  case pcm => exact congrArg Host.Outcome.next ((State.command_admits _ ha).trans (if_pos hi))

/-! ## The registers of the fill engine -/

/-- From `s` to `t`, nothing changed that the fill engine owns (R47), nor the sample count, nor the configuration. -/
structure State.SameFill (s t : State) : Prop where
  phase : ∀ j : Fin 8, t.voices[j].phase = s.voices[j].phase
  tickCnt : t.tickCnt = s.tickCnt
  samplesDone : t.samplesDone = s.samplesDone
  cfg : t.cfg = s.cfg
  drainHalf : t.drainHalf = s.drainHalf
  fillI : t.fillI = s.fillI

theorem State.SameFill.refl (s : State) : s.SameFill s := ⟨fun _ => rfl, rfl, rfl, rfl, rfl, rfl⟩

/-- A store to one voice that keeps its phase keeps every phase. -/
theorem phase_set (vs : Vector Voice 8) (i j : Fin 8) {v : Voice} (hv : v.phase = vs[j].phase) :
    (vs.set j v)[i].phase = vs[i].phase := by
  by_cases hij : (j : Nat) = i
  · cases Fin.ext hij
    simpa using hv
  · simp [hij]

theorem setNote_phase (s : State) (i j : Fin 8) (b : Byte) : (s.setNote i b).voices[j].phase = s.voices[j].phase :=
  phase_set s.voices j i rfl

theorem setWave_phase (s : State) (i j : Fin 8) (b : Byte) : (s.setWave i b).voices[j].phase = s.voices[j].phase :=
  phase_set s.voices j i rfl

theorem setVol_phase (s : State) (i j : Fin 8) (b : Byte) : (s.setVol i b).voices[j].phase = s.voices[j].phase :=
  phase_set s.voices j i rfl

/-- No access writes a phase accumulator (R23). -/
theorem runAccess_phase (a : Access) (s : State) (j : Fin 8) :
    (runAccess a s).1.voices[j].phase = s.voices[j].phase := by
  cases a with
  | storeNote i b => exact setNote_phase s i j b
  | storeWave i b => exact setWave_phase s i j b
  | storeVol i b => exact setVol_phase s i j b
  | poll => simp only [runAccess, runPoll]; split_ifs <;> rfl
  | readAck => simp only [runAccess, runReadAck]; split <;> rfl
  | readMinor major => simp only [runAccess, runReadMinor]; split <;> rfl
  | readMixer => simp only [runAccess, runReadMixer]; split <;> rfl
  | _ => rfl

theorem State.SameFill.runAccess (a : Access) {s t : State} (h : s.SameFill t) :
    s.SameFill (Machine.runAccess a t).1 where
  phase j := (runAccess_phase a t j).trans (h.phase j)
  tickCnt := by simp [runAccess_frame, h.tickCnt]
  samplesDone := by simp [runAccess_frame, h.samplesDone]
  cfg := by simp [runAccess_frame, h.cfg]
  drainHalf := by simp [runAccess_frame, h.drainHalf]
  fillI := by simp [runAccess_frame, h.fillI]

/-- No command writes what the fill engine owns. -/
theorem State.SameFill.exec_command {i : Instr} {s t : State} (he : i.isEvent = false) (hx : exec i s = .next t) :
    s.SameFill t :=
  exec_command_keeps (P := s.SameFill) (fun a _ h => h.runAccess a) (fun _ _ h => { h with }) (fun _ _ _ h => { h with })
    (fun _ _ _ h => { h with }) (fun _ h => { h with }) (fun _ h => { h with }) (fun _ h => { h with })
    (fun u j b h => { h with phase := fun k => (setNote_phase u j k b).trans (h.phase k) })
    (fun u j b h => { h with phase := fun k => (setVol_phase u j k b).trans (h.phase k) })
    (fun _ _ h => { h with }) (fun _ _ h => { h with }) he (.refl s) hx

/-- The timer's interrupt and the tick's return write none of it either. -/
theorem State.SameFill.exec {i : Instr} {s t : State} (hi : i ≠ .evFillIrq) (hx : Machine.exec i s = .next t) :
    s.SameFill t := by
  cases i with
  | evFillIrq => exact absurd rfl hi
  | evTimerIrq => cases hx; split <;> exact { State.SameFill.refl s with }
  | evTickReturn => cases hx; split <;> exact { State.SameFill.refl s with }
  | _ => exact State.SameFill.exec_command rfl hx

/-- Settles O38: commands, the timer's interrupt and the tick's return write nothing the fill engine owns, and acceptance of the
playback interrupt writes the flip flag and `fill_i` only. -/
theorem onlyFillOwnsItsRegisters : Obligations.OnlyFillOwnsItsRegisters := by
  intro i s t hx
  by_cases hi : i = .evFillIrq
  · subst hi
    cases hx
    refine ⟨?_, ?_, ?_, ?_, fun hne => absurd rfl hne⟩ <;> split <;> simp
  · obtain ⟨hphase, htick, hdone, hcfg, hhalf, hfill⟩ := State.SameFill.exec hi hx
    exact ⟨hphase, htick, hdone, hcfg, fun _ => ⟨hhalf, hfill⟩⟩

/-! ## The traces -/

/-- From `s` to `t` the traces only grew (R37), and the configuration stayed. -/
structure State.GrowsTo (s t : State) : Prop where
  portTrace : s.portTrace <+: t.portTrace
  fmTrace : s.fmTrace <+: t.fmTrace
  pcmOut : s.pcmOut <+: t.pcmOut
  tickTrace : s.tickTrace <+: t.tickTrace
  samplesDone : s.samplesDone ≤ t.samplesDone
  cfg : t.cfg = s.cfg

namespace State.GrowsTo

theorem refl (s : State) : s.GrowsTo s :=
  ⟨List.prefix_refl _, List.prefix_refl _, List.prefix_refl _, List.prefix_refl _, Nat.le_refl _, rfl⟩

theorem trans {s t u : State} (h : s.GrowsTo t) (k : t.GrowsTo u) : s.GrowsTo u :=
  ⟨h.portTrace.trans k.portTrace, h.fmTrace.trans k.fmTrace, h.pcmOut.trans k.pcmOut, h.tickTrace.trans k.tickTrace,
    h.samplesDone.trans k.samplesDone, k.cfg.trans h.cfg⟩

end State.GrowsTo

/-- An access only appends to the port trace and the FM trace. -/
theorem runAccess_traces (a : Access) (s : State) :
    s.portTrace <+: (runAccess a s).1.portTrace ∧ s.fmTrace <+: (runAccess a s).1.fmTrace := by
  cases a with
  | poll => simp only [runAccess, runPoll]; split_ifs <;> simp
  | readAck => simp only [runAccess, runReadAck]; split <;> simp
  | readMinor major => simp only [runAccess, runReadMinor]; split <;> simp
  | readMixer => simp only [runAccess, runReadMixer]; split <;> simp
  | _ => simp [runAccess]

namespace State.GrowsTo

theorem runAccess {s t : State} (a : Access) (h : s.GrowsTo t) : s.GrowsTo (Machine.runAccess a t).1 := by
  obtain ⟨hport, hfm⟩ := runAccess_traces a t
  refine h.trans ⟨hport, hfm, ?_, ?_, ?_, ?_⟩ <;> simp [runAccess_frame]

theorem exec {i : Instr} {s t u : State} (h : s.GrowsTo t) (hx : Machine.exec i t = .next u) : s.GrowsTo u := by
  have command : i.isEvent = false → s.GrowsTo u := fun he =>
    exec_command_keeps (P := s.GrowsTo) (fun a _ h => h.runAccess a) (fun _ _ h => { h with }) (fun _ _ _ h => { h with })
      (fun _ _ _ h => { h with }) (fun _ h => { h with }) (fun _ h => { h with }) (fun _ h => { h with })
      (fun _ _ _ h => { h with }) (fun _ _ _ h => { h with }) (fun _ _ h => { h with }) (fun _ _ h => { h with }) he h hx
  cases i with
  | evTimerIrq => cases hx; split <;> exact { h with }
  | evFillIrq => cases hx; split <;> exact { h with }
  | evTickReturn => cases hx; split <;> exact { h with }
  | _ => exact command rfl

theorem acknowledge (s : State) : s.GrowsTo s.acknowledge := by
  unfold State.acknowledge
  dsimp only
  split <;> exact { refl s with portTrace := by simp }

theorem mixStep {s t : State} (h : Machine.mixStep s = .next t) : s.GrowsTo t := by
  unfold Machine.mixStep at h
  split at h
  · cases h
  · next u acc hu =>
    obtain ⟨hframe, -⟩ := mixVoices_frame hu
    split at h
    · cases h
      rw [hframe]
      exact { refl s with samplesDone := Nat.le_succ _ }
    · cases h

theorem countStep {s t : State} (h : Machine.countStep s = .next t) : s.GrowsTo t := by
  unfold Machine.countStep at h
  split_ifs at h
  · cases h
    unfold State.countDown
    dsimp only
    split
    · exact { refl s with tickTrace := List.prefix_append _ _ }
    · exact { refl s with }
  · cases h
    exact { refl s with }

theorem engineStep {s t : State} (h : Machine.engineStep s = .next t) : s.GrowsTo t := by
  unfold Machine.engineStep at h
  split at h
  · cases h; exact refl s
  · cases hs : s.fillState <;> rw [hs] at h
    case count => exact countStep h
    case mix => exact mixStep h
    case exit => cases h; exact { acknowledge s with }
    all_goals cases h; exact refl s

theorem dmaStep {s t : State} (h : Machine.dmaStep s = .next t) : s.GrowsTo t := by
  have hdrain : s.GrowsTo s.drain := { refl s with pcmOut := List.prefix_append _ _ }
  unfold Machine.dmaStep at h
  split at h
  · cases h; exact refl s
  · split at h
    · cases h
    · dsimp only at h
      split at h
      · cases h; exact { hdrain with }
      · cases h; exact hdrain

theorem timerDevStep (s : State) : s.GrowsTo s.timerDevStep := by
  unfold State.timerDevStep
  split <;> exact { refl s with }

end State.GrowsTo

/-- Settles O39: every operation and every agent only appends, so a step does. -/
theorem tracesOnlyGrow : Obligations.TracesOnlyGrow := by
  intro s t h
  obtain ⟨hport, hfm, hpcm, htick, hdone, hcfg⟩ : s.GrowsTo t :=
    step_keeps (P := s.GrowsTo) (fun _ _ _ h hx => h.exec hx) (fun _ _ _ _ h => { h with }) (fun _ _ _ _ _ h => { h with })
      (State.resumeHost_keeps (fun a _ h => h.runAccess a) fun _ _ h => { h with })
      (fun _ _ h hx => h.trans (.engineStep hx)) (fun _ _ h hx => h.trans (.dmaStep hx))
      (fun _ h => h.trans (.timerDevStep _)) (.refl s) h
  exact ⟨hport, hfm, hpcm, htick, hdone, hcfg⟩

end Sys2Proof.Machine
end

section
/-!
The agents where they start no command: the DMA agent's step (20_memory.md R80), the Host's other turns (R74, R75), and every
turn of a halted block (60_exceptions.md R233).
-/

namespace Sys2Proof.Machine

/-! ## The DMA agent -/

theorem dmaStep_stopped {s : State} (h : s.dmaRun = false) : dmaStep s = .next s := by
  simp [dmaStep, h]

/-- A running agent reads and moves on, and makes the request where it comes to a half boundary (R80). -/
theorem dmaStep_running {s : State} (hrun : s.dmaRun = true) (hpos : s.drainPos < s.cfg.bufferSamples) :
    dmaStep s = .next (if s.drain.drainPos % s.cfg.halfSamples = 0 then s.drain.requestFill else s.drain) := by
  simp only [dmaStep, hrun, Bool.not_true, Bool.false_eq_true, if_false, if_neg (Nat.not_le.mpr hpos)]
  split <;> rfl

/-- Settles O53: the read and the advance, with the request exactly at a half boundary. -/
theorem dmaStepEffect : Obligations.DmaStepEffect := by
  intro s
  refine ⟨dmaStep_stopped, fun hrun hpos hinside => ?inside, fun hrun hpos hboundary => ?boundary⟩ <;>
    rw [dmaStep_running hrun hpos]
  case inside => exact congrArg _ (if_neg hinside)
  case boundary => exact congrArg _ (if_pos hboundary)

/-! ## Turns of the Host that start no command -/

/-- Where the port takes no word, a word presented changes nothing (R75 (c), R233). -/
theorem presentWord_idle {s : State} (w : Word) (h : s.halted = true ∨ s.cmdReady = false) : presentWord w s = .next s := by
  have reject : ∀ code, s.rejectWord code w = s := by
    intro code
    rcases h with h | h <;> simp [State.rejectWord, h]
  unfold presentWord
  split
  · rw [reject]
  · next hfault =>
    split
    · next i hi =>
      obtain ⟨hop, -, -⟩ := decode_instr hi
      refine exec_idle h ?_
      simp only [wordFault, hop] at hfault
      exact Bool.eq_false_of_not_eq_true fun he => by simp [show i.op.isEvent = true from he] at hfault
    · rw [reject]
    · rw [reject]

theorem hostTurn_halted {s : State} (h : s.halted = true) : hostTurn s = .next { s with hostWords := s.hostWords.tail } :=
  if_pos h

theorem hostTurn_handler {s : State} (hh : s.halted = false) (h : s.inFill = true ∨ s.tickOpen = true) :
    hostTurn s = .next s := by
  simp [hostTurn, hh, h]

/-- An unfinished command goes on before any word is presented (R75). -/
theorem hostTurn_unfinished {s : State} (hh : s.halted = false) (hfill : s.inFill = false) (htick : s.tickOpen = false)
    (hops : s.hostOps ≠ []) : hostTurn s = .next s.resumeHost := by
  simp [hostTurn, hh, hfill, htick, hops]

theorem hostTurn_silent {s : State} (hh : s.halted = false) (hfill : s.inFill = false) (htick : s.tickOpen = false)
    (hops : s.hostOps = []) (hwords : s.hostWords = []) : hostTurn s = .next s := by
  simp [hostTurn, hh, hfill, htick, hops, hwords]

/-- Settles O59: each of the Host's other turns by its lemma, at the state with the turn taken and its cut noted. -/
theorem hostTurnResumesOrWaits : Obligations.HostTurnResumesOrWaits := by
  refine ⟨fun s k hwf hturn => ?_, fun s i hready he => exec_idle (.inr hready) he,
    fun s w hready => presentWord_idle w (.inr hready)⟩
  intro t
  have hstep : step s = hostTurn t := step_of_nextTurn hwf hturn
  rw [hstep]
  exact ⟨hostTurn_unfinished (s := t), hostTurn_handler (s := t), hostTurn_silent (s := t), hostTurn_halted (s := t)⟩

/-! ## The halted block -/

/-- A halted block ignores every operation, and accepts no event (R233, R240). -/
theorem exec_halted (i : Instr) {s : State} (h : s.halted = true) : exec i s = .next s := by
  cases i with
  | evTimerIrq => simp [exec, execEvTimerIrq, State.acceptsTimer, h]
  | evFillIrq => simp [exec, execEvFillIrq, State.acceptsFill, h]
  | evTickReturn => simp [exec, execEvTickReturn, State.acceptsTickReturn, h]
  | _ => exact exec_idle (.inl h) rfl

theorem engineStep_halted {s : State} (h : s.halted = true) : engineStep s = .next s :=
  if_pos h

/-- From `s` to `t` only the environment moved: the schedule, the inputs, the requests and what the DMA agent reads. -/
def State.EnvironmentMoved (s t : State) : Prop :=
  t = { s with
    turns := t.turns, slice := t.slice, hostWords := t.hostWords, seqActs := t.seqActs, pendFill := t.pendFill
    pendTimer := t.pendTimer, fillOverrun := t.fillOverrun, pcmOut := t.pcmOut, drainPos := t.drainPos }

theorem sequencerTurn_halted {s t : State} (h : s.halted = true) (ht : sequencerTurn s = .next t) :
    s.EnvironmentMoved t := by
  unfold sequencerTurn at ht
  split at ht
  · split at ht
    · cases ht; rfl
    · next w rest _ =>
      cases (presentWord_idle (s := { s with seqActs := rest }) w (.inl h)).symm.trans ht; rfl
    · next rest _ =>
      cases (exec_halted (s := { s with seqActs := rest }) .evTickReturn h).symm.trans ht; rfl
  · cases ht; rfl

theorem dmaStep_environment {s t : State} (ht : dmaStep s = .next t) : s.EnvironmentMoved t := by
  unfold dmaStep at ht
  split at ht
  · cases ht; rfl
  · split at ht
    · cases ht
    · dsimp only at ht
      split at ht
      · cases ht; rfl
      · cases ht; rfl

theorem State.timerDevStep_environment (s : State) : s.EnvironmentMoved s.timerDevStep := by
  unfold State.timerDevStep
  split <;> rfl

theorem runTurn_halted {turn : Turn} {s t : State} (h : s.halted = true) (ht : runTurn turn s = .next t) :
    s.EnvironmentMoved t := by
  cases turn with
  | host slice => cases (hostTurn_halted (s := { s with slice := slice }) h).symm.trans ht; rfl
  | sequencer => exact sequencerTurn_halted h ht
  | fill =>
    have hidle : fillTurn s = .next s := by
      rw [fillTurn_engine (by simp [State.acceptsFill, h]), engineStep_halted h]
    cases hidle.symm.trans ht; rfl
  | timerIrq => cases (exec_halted .evTimerIrq h).symm.trans ht; rfl
  | dma => exact dmaStep_environment ht
  | timerDev => cases ht; exact s.timerDevStep_environment

/-- Settles O8: operations by acceptance, steps turn by turn. -/
theorem haltedBlockIsFrozen : Obligations.HaltedBlockIsFrozen := by
  refine ⟨fun i s h => exec_halted i h, fun s t h ht => ?_⟩
  by_cases hwf : s.cfg.wf = true
  · exact runTurn_halted (s := s.tookTurn) h ((step_of_wf hwf).symm.trans ht)
  · cases (step_of_not_wf hwf).symm.trans ht

end Sys2Proof.Machine
end

section
/-!
Host commands that an interrupt cuts between two accesses (20_memory.md R74 to R76): how many accesses a command has, what a cut
command comes to when it goes on, and the torn `PCM_SET_WAVEFORM`.
-/

namespace Sys2Proof.Machine

/-! ## How many accesses a command has -/

/-- The access asks for nothing to run before the rest of its command: any but a poll and the first version read. -/
def Access.single : Access → Bool
  | .poll => false
  | .readMajor => false
  | _ => true

/-- A single access goes on with the rest of its command or ends it. -/
theorem runAccess_single {a : Access} (h : a.single = true) (s : State) :
    (runAccess a s).2 = none ∨ (runAccess a s).2 = some [] := by
  cases a with
  | poll => cases h
  | readMajor => cases h
  | readAck => simp only [runAccess, runReadAck]; split <;> simp
  | readMinor major => simp only [runAccess, runReadMinor]; split <;> simp
  | readMixer => simp only [runAccess, runReadMixer]; split <;> simp
  | _ => exact .inr rfl

/-- More accesses allowed than a run has change nothing. -/
theorem runAccesses_of_ended {m n : Nat} {ops : List Access} {s : State} (h : (runAccesses m ops s).2 = []) (hmn : m ≤ n) :
    runAccesses n ops s = runAccesses m ops s :=
  (runAccesses_done_mono (Prod.ext rfl h) hmn).trans (Prod.ext rfl h.symm)

/-- The accesses come to their end within `n`, from every state of configuration `c`. -/
def EndsWithin (c : Config) (n : Nat) (ops : List Access) : Prop := ∀ s : State, s.cfg = c → (runAccesses n ops s).2 = []

namespace EndsWithin

variable {c : Config} {n : Nat} {ops : List Access}

theorem nil : EndsWithin c 0 [] := fun _ _ => rfl

theorem mono {m : Nat} (h : EndsWithin c m ops) (hmn : m ≤ n) : EndsWithin c n ops := fun s hs => by
  rw [runAccesses_of_ended (h s hs) hmn, h s hs]

/-- One access more, whatever it asks for. -/
theorem cons {a : Access} (h : ∀ s t more, s.cfg = c → runAccess a s = (t, some more) → t.cfg = c →
    (runAccesses n (more ++ ops) t).2 = []) : EndsWithin c (n + 1) (a :: ops) := by
  intro s hs
  have hcfg : (runAccess a s).1.cfg = c := by simp [runAccess_frame, hs]
  rw [runAccesses_succ]
  cases hr : runAccess a s with
  | mk t more =>
    cases more with
    | none => rfl
    | some more => exact h s t more hs hr (by simpa [hr] using hcfg)

theorem single {a : Access} (ha : a.single = true) (h : EndsWithin c n ops) : EndsWithin c (n + 1) (a :: ops) := by
  refine cons fun s t more _ hr ht => ?_
  rcases runAccess_single ha s with hnone | hsome
  · simp [hr] at hnone
  · obtain rfl : more = [] := by simpa [hr] using hsome
    exact h t ht

theorem singles {as : List Access} (ha : ∀ a ∈ as, a.single = true) (h : EndsWithin c n ops) :
    EndsWithin c (as.length + n) (as ++ ops) := by
  induction as with
  | nil => simpa using h
  | cons a as ih =>
    obtain ⟨hfirst, hrest⟩ := List.forall_mem_cons.mp ha
    rw [List.length_cons, Nat.add_right_comm]
    exact single hfirst (ih hrest)

/-- The version query is two reads (R155). -/
theorem readMajor (h : EndsWithin c n ops) : EndsWithin c (n + 2) (.readMajor :: ops) := by
  refine cons fun s t more _ hr ht => ?_
  cases hr
  exact single (a := .readMinor s.portAnswer) rfl h _ ht

/-- The polling loop, entered below its bound, reads at most up to the bound (R153). -/
theorem poll (h : EndsWithin c n ops) (k : Nat) : ∀ s : State, s.cfg = c → s.pollCnt < c.resetPollMax →
    s.pollCnt + k = c.resetPollMax → (runAccesses (n + k) (.poll :: ops) s).2 = [] := by
  induction k with
  | zero => intro s _ hlt heq; omega
  | succ k ih =>
    intro s hs hlt heq
    rw [← Nat.add_assoc, runAccesses_succ]
    simp only [runAccess, runPoll]
    split_ifs with hset hbound
    · exact h.mono (Nat.le_add_right n k) _ hs
    · rfl
    · have hne : s.pollCnt + 1 ≠ c.resetPollMax := hs ▸ hbound
      refine ih _ hs ?_ ?_ <;> dsimp only <;> omega

/-- The polling loop from its start (R153). -/
theorem startPoll (hc : 1 ≤ c.resetPollMax) (h : EndsWithin c n ops) :
    EndsWithin c (n + c.resetPollMax + 1) (.startPoll :: .poll :: ops) := by
  refine cons fun s t more _ hr ht => ?_
  cases hr
  exact h.poll c.resetPollMax _ ht hc (Nat.zero_add _)

/-- A command of single accesses is whole within what a Host's turn without a cut makes. -/
theorem wholeCount_of_singles (h : ∀ a ∈ ops, a.single = true) : EndsWithin c (wholeCount c ops) ops := by
  have hend : EndsWithin c ops.length ops := by simpa using (nil (c := c)).singles h
  exact hend.mono (Nat.le_add_right _ _)

end EndsWithin

/-! ## Every command ends within its count -/

theorem fmWrites_single (ws : List FmRecord) : ∀ a ∈ fmWrites ws, a.single = true := by
  intro a ha
  simp only [fmWrites, fmWrite, List.mem_flatMap, List.mem_cons, List.not_mem_nil, or_false] at ha
  obtain ⟨w, -, rfl | rfl⟩ := ha <;> rfl

theorem assignAccesses_single (c : Config) (voice patch : Byte) : ∀ a ∈ assignAccesses c voice patch, a.single = true := by
  unfold assignAccesses
  split
  · exact fmWrites_single _
  · simp

theorem noteOnAccesses_single (c : Config) (voice octave note : Byte) :
    ∀ a ∈ noteOnAccesses c voice octave note, a.single = true := by
  unfold noteOnAccesses
  split <;> simp [fmWrite, Access.single]

/-- The bound on the status reads is at least 1 (R10). -/
theorem wf_resetPollMax {c : Config} (h : c.wf = true) : 1 ≤ c.resetPollMax := by
  obtain ⟨⟨⟨⟨-, hrates⟩, -⟩, -⟩, -⟩ := by simpa only [Config.wf, Bool.and_eq_true] using h
  obtain ⟨-, -, -, -, -, -, hpoll, -⟩ := (Config.wfRates_iff c).mp hrates
  exact hpoll

/-- What `PCM_INIT` does after the version query, without the polling loop and the query. -/
def afterVersionAccesses (c : Config) : List Access :=
  configureIrqAccesses c ++ dmaAccesses c ++ rateAccesses c ++ playAccesses c ++ initVoiceAccesses c ++ preloadAccesses c ++
    [.enterState .armed]

theorem pcmInitAccesses_eq (c : Config) : pcmInitAccesses c =
    [.initWrite c.ports.dspReset 0x01, .initWrite c.ports.dspReset 0x00, .enterState .resetPulsed] ++
      .startPoll :: .poll :: ([.readAck, dspWrite c c.ports.dspCmdVersion] ++ .readMajor :: afterVersionAccesses c) := by
  simp [pcmInitAccesses, handshakeAccesses, afterVersionAccesses]

theorem afterVersionAccesses_single (c : Config) : ∀ a ∈ afterVersionAccesses c, a.single = true := by
  simp [afterVersionAccesses, configureIrqAccesses, dmaAccesses, rateAccesses, playAccesses, initVoiceAccesses,
    preloadAccesses, dspWrite, Access.single, or_imp, forall_and]

/-- `PCM_INIT` is whole within its count: the second version read takes the place of one of the polls. -/
theorem pcmInitAccesses_ends {c : Config} (h : c.wf = true) :
    EndsWithin c (wholeCount c (pcmInitAccesses c)) (pcmInitAccesses c) := by
  have hafter : EndsWithin c ((afterVersionAccesses c).length + 0) (afterVersionAccesses c) := by
    simpa using (EndsWithin.nil (c := c)).singles (afterVersionAccesses_single c)
  have hquery := hafter.readMajor.singles (as := [.readAck, dspWrite c c.ports.dspCmdVersion])
    (by simp [dspWrite, Access.single])
  have hpulse := (EndsWithin.startPoll (wf_resetPollMax h) hquery).singles
    (as := [.initWrite c.ports.dspReset 0x01, .initWrite c.ports.dspReset 0x00, .enterState .resetPulsed])
    (by simp [Access.single])
  rw [pcmInitAccesses_eq]
  refine hpulse.mono ?_
  simp only [wholeCount, List.length_append, List.length_cons, List.length_nil]
  omega

/-! ## Runs do not look at the cut -/

/-- The state with another cut, another unfinished rest and another record of store orders. -/
def State.withCut (s : State) (slice : Option Nat) (ops : List Access) (orders : Source Bool) : State :=
  { s with slice := slice, hostOps := ops, storeOrder := orders }

section WithCut

variable (slice : Option Nat) (left : List Access) (orders : Source Bool)

theorem runAccess_withCut (a : Access) (s : State) : runAccess a (s.withCut slice left orders) =
    ((runAccess a s).1.withCut slice left orders, (runAccess a s).2) := by
  have hcfg : (s.withCut slice left orders).cfg = s.cfg := rfl
  have hanswer : (s.withCut slice left orders).portAnswer = s.portAnswer := rfl
  have hpolls : (s.withCut slice left orders).pollCnt = s.pollCnt := rfl
  cases a with
  | poll => simp only [runAccess, runPoll, hcfg, hanswer, hpolls]; split_ifs <;> rfl
  | readAck => simp only [runAccess, runReadAck, hcfg, hanswer]; split <;> rfl
  | readMinor major => simp only [runAccess, runReadMinor, hcfg, hanswer]; split <;> rfl
  | readMixer => simp only [runAccess, runReadMixer, hcfg, hanswer]; split <;> rfl
  | _ => rfl

theorem runAccesses_withCut (n : Nat) (ops : List Access) (s : State) :
    runAccesses n ops (s.withCut slice left orders) =
      ((runAccesses n ops s).1.withCut slice left orders, (runAccesses n ops s).2) := by
  induction n generalizing ops s with
  | zero => simp
  | succ n ih =>
    cases ops with
    | nil => simp
    | cons a ops =>
      simp only [runAccesses_succ, runAccess_withCut]
      rcases runAccess a s with ⟨t, _ | more⟩
      · rfl
      · exact ih _ _

end WithCut

/-- An access takes itself off its command, and nothing more, unless it ends the command. -/
theorem runAccesses_length (n : Nat) (ops : List Access) (s : State) :
    (runAccesses n ops s).2 = [] ∨ ops.length ≤ n + (runAccesses n ops s).2.length := by
  induction n generalizing ops s with
  | zero => simp
  | succ n ih =>
    cases ops with
    | nil => simp
    | cons a ops =>
      rw [runAccesses_succ]
      rcases runAccess a s with ⟨t, _ | more⟩
      · exact .inl rfl
      · refine (ih (more ++ ops) t).imp_right fun h => ?_
        simp only [List.length_append, List.length_cons] at h ⊢
        omega

/-- A cut command that goes on without a cut makes all its accesses. -/
theorem runAccesses_resumed {c : Config} {ops : List Access} (h : EndsWithin c (wholeCount c ops) ops) {s : State}
    (hs : s.cfg = c) (k : Nat) :
    runAccesses (wholeCount c (runAccesses k ops s).2) (runAccesses k ops s).2 (runAccesses k ops s).1 =
      runAccesses (wholeCount c ops) ops s := by
  rcases runAccesses_length k ops s with hdone | hleft
  · rw [hdone, runAccesses_nil, ← hdone]
    rcases Nat.le_total k (wholeCount c ops) with hle | hle
    · exact (runAccesses_of_ended hdone hle).symm
    · exact runAccesses_of_ended (h s hs) hle
  · rw [← runAccesses_add]
    exact runAccesses_of_ended (h s hs) (by unfold wholeCount; omega)

/-! ## Commands with and without a cut -/

section WithCut

variable {s : State} (ht : s.tickOpen = false) (slice : Option Nat) (orders : Source Bool) (ops : List Access)

include ht

/-- Outside a tick window the cut, where there is one, says how many accesses the Host makes (R74). -/
theorem State.budget_withCut (left : List Access) :
    (s.withCut slice left orders).budget ops = slice.getD (wholeCount s.cfg ops) := by
  cases slice <;> simp [State.budget, State.withCut, ht]

/-- A Host command makes its accesses up to the cut, and leaves the rest (R74). -/
theorem State.runCommand_withCut (left : List Access) {n : Nat} (hn : slice.getD (wholeCount s.cfg ops) = n) :
    (s.withCut slice left orders).runCommand ops =
      (runAccesses n ops s).1.withCut slice (runAccesses n ops s).2 orders := by
  simp only [State.runCommand, State.budget_withCut ht, runAccesses_withCut, hn]
  rw [if_neg (by simp [State.withCut, ht])]
  rfl

/-- The Host goes on with the rest in the same way. -/
theorem State.resumeHost_withCut {n : Nat} (hn : slice.getD (wholeCount s.cfg ops) = n) :
    (s.withCut slice ops orders).resumeHost =
      (runAccesses n ops s).1.withCut slice (runAccesses n ops s).2 orders := by
  change (let r := runAccesses ((s.withCut slice ops orders).budget ops) ops (s.withCut slice ops orders)
    { r.1 with hostOps := r.2 }) = _
  rw [State.budget_withCut ht, runAccesses_withCut, hn]
  rfl

end WithCut

/-! ## A cut command that goes on -/

/-- Going on from `t` without a cut leaves `u`, apart from the record of store orders. -/
def State.ResumesTo (t u : State) : Prop := State.resumeHost { t with slice := none } = { u with storeOrder := t.storeOrder }

namespace State.ResumesTo

/-- With nothing unfinished, going on changes nothing. -/
theorem of_done {t : State} (h : t.hostOps = []) : t.ResumesTo { t with slice := none } := by
  simp [State.ResumesTo, State.resumeHost, h]

/-- A cut command comes to what any accesses come to that do the same as its own when uncut. -/
theorem runCommand {s : State} {ops ops' : List Access} (ht : s.tickOpen = false)
    (hend : EndsWithin s.cfg (wholeCount s.cfg ops) ops)
    (hsame : runAccesses (wholeCount s.cfg ops) ops s = runAccesses (wholeCount s.cfg ops') ops' s)
    (k : Nat) (orders : Source Bool) :
    (State.runCommand { s with slice := some k, storeOrder := orders } ops).ResumesTo
      (State.runCommand { s with slice := none } ops') := by
  have hcut : State.runCommand { s with slice := some k, storeOrder := orders } ops = _ :=
    State.runCommand_withCut ht (some k) orders ops s.hostOps rfl
  have huncut : State.runCommand { s with slice := none } ops' = _ :=
    State.runCommand_withCut ht none s.storeOrder ops' s.hostOps rfl
  obtain ⟨hcfg, htick⟩ : (runAccesses k ops s).1.cfg = s.cfg ∧ (runAccesses k ops s).1.tickOpen = false :=
    runAccesses_keeps (P := fun t => t.cfg = s.cfg ∧ t.tickOpen = false) (fun a t h => by simpa [runAccess_frame] using h)
      k ops s ⟨rfl, ht⟩
  have hresume := State.resumeHost_withCut htick none orders (runAccesses k ops s).2 rfl
  rw [Option.getD_none, hcfg, runAccesses_resumed hend rfl k, hsame] at hresume
  rw [hcut, huncut]
  exact hresume

/-- A command of single accesses. -/
theorem runSingles {s : State} {ops : List Access} (ht : s.tickOpen = false) (h : ∀ a ∈ ops, a.single = true) (k : Nat) :
    (State.runCommand { s with slice := some k } ops).ResumesTo (State.runCommand { s with slice := none } ops) :=
  runCommand ht (.wholeCount_of_singles h) rfl k s.storeOrder

/-- A fault leaves nothing unfinished. -/
theorem raiseCmdFault {t u : State} (ht : t.hostOps = []) (hu : u = { t with slice := none }) (code opcode : Byte) :
    (t.raiseCmdFault code opcode).ResumesTo (u.raiseCmdFault code opcode) := by
  subst hu
  exact of_done (t := t.raiseCmdFault code opcode) ht

theorem checked {t u : State} {op : Op} {fault : Option Byte} {act act' : State → State} (ht : t.hostOps = [])
    (hu : u = { t with slice := none }) (hact : (act t).ResumesTo (act' u)) :
    (t.checked op fault act).ResumesTo (u.checked op fault act') := by
  cases fault with
  | none => exact hact
  | some code => exact raiseCmdFault ht hu code op.byte

/-- An INIT operation that may not run a second time. -/
theorem unlessInited {t u t' u' : State} {inited : Bool} {code opcode : Byte} (ht : t.hostOps = [])
    (hu : u = { t with slice := none }) (hrun : t'.ResumesTo u') :
    (if inited then t.raiseCmdFault code opcode else t').ResumesTo
      (if inited then u.raiseCmdFault code opcode else u') := by
  cases inited with
  | true => exact raiseCmdFault ht hu code opcode
  | false => exact hrun

/-- Acceptance does not look at the cut. -/
theorem command {s : State} {op : Op} {act : State → State} {k : Nat} (hh : s.halted = false) (hr : s.hostReady = true)
    (hact : (act { s with slice := some k }).ResumesTo (act { s with slice := none })) :
    (State.command { s with slice := some k } op act).ResumesTo (State.command { s with slice := none } op act) := by
  have key : ∀ slice, State.command { s with slice := slice } op act = if op.inBuild s.cfg.backend then
      act { s with slice := slice } else State.raiseCmdFault { s with slice := slice } cmdWrongBackend op.byte := by
    intro slice
    have hready : State.cmdReady { s with slice := slice } = true := Bool.or_eq_true_iff.mpr (.inr hr)
    unfold State.command
    rw [hready, if_neg (Bool.eq_false_iff.mp hh)]
    cases op.inBuild s.cfg.backend <;> simp
  obtain ⟨-, -, hops⟩ := s.hostReady_iff.mp hr
  rw [key, key]
  split
  · exact hact
  · exact raiseCmdFault (t := { s with slice := some k }) hops rfl _ _

end State.ResumesTo

/-! ## The two stores of `PCM_SET_WAVEFORM` -/

/-- The stores of both bytes, in either order, give the voice both. -/
theorem runAccesses_waveform (volumeFirst : Bool) (j : Fin 8) (w x : Byte) (n : Nat) (s : State) :
    runAccesses (2 + n) (waveformAccesses volumeFirst j w x) s =
      ({ s with voices := s.voices.set j { s.voices[j] with wave := w, vol := x } }, []) := by
  rw [Nat.add_comm]
  cases volumeFirst <;> simp [waveformAccesses, runAccesses_succ, runAccess, State.setWave, State.setVol]

theorem waveformAccesses_single (volumeFirst : Bool) (j : Fin 8) (w x : Byte) :
    ∀ a ∈ waveformAccesses volumeFirst j w x, a.single = true := by
  cases volumeFirst <;> simp [waveformAccesses, Access.single]

theorem wholeCount_waveform (c : Config) (volumeFirst : Bool) (j : Fin 8) (w x : Byte) :
    wholeCount c (waveformAccesses volumeFirst j w x) = 2 + c.resetPollMax := by
  cases volumeFirst <;> rfl

/-- By the operation: each is one store, or a run of accesses that comes to its end within its count. -/
theorem exec_resumesTo {i : Instr} {s : State} (k : Nat) (hwf : s.cfg.wf = true) (hh : s.halted = false)
    (ht : s.tickOpen = false) (hr : s.hostReady = true) (he : i.isEvent = false) :
    ∃ t u, exec i { s with slice := some k } = .next t ∧ exec i { s with slice := none } = .next u ∧ t.ResumesTo u := by
  obtain ⟨-, -, hops⟩ := s.hostReady_iff.mp hr
  cases i with
  | timerInit =>
    exact ⟨_, _, rfl, rfl, .command hh hr (.unlessInited hops rfl (.runSingles
      (s := { s with timerInited := true, timerDiv := _, timerFreq := _, tickCount := 0 }) ht
      (by simp [timerInitAccesses, Access.single]) k))⟩
  | timerGetTicks =>
    exact ⟨_, _, rfl, rfl, .command hh hr (.of_done (t := { s with slice := some k, rsp := _ }) hops)⟩
  | fmInit =>
    exact ⟨_, _, rfl, rfl, .command hh hr (.unlessInited hops rfl
      (.runSingles (s := { s with fmInited := true }) ht (fmWrites_single _) k))⟩
  | fmAssignInstrument voice patch =>
    exact ⟨_, _, rfl, rfl, .command hh hr (.checked hops rfl (.runSingles ht (assignAccesses_single _ _ _) k))⟩
  | fmSetNote voice octave note =>
    refine ⟨_, _, rfl, rfl, .command hh hr (.checked hops rfl ?_)⟩
    dsimp only
    split
    · exact .runSingles ht (by simp [keyOffAccesses, fmWrite, Access.single]) k
    · exact .runSingles ht (noteOnAccesses_single _ _ _ _) k
  | fmSetMaster volume =>
    exact ⟨_, _, rfl, rfl, .command hh hr (.of_done (t := { s with slice := some k }) hops)⟩
  | pcmInit =>
    exact ⟨_, _, rfl, rfl, .command hh hr (.unlessInited hops rfl (.runCommand
      (s := { s with pcmInited := true, initStep := 0 }) ht (pcmInitAccesses_ends hwf) rfl k s.storeOrder))⟩
  | pcmSetNote voice octave note =>
    exact ⟨_, _, rfl, rfl, .command hh hr (.checked hops rfl
      (.of_done (t := State.setNote { s with slice := some k } _ _) hops))⟩
  | pcmSetWaveform voice w x =>
    refine ⟨_, _, rfl, rfl, .command hh hr (.checked hops rfl ?_)⟩
    have hcut : State.mayBeCut { s with slice := some k } = true := by simp [State.mayBeCut, ht]
    have huncut : State.mayBeCut { s with slice := none } = false := by simp [State.mayBeCut]
    simp only [hcut, huncut, if_true, Bool.false_eq_true, if_false]
    exact .runCommand (s := s) ht (.wholeCount_of_singles (waveformAccesses_single _ _ _ _))
      (by simp only [wholeCount_waveform, runAccesses_waveform]) k _
  | pcmSetVolume voice x =>
    exact ⟨_, _, rfl, rfl, .command hh hr (.checked hops rfl
      (.of_done (t := State.setVol { s with slice := some k } _ _) hops))⟩
  | pcmSetMaster x =>
    exact ⟨_, _, rfl, rfl, .command hh hr (.of_done (t := { s with slice := some k, master := x }) hops)⟩
  | evTimerIrq => cases he
  | evFillIrq => cases he
  | evTickReturn => cases he

/-- Settles O37: going on from the cut leaves what the uncut command leaves. -/
theorem cutCommandResumesWhole : Obligations.CutCommandResumesWhole :=
  fun _ _ k hwf hh ht hr he => exec_resumesTo k hwf hh ht hr he

/-- The checks of `PCM_SET_WAVEFORM` pass operands in their ranges (R181). -/
theorem pcmWaveformFault_of_inRange {c : Config} {voice w : Byte} (hv : voice.toNat < 8)
    (hw : w ∈ [c.waveSine, c.waveSquare, c.waveNoise, c.waveTriangle]) : pcmWaveformFault c voice w = none := by
  have hwave : c.isWave w = true := decide_eq_true hw
  simp [pcmWaveformFault, Nat.not_le.mpr hv, hwave]

/-- A Host's `PCM_SET_WAVEFORM` that may be cut draws the order of its stores. -/
theorem execPcmSetWaveform_cut {s : State} {voice w x : Byte} (ha : s.admits .pcmSetWaveform = true)
    (hcut : s.mayBeCut = true) (hv : voice.toNat < 8)
    (hw : w ∈ [s.cfg.waveSine, s.cfg.waveSquare, s.cfg.waveNoise, s.cfg.waveTriangle]) :
    exec (.pcmSetWaveform voice w x) s = .next
      (State.runCommand { s with storeOrder := (s.storeOrder.next Config.freeVolumeFirst).2 }
        (waveformAccesses s.volumeFirst (pcmVoice voice) w x)) := by
  change Host.Outcome.next (s.command _ _) = _
  rw [State.command_admits _ ha, pcmWaveformFault_of_inRange hv hw, State.checked_none, if_pos hcut]

/-- The order drawn is the listed one, where one is listed. -/
theorem State.volumeFirst_cons {s : State} {b : Bool} {bs : List Bool} (h : s.storeOrder.listed = b :: bs) :
    s.volumeFirst = b := by
  simp [State.volumeFirst, Source.next, h]

/-- Settles O32: after one access the voice has the byte the order puts first, and the next access stores the other. -/
theorem hostWaveformMayBeTorn : Obligations.HostWaveformMayBeTorn := by
  intro s voice w x ha ht hslice hv hw j
  have hone : ∀ count, s.slice.getD count = 1 := by simp [hslice]
  have hexec := execPcmSetWaveform_cut (x := x) ha (by simp [State.mayBeCut, ht, hslice]) hv hw
  have horder : ∀ b bs, s.storeOrder.listed = b :: bs → s.volumeFirst = b := fun _ _ => State.volumeFirst_cons
  generalize (s.storeOrder.next Config.freeVolumeFirst).2 = orders at hexec
  generalize s.volumeFirst = volumeFirst at hexec horder
  have hcut := State.runCommand_withCut ht s.slice orders (waveformAccesses volumeFirst j w x) s.hostOps (hone _)
  have htick : (runAccesses 1 (waveformAccesses volumeFirst j w x) s).1.tickOpen = false :=
    runAccesses_keeps (P := fun t => t.tickOpen = false) (fun a t h => by simpa [runAccess_frame] using h) _ _ _ ht
  have hresume := State.resumeHost_withCut htick s.slice orders
    (runAccesses 1 (waveformAccesses volumeFirst j w x) s).2 (hone _)
  rw [← runAccesses_add, runAccesses_waveform volumeFirst j w x 0] at hresume
  refine ⟨_, hexec.trans (congrArg _ hcut), ?_⟩
  cases volumeFirst with
  | false => exact ⟨rfl, .inl ⟨rfl, rfl⟩, fun _ _ => rfl, fun bs h => absurd (horder true bs h) (by decide), hresume⟩
  | true => exact ⟨rfl, .inr ⟨rfl, rfl⟩, fun bs h => absurd (horder false bs h) (by decide), fun _ _ => rfl, hresume⟩

end Sys2Proof.Machine
end

section
/-!
The encoding of the operations (30_encoding.md): decoding and encoding are inverse to each other, what a presented word comes
to by its fields, and the values of the packed bytes of R96 and R97.
-/

namespace Sys2Proof

/-! ## Decoding and encoding -/

/-- The decoder on a word whose opcode selects a row (R92). -/
theorem decode_of_ofByte {w : Word} {op : Op} (h : Op.ofByte (opField w) = some op) :
    decode w = if op.reservedZero (voiceField w) (aField w) (bField w) then
      .instr (op.build (voiceField w) (aField w) (bField w)) else .reservedField op := by
  simp only [decode, h]

theorem Op.reservedZero_iff (op : Op) (voice a b : Byte) : op.reservedZero voice a b = true ↔
    (op.usesVoice = true ∨ voice = 0) ∧ (op.usesA = true ∨ a = 0) ∧ (op.usesB = true ∨ b = 0) := by
  simp [Op.reservedZero, and_assoc]

/-- The word of an operation built from fields whose reserved ones are zero has these fields. -/
theorem encode_build {op : Op} {voice a b : Byte} (h : op.reservedZero voice a b = true) :
    encode (op.build voice a b) = packWord op.byte voice a b := by
  cases op <;> simp_all [Op.reservedZero, Op.usesVoice, Op.usesA, Op.usesB, Op.build, Op.byte, encode]

/-- Every operation is its row, built from fields whose reserved ones are zero. -/
theorem Instr.exists_fields (i : Instr) :
    ∃ voice a b, i.op.reservedZero voice a b = true ∧ i.op.build voice a b = i := by
  cases i with
  | fmAssignInstrument voice patch => exact ⟨voice, patch, 0, rfl, rfl⟩
  | fmSetNote voice octave note => exact ⟨voice, octave, note, rfl, rfl⟩
  | fmSetMaster volume => exact ⟨0, 0, volume, rfl, rfl⟩
  | pcmSetNote voice octave note => exact ⟨voice, octave, note, rfl, rfl⟩
  | pcmSetWaveform voice waveform volume => exact ⟨voice, waveform, volume, rfl, rfl⟩
  | pcmSetVolume voice volume => exact ⟨voice, 0, volume, rfl, rfl⟩
  | pcmSetMaster volume => exact ⟨0, 0, volume, rfl, rfl⟩
  | _ => exact ⟨0, 0, 0, rfl, rfl⟩

theorem decode_encode (i : Instr) : decode (encode i) = .instr i := by
  obtain ⟨voice, a, b, hzero, hbuild⟩ := i.exists_fields
  have hword : encode i = packWord i.op.byte voice a b := by rw [← encode_build hzero, hbuild]
  rw [hword, decode_of_ofByte (op := i.op) (by simp [Op.ofByte_byte])]
  simp [hzero, hbuild]

theorem encode_of_decode {w : Word} {i : Instr} (h : decode w = .instr i) : encode i = w := by
  obtain ⟨hop, hzero, hbuild⟩ := decode_instr h
  calc encode i = packWord i.op.byte (voiceField w) (aField w) (bField w) := by rw [hbuild, encode_build hzero, Op.build_op]
    _ = w := by rw [Op.byte_of_ofByte hop, packWord_fields]

/-- Settles O1: an operation is its row with its fields, and so is its word. -/
theorem decodeAndEncodeAgree : Obligations.DecodeAndEncodeAgree :=
  ⟨decode_encode, fun _ _ => encode_of_decode⟩

theorem decode_of_encode {w : Word} {i : Instr} (h : encode i = w) : decode w = .instr i :=
  h ▸ decode_encode i

/-- Settles O2: each word is its operation's, and no row has opcode 0. -/
theorem specWordsDecode : Obligations.SpecWordsDecode :=
  ⟨decode_of_encode rfl, decode_of_encode rfl, decode_of_encode rfl, decode_of_encode rfl, decode_of_encode rfl,
    decode_of_encode rfl, decode_of_encode rfl, decode_of_encode rfl, decode_of_encode rfl, decode_of_encode rfl,
    decode_of_encode rfl, decode_of_encode rfl, decode_of_encode rfl, decode_of_encode rfl, decode_of_encode rfl, rfl⟩

namespace Machine

open Sys2Proof.Claims

/-! ## A presented word -/

/-- The opcodes of the commands are those of the rows of format C (R92). -/
theorem mem_commandOps_iff (b : Byte) : b ∈ commandOps ↔ ∃ op, Op.ofByte b = some op ∧ op.isEvent = false := by
  constructor
  · intro h
    have hsome : ∀ b ∈ commandOps, ∃ op ∈ Op.ofByte b, op.isEvent = false := by decide
    exact hsome b h
  · rintro ⟨op, hop, hc⟩
    rw [← Op.byte_of_ofByte hop]
    revert hc
    cases op <;> decide

/-- A command's opcode is wrong for a build exactly when the build lacks the row (R95). -/
theorem wrongBackend_iff (bk : Backend) {op : Op} (hc : op.isEvent = false) :
    wrongBackend bk op.byte ↔ op.inBuild bk = false := by
  unfold wrongBackend
  revert hc
  cases bk <;> cases op <;> decide

/-- A cell of R92 shown as 0 is not zero exactly when the row's check of its reserved fields fails. -/
theorem reservedNonzero_iff {w : Word} {op : Op} (hop : Op.ofByte (opField w) = some op) (hc : op.isEvent = false) :
    reservedNonzero w ↔ ¬ op.reservedZero (voiceField w) (aField w) (bField w) = true := by
  have hbyte : w.extractLsb' 24 8 = op.byte := (Op.byte_of_ofByte hop).symm
  rw [Op.reservedZero_iff]
  unfold reservedNonzero
  rw [hbyte]
  cases op with
  | evTimerIrq | evFillIrq | evTickReturn => cases hc
  | _ => simp [Op.byte, Op.usesVoice, Op.usesA, Op.usesB, voiceField, aField, bField, imp_iff_not_or]

/-- The checks on a word whose opcode is a command's: the backend, then the reserved fields (R237). -/
theorem wordFault_of_ofByte {bk : Backend} {w : Word} {op : Op} (hop : Op.ofByte (opField w) = some op)
    (hc : op.isEvent = false) :
    wordFault bk w = if op.inBuild bk = false then some cmdWrongBackend
      else if op.reservedZero (voiceField w) (aField w) (bField w) then none else some cmdReservedField := by
  cases hb : op.inBuild bk <;> cases hz : op.reservedZero (voiceField w) (aField w) (bField w) <;>
    simp [wordFault, hop, hc, hb, hz]

/-- A word that is no command's raises the fault where the port takes it (R236). -/
theorem presentWord_fault {s : State} {w : Word} {code : Byte} (hh : s.halted = false) (hr : s.cmdReady = true)
    (h : wordFault s.cfg.backend w = some code) : presentWord w s = .next (faulted s code (opField w)) := by
  simp [presentWord, h, State.rejectWord, hh, hr, State.raiseCmdFault, faulted]

/-- An opcode of no row of format C is illegal on `cmd` (R94 (a)). -/
theorem wordFault_illegal {bk : Backend} {w : Word} (h : opField w ∉ commandOps) :
    wordFault bk w = some cmdIllegalOpcode := by
  rw [mem_commandOps_iff] at h
  push Not at h
  unfold wordFault
  cases hop : Op.ofByte (opField w) with
  | none => rfl
  | some op => simp [Bool.eq_true_of_not_eq_false (h op hop)]

/-- Settles O3: the row of the opcode, then its backend, then its reserved fields decide. -/
theorem commandWordFaultsInOrder : Obligations.CommandWordFaultsInOrder := by
  intro s w hh hr opcode
  by_cases hcmd : opcode ∈ commandOps
  case neg =>
    exact ⟨fun _ => presentWord_fault hh hr (wordFault_illegal hcmd), fun h => absurd h hcmd, fun h => absurd h hcmd,
      fun h => absurd h hcmd⟩
  case pos =>
    obtain ⟨op, hop, hc⟩ := (mem_commandOps_iff opcode).mp hcmd
    have hbyte : opcode = op.byte := (Op.byte_of_ofByte hop).symm
    have hfault := wordFault_of_ofByte (bk := s.cfg.backend) hop hc
    rw [hbyte, wrongBackend_iff _ hc, reservedNonzero_iff hop hc, ← hbyte]
    refine ⟨fun h => absurd hcmd h, fun _ hbk => ?backend, fun _ hbk hzero => ?reserved, fun _ hbk hzero => ?runs⟩
    case backend => exact presentWord_fault hh hr (hfault.trans (if_pos hbk))
    case reserved => exact presentWord_fault hh hr (hfault.trans ((if_neg hbk).trans (if_neg hzero)))
    case runs =>
      have hdecode := (decode_of_ofByte hop).trans (if_pos (not_not.mp hzero))
      exact ⟨_, hdecode, presentWord_command hdecode (by simpa [Instr.isEvent] using hc)⟩

/-! ## Packed bytes -/

/-- The note byte is octave times 16 plus note (R96). -/
theorem packNote_eq {octave note : Byte} (hnote : note.toNat ≤ 15) (hoctave : octave.toNat ≤ 15) :
    packNote octave note = BitVec.ofNat 8 (16 * octave.toNat + note.toNat) := by
  obtain ⟨hn, ho⟩ := packNote_fields hnote hoctave
  apply BitVec.eq_of_toNat_eq
  rw [BitVec.toNat_ofNat, ← hn, ← ho]
  unfold noteOf octaveOf
  omega

/-- The key byte is F-number bits 9:8, the block times 4, and the key-on bit (R97). -/
theorem keyByte_toNat (f : BitVec 10) {octave : Byte} (h : octave.toNat ≤ 7) :
    (keyByte f octave).toNat = f.toNat / 256 + 4 * octave.toNat + 32 := by
  have hf : f.toNat / 256 < 2 ^ 2 := by omega
  have hblock := Nat.two_pow_add_eq_or_of_lt hf octave.toNat
  have hkey := Nat.two_pow_add_eq_or_of_lt (i := 5) (b := 2 ^ 2 * octave.toNat + f.toNat / 256) (by omega) 1
  have hfields : (keyByte f octave).toNat = f.toNat / 256 ||| 2 ^ 2 * octave.toNat ||| 2 ^ 5 * 1 := by
    simp only [keyByte, keyOnBit, BitVec.toNat_or, BitVec.toNat_shiftLeft, Nat.shiftLeft_eq, BitVec.truncate_eq_setWidth,
      BitVec.toNat_setWidth, BitVec.extractLsb'_toNat, Nat.shiftRight_eq_div_pow]
    congr 2 <;> omega
  rw [hfields, Nat.or_comm (f.toNat / 256), ← hblock, Nat.or_comm, ← hkey]
  omega

theorem keyByte_eq (f : BitVec 10) {octave : Byte} (h : octave.toNat ≤ 7) :
    keyByte f octave = BitVec.ofNat 8 (f.toNat / 256 + 4 * octave.toNat + 32) := by
  rw [← keyByte_toNat f h, BitVec.ofNat_toNat, BitVec.setWidth_eq]

/-- A key-off clears bit 5 and keeps the others (R134). -/
theorem keyOffByte_getLsbD (k : Byte) {n : Nat} (hn : n < 8) :
    (keyOffByte k).getLsbD n = (decide (n ≠ 5) && k.getLsbD n) := by
  have hmask : ∀ n < 8, (0xDF : Byte).getLsbD n = decide (n ≠ 5) := by decide
  rw [keyOffByte, BitVec.getLsbD_and, hmask n hn, Bool.and_comm]

/-- Settles O20: the fields of the key byte's value, and the mask of the key-off byte. -/
theorem keyByteLayout : Obligations.KeyByteLayout := by
  intro f octave h
  have hkey := keyByte_toNat f h
  have hf := f.isLt
  refine ⟨?fnum, ?block, ?keyOn, ?zero, fun k n hn => keyOffByte_getLsbD k hn⟩
  case keyOn =>
    have hbit : (f.toNat / 256 + 4 * octave.toNat + 32) / 2 ^ 5 % 2 = 1 := by omega
    rw [BitVec.getLsbD, hkey, Nat.testBit_eq_decide_div_mod_eq, hbit]
    rfl
  all_goals
    apply BitVec.eq_of_toNat_eq
    simp only [BitVec.extractLsb'_toNat, Nat.shiftRight_eq_div_pow, hkey, BitVec.ofNat_eq_ofNat, BitVec.toNat_ofNat]
    omega

end Machine

end Sys2Proof
end

section
/-!
What single commands do, whole: `TIMER_INIT` (40_timer.md), the assignment and the note-on of the FM encoder
(41_fm_encoder.md), and `PCM_SET_NOTE` (43_pcm_commands.md); and that only `TIMER_GET_TICKS` responds (30_encoding.md R107).
-/

namespace Sys2Proof.Machine

open Sys2Proof.Claims

/-! ## Responses -/

/-- No access responds, and so no command's run of accesses does (R107). -/
@[simp] theorem State.runCommand_rsp (s : State) (ops : List Access) : (s.runCommand ops).rsp = s.rsp :=
  State.runCommand_keeps (P := fun t => t.rsp = s.rsp) (fun a t h => by simpa [runAccess_frame] using h) (fun _ _ h => h)
    s ops rfl

theorem State.command_rsp {s : State} {op : Op} {act : State → State} (h : (act s).rsp = s.rsp) :
    (s.command op act).rsp = s.rsp := by
  rcases s.command_cases op act with e | ⟨-, e⟩ | ⟨-, e⟩ <;> rw [e]
  · rfl
  · exact h

theorem State.checked_rsp {s : State} {op : Op} {fault : Option Byte} {act : State → State} (h : (act s).rsp = s.rsp) :
    (s.checked op fault act).rsp = s.rsp := by
  cases fault with
  | none => exact h
  | some code => rfl

/-- Settles O12: an admitted `TIMER_GET_TICKS` acts, and the act of any other operation leaves `rsp` alone. -/
theorem onlyGetTicksResponds : Obligations.OnlyGetTicksResponds := by
  refine ⟨fun s ha => congrArg Host.Outcome.next (State.command_admits _ ha), fun i s t hi hx => ?_⟩
  cases i with
  | timerGetTicks => exact absurd rfl hi
  | timerInit | fmInit | pcmInit => cases hx; refine State.command_rsp ?_; split <;> simp
  | fmAssignInstrument voice patch => cases hx; exact State.command_rsp (State.checked_rsp (by simp))
  | fmSetNote voice octave note => cases hx; refine State.command_rsp (State.checked_rsp ?_); split <;> simp
  | pcmSetWaveform voice w x => cases hx; refine State.command_rsp (State.checked_rsp ?_); split <;> simp
  | pcmSetNote voice octave note => cases hx; exact State.command_rsp (State.checked_rsp rfl)
  | pcmSetVolume voice x => cases hx; exact State.command_rsp (State.checked_rsp rfl)
  | fmSetMaster volume | pcmSetMaster volume => cases hx; exact State.command_rsp rfl
  | evTimerIrq | evFillIrq | evTickReturn => cases hx; split <;> rfl

/-! ## The system timer -/

theorem lowByte_ofNat (d : Nat) : lowByte (BitVec.ofNat 16 d) = BitVec.ofNat 8 d := by
  apply BitVec.eq_of_toNat_eq
  simp only [lowByte, BitVec.extractLsb'_toNat, BitVec.toNat_ofNat, Nat.shiftRight_eq_div_pow]
  omega

theorem highByte_ofNat (d : Nat) : highByte (BitVec.ofNat 16 d) = BitVec.ofNat 8 (d / 256) := by
  apply BitVec.eq_of_toNat_eq
  simp only [highByte, BitVec.extractLsb'_toNat, BitVec.toNat_ofNat, Nat.shiftRight_eq_div_pow]
  omega

/-- Settles O9: three port writes and the start of the timer, after the registers; 65536 goes out as two zero bytes. -/
theorem timerInitEffect : Obligations.TimerInitEffect := by
  intro s ha hw hi d
  obtain ⟨-, hready, -⟩ := (s.admits_iff _).mp ha
  refine congrArg Host.Outcome.next ((State.command_admits _ ha).trans ((if_neg (by simp [hi])).trans ?_))
  refine (State.runCommand_straight (by exact hw) ?straight (by exact State.hostOps_of_cmdReady hready)).trans ?effect
  case straight => simp [timerInitAccesses, runAccess]
  case effect => simp [timerInitAccesses, runAccess, State.portWrite, lowByte_ofNat, highByte_ofNat, timerDivisor, d]

/-! ## FM register writes -/

/-- FM register writes, made one after another, leave what R130 says. -/
theorem foldl_fmWrites (ws : List FmRecord) (s : State) :
    (fmWrites ws).foldl (fun t a => (runAccess a t).1) s = wrote s ws := by
  induction ws generalizing s with
  | nil => simp [fmWrites, wrote]
  | cons w ws ih =>
    have hports : fmPorts s.cfg.ports w =
        [.write (fmIndexPort s.cfg.ports w.bank) w.reg, .write (fmDataPort s.cfg.ports w.bank) w.val] := by
      cases hb : w.bank <;> simp [fmPorts, hb, fmIndexPort, fmDataPort]
    rw [fmWrites, List.flatMap_cons, List.foldl_append, ← fmWrites, ih]
    simp [wrote, fmWrite, runAccess, State.fmSelect, State.fmStore, State.portWrite, hports]

/-- A command of FM register writes that no interrupt cuts. -/
theorem State.runCommand_fmWrites {s : State} {op : Op} (ha : s.admits op = true) (hw : s.runsWhole = true)
    (ws : List FmRecord) : s.runCommand (fmWrites ws) = wrote s ws := by
  obtain ⟨-, hready, -⟩ := (s.admits_iff op).mp ha
  rw [State.runCommand_straight hw (fmWrites_straight ws) (State.hostOps_of_cmdReady hready), foldl_fmWrites]

theorem fmVoiceFault_of_inRange {c : Config} {voice : Byte} (hv : voice.toNat < c.fmVoices) (h6 : voice.toNat < 6) :
    fmVoiceFault c voice = none :=
  if_neg (by omega)

/-- Settles O17: the voice and the patch are in range, and the accesses are the 13 writes. -/
theorem fmAssignEffect : Obligations.FmAssignEffect := by
  intro s voice patch p s1 s2 ha hw hv h6 hp h1 h2
  have hpatch : patch.toNat < s.cfg.patches.length := (List.getElem?_eq_some_iff.mp hp).1
  have hfault : fmAssignFault s.cfg voice patch = none := by
    simp only [fmAssignFault, fmVoiceFault_of_inRange hv h6, Config.numPatches, Nat.not_le.mpr hpatch, if_false]
  refine congrArg Host.Outcome.next ((State.command_admits _ ha).trans ?_)
  simp only [hfault, State.checked_none, assignAccesses, hp, State.runCommand_fmWrites ha hw]
  simp [assignWrites, operatorWrites, op1SlotOf, op2SlotOf, h1, h2]

/-- The frequency byte is the F-number's low byte (R98). -/
theorem freqByte_eq (f : BitVec 10) : freqByte f = BitVec.ofNat 8 f.toNat := by
  apply BitVec.eq_of_toNat_eq
  simp [freqByte, BitVec.extractLsb'_toNat]

/-- Settles O19: the operands are in range, and the accesses are the two writes and the store to the cache. -/
theorem fmNoteOnEffect : Obligations.FmNoteOnEffect := by
  intro s voice octave note f ha hw hv h6 hnone hlow hhigh hoct hf k
  have hfault : fmNoteFault s.cfg voice octave note = none := by
    simp only [fmNoteFault, fmVoiceFault_of_inRange hv h6, hnone, if_false]
    rw [if_neg (by omega), if_neg (by omega)]
  have hentry : s.cfg.fnumAt note.toNat = some f := by
    rw [← Nat.sub_add_cancel hlow]
    exact hf
  have hops : noteOnAccesses s.cfg voice octave note =
      fmWrites [⟨.primary, s.cfg.fmMap.freq + voice, BitVec.ofNat 8 f.toNat⟩, ⟨.primary, s.cfg.fmMap.key + voice, k⟩] ++
        [.cacheKey (fmVoice voice) k] := by
    simp [noteOnAccesses, hentry, fmWrites, freqByte_eq, keyByte_eq f hoct, k]
  obtain ⟨-, hready, -⟩ := (s.admits_iff _).mp ha
  refine congrArg Host.Outcome.next ((State.command_admits _ ha).trans ?_)
  rw [hfault, State.checked_none, if_neg hnone, hops, State.runCommand_straight hw ?_ (State.hostOps_of_cmdReady hready),
    List.foldl_append, foldl_fmWrites]
  · rfl
  · exact List.forall_mem_append.mpr ⟨fmWrites_straight _, by simp [runAccess]⟩

/-! ## `PCM_SET_NOTE` -/

theorem pcmNoteFault_of_inRange {c : Config} {voice octave note : Byte} (hv : voice.toNat < 8) (hn : note.toNat ≤ 12)
    (ho : octave.toNat ≤ 15) (hr : note ≠ 0 → octave.toNat < c.numOctaves) : pcmNoteFault c voice octave note = none := by
  unfold pcmNoteFault
  rw [if_neg (by omega), if_neg (by omega), if_neg (by omega), if_neg (fun h => by have := hr h.1; omega)]

/-- Settles O30: the operands are in range, and the byte stored is octave times 16 plus note. -/
theorem pcmSetNoteEffect : Obligations.PcmSetNoteEffect := by
  intro s voice octave note ha hv hn ho hr v
  refine congrArg Host.Outcome.next ((State.command_admits _ ha).trans ?_)
  rw [pcmNoteFault_of_inRange hv hn ho hr, State.checked_none, packNote_eq (by omega) ho]
  rfl

end Sys2Proof.Machine
end

section
/-!
`PCM_INIT` where the device does not answer as it should (42_pcm_init.md): the reset handshake, the version query and the
mixer configuration as runs of accesses, each with the failure that ends it (60_exceptions.md R231, R232).
-/

namespace Sys2Proof.Machine

open Sys2Proof.Claims

/-! ## The diagnostic line -/

theorem digit_eq_digitChar {n : Nat} (h : n < 10) : digit n = Nat.digitChar n := by
  revert n
  decide

/-- A byte in decimal is its digits in base 10 (R102 (a)). -/
theorem decimal_eq_toDigits (b : Byte) : decimal b = Nat.toDigits 10 b.toNat := by
  have hb := b.isLt
  have hhundreds : b.toNat / 10 / 10 = b.toNat / 100 := Nat.div_div_eq_div_mul _ 10 10
  simp only [decimal]
  split_ifs with hten hhundred
  · rw [digit_eq_digitChar hten, Nat.toDigits_of_lt_base hten]
  · rw [Nat.toDigits_of_base_le (by decide) (by omega), Nat.toDigits_of_lt_base (by omega), digit_eq_digitChar (by omega),
      digit_eq_digitChar (by omega)]
    rfl
  · rw [Nat.toDigits_of_base_le (by decide) (by omega), Nat.toDigits_of_base_le (by decide) (by omega),
      Nat.toDigits_of_lt_base (by omega), digit_eq_digitChar (by omega), digit_eq_digitChar (by omega),
      digit_eq_digitChar (by omega), hhundreds]
    rfl

/-- The line of a failure whose reason has one digit (R102 (a)). -/
theorem fatalLine_of_digit (c : Config) {code : Byte} (reason : Char) (hcode : code ≠ codeMismatch)
    (hreason : decimal code = [reason]) (diag : Byte) : fatalLine c code diag =
      ['F', 'A', 'I', 'L', 'E', 'D', ' ', 'T', 'O', ' ', 'R', 'E', 'S', 'E', 'T', ' '] ++
        c.deviceName ++ [':', ' ', reason, '/'] ++ Nat.toDigits 10 diag.toNat := by
  simp [fatalLine, hcode, resetFailureLine, hreason, decimal_eq_toDigits]

/-- The line of code 0x10 (R102 (c)). -/
theorem fatalLine_mismatch (c : Config) (diag : Byte) : fatalLine c 0x10#8 diag =
    c.deviceName ++ [' ', 'I', 'R', 'Q', ' ', 'M', 'I', 'S', 'M', 'A', 'T', 'C', 'H', ':', ' '] ++
      Nat.toDigits 10 c.ports.mixerIrqValue.toNat ++ ['/'] ++ Nat.toDigits 10 diag.toNat := by
  simp [fatalLine, codeMismatch, mismatchLine, decimal_eq_toDigits]

/-- The packed version is major times 16 plus the low nibble of minor, in a byte (R156). -/
theorem packVersion_eq (major minor : Byte) :
    packVersion major minor = BitVec.ofNat 8 (major.toNat * 16 + minor.toNat % 16) := by
  have hlow : (minor &&& 0x0F).toNat = minor.toNat % 16 := by
    rw [BitVec.toNat_and]
    exact Nat.and_two_pow_sub_one_eq_mod minor.toNat 4
  have hor := Nat.two_pow_add_eq_or_of_lt (i := 4) (b := minor.toNat % 16) (by omega) (major.toNat % 16)
  have hshift : (major <<< 4).toNat = 2 ^ 4 * (major.toNat % 16) := by
    rw [BitVec.toNat_shiftLeft, Nat.shiftLeft_eq]
    omega
  apply BitVec.eq_of_toNat_eq
  rw [packVersion, BitVec.toNat_or, hlow, hshift, ← hor, BitVec.toNat_ofNat]
  omega

/-! ## The command as a run -/

theorem runAccesses_goesOn {a : Access} {s t : State} {more : List Access} (h : runAccess a s = (t, some more)) (n : Nat)
    (ops : List Access) : runAccesses (n + 1) (a :: ops) s = runAccesses n (more ++ ops) t := by
  rw [runAccesses_succ, h]

theorem runAccesses_ends {a : Access} {s t : State} (h : runAccess a s = (t, none)) (n : Nat) (ops : List Access) :
    runAccesses (n + 1) (a :: ops) s = (t, []) := by
  rw [runAccesses_succ, h]

/-- `PCM_INIT` under way (R27, R150): `pcm_state`, how many status reads and port accesses it has made, the answers still to
be read, and the port trace of its own. -/
def State.inPcmInit (s : State) (p : PcmState) (polls steps : Nat) (answers : Source Byte) (trace : List PortAccess) :
    State :=
  { s with
    pcmInited := true
    initStep := steps
    pollCnt := polls
    pcmState := p
    portDev := answers
    portTrace := s.portTrace ++ trace }

section InPcmInit

variable (s : State) (p : PcmState) (polls steps : Nat) (answers : Source Byte) (trace : List PortAccess)

theorem runAccess_initWrite (a : PortAddr) (v : Byte) :
    runAccess (.initWrite a v) (s.inPcmInit p polls steps answers trace) =
      (s.inPcmInit p polls (steps + 1) answers (trace ++ [.write a v]), some []) := by
  simp [runAccess, State.inPcmInit, State.initWrite, State.portWrite]

/-! The accesses that read an answer, where the answer is listed. -/

variable {s p polls steps trace} {b : Byte} {bs : List Byte} {d : Nat}

theorem State.inPcmInit_initRead (a : PortAddr) : (s.inPcmInit p polls steps ⟨b :: bs, d⟩ trace).initRead a =
    s.inPcmInit p polls (steps + 1) ⟨bs, d + 1⟩ (trace ++ [.read a b]) := by
  rw [State.initRead_cons rfl]
  simp [State.inPcmInit]

/-- A status byte with bit 7 set ends the polling loop (R153). -/
theorem runAccess_poll_set (h : b.getLsbD 7 = true) : runAccess .poll (s.inPcmInit p polls steps ⟨b :: bs, d⟩ trace) =
    (s.inPcmInit p (polls + 1) (steps + 1) ⟨bs, d + 1⟩ (trace ++ [.read s.cfg.ports.dspRstatus b]), some []) := by
  refine (if_pos h).trans ?_
  rw [State.inPcmInit_initRead]
  rfl

/-- A status byte with bit 7 clear at the bound is a failure (R153). -/
theorem runAccess_poll_bound (h : b.getLsbD 7 = false) (hbound : polls + 1 = s.cfg.resetPollMax) :
    runAccess .poll (s.inPcmInit p polls steps ⟨b :: bs, d⟩ trace) =
      ((s.inPcmInit p (polls + 1) (steps + 1) ⟨bs, d + 1⟩ (trace ++ [.read s.cfg.ports.dspRstatus b])).raiseFatal
        codeDetection b, none) := by
  refine (if_neg (Bool.not_eq_true _ ▸ h)).trans ((if_pos hbound).trans ?_)
  rw [State.inPcmInit_initRead]
  rfl

theorem runAccess_readAck (h : b = s.cfg.dspAck) : runAccess .readAck (s.inPcmInit p polls steps ⟨b :: bs, d⟩ trace) =
    (s.inPcmInit p polls (steps + 1) ⟨bs, d + 1⟩ (trace ++ [.read s.cfg.ports.dspRead b]), some []) :=
  (if_pos h).trans (by rw [State.inPcmInit_initRead]; rfl)

theorem runAccess_readAck_wrong (h : b ≠ s.cfg.dspAck) :
    runAccess .readAck (s.inPcmInit p polls steps ⟨b :: bs, d⟩ trace) =
      ((s.inPcmInit p polls (steps + 1) ⟨bs, d + 1⟩ (trace ++ [.read s.cfg.ports.dspRead b])).raiseFatal codeDetection b,
        none) :=
  (if_neg h).trans (by rw [State.inPcmInit_initRead]; rfl)

theorem runAccess_readMajor : runAccess .readMajor (s.inPcmInit p polls steps ⟨b :: bs, d⟩ trace) =
    (s.inPcmInit p polls (steps + 1) ⟨bs, d + 1⟩ (trace ++ [.read s.cfg.ports.dspRead b]), some [.readMinor b]) := by
  rw [runAccess, State.inPcmInit_initRead]
  rfl

theorem runAccess_readMinor {major : Byte} (h : s.cfg.dspMinMajor.toNat ≤ major.toNat) :
    runAccess (.readMinor major) (s.inPcmInit p polls steps ⟨b :: bs, d⟩ trace) =
      (s.inPcmInit .versionChecked polls (steps + 1) ⟨bs, d + 1⟩ (trace ++ [.read s.cfg.ports.dspRead b]), some []) :=
  (if_neg (Nat.not_lt.mpr h)).trans (by rw [State.inPcmInit_initRead]; rfl)

theorem runAccess_readMinor_low {major : Byte} (h : major.toNat < s.cfg.dspMinMajor.toNat) :
    runAccess (.readMinor major) (s.inPcmInit p polls steps ⟨b :: bs, d⟩ trace) =
      ((s.inPcmInit p polls (steps + 1) ⟨bs, d + 1⟩ (trace ++ [.read s.cfg.ports.dspRead b])).raiseFatal codeVersion
        (packVersion major b), none) :=
  (if_pos h).trans (by rw [State.inPcmInit_initRead]; rfl)

theorem runAccess_readMixer_wrong (h : b ≠ s.cfg.ports.mixerIrqValue) :
    runAccess .readMixer (s.inPcmInit p polls steps ⟨b :: bs, d⟩ trace) =
      ((s.inPcmInit p polls (steps + 1) ⟨bs, d + 1⟩ (trace ++ [.read s.cfg.ports.dspMixerData b])).raiseFatal codeMismatch
        b, none) :=
  (if_neg h).trans (by rw [State.inPcmInit_initRead]; rfl)

end InPcmInit

/-- An admitted `PCM_INIT` that no interrupt cuts leaves what its accesses leave, if they end within `m` of them. -/
theorem exec_pcmInit {s t : State} (ha : s.admits .pcmInit = true) (hw : s.runsWhole = true) (hi : s.pcmInited = false)
    {m : Nat} (hm : m ≤ s.cfg.resetPollMax + 12)
    (hrun : runAccesses m (pcmInitAccesses s.cfg) { s with pcmInited := true, initStep := 0 } = (t, [])) :
    exec .pcmInit s = .next t := by
  obtain ⟨-, hready, -⟩ := (s.admits_iff _).mp ha
  have hlen : 12 ≤ (pcmInitAccesses s.cfg).length := by
    simp only [pcmInitAccesses, handshakeAccesses, configureIrqAccesses, List.length_append, List.length_cons]
    omega
  refine congrArg Host.Outcome.next ((State.command_admits _ ha).trans ((if_neg (by simp [hi])).trans ?_))
  refine State.runCommand_done ?run fun htick => ?rest
  case run =>
    refine runAccesses_done_mono hrun ?_
    rw [State.budget_of_whole _ (by exact hw)]
    dsimp only
    omega
  case rest =>
    have hkeep := runAccesses_keeps (P := fun t => t.hostOps = []) (fun a t h => by simpa [runAccess_frame] using h) m
      (pcmInitAccesses s.cfg) { s with pcmInited := true, initStep := 0 } (State.hostOps_of_cmdReady hready htick)
    rwa [hrun] at hkeep

/-! ## The stages of the command -/

/-- What `PCM_INIT` does after the polling loop. -/
def afterPollAccesses (c : Config) : List Access :=
  .readAck :: dspWrite c c.ports.dspCmdVersion :: .readMajor :: afterVersionAccesses c

/-- What `PCM_INIT` does after the mixer is read back. -/
def afterMixerAccesses (c : Config) : List Access :=
  dmaAccesses c ++ rateAccesses c ++ playAccesses c ++ initVoiceAccesses c ++ preloadAccesses c ++ [.enterState .armed]

theorem afterVersionAccesses_eq (c : Config) : afterVersionAccesses c =
    .initWrite c.ports.dspMixerAddr c.ports.mixerRegIrq :: .initWrite c.ports.dspMixerData c.ports.mixerIrqValue ::
      .initWrite c.ports.dspMixerAddr c.ports.mixerRegIrq :: .readMixer :: afterMixerAccesses c := by
  simp [afterVersionAccesses, configureIrqAccesses, afterMixerAccesses]

section Stages

variable {s : State} {sts : List Byte} (hclear : ∀ b ∈ sts, b.getLsbD 7 = false)
  (hbound : sts.length < s.cfg.resetPollMax)

/-- The port trace once a status byte acknowledged the reset (R152, R153). -/
def acknowledgedTrace (p : PortMap) (sts : List Byte) (st : Byte) : List PortAccess :=
  pulseTrace p sts ++ [.read p.dspRstatus st]

/-- The port trace up to the first version byte (R154, R155). -/
def detectedTrace (c : Config) (sts : List Byte) (st major : Byte) : List PortAccess :=
  acknowledgedTrace c.ports sts st ++ [.read c.ports.dspRead c.dspAck, .write c.ports.dspWrite c.ports.dspCmdVersion,
    .read c.ports.dspRead major]

include hclear hbound

/-- The reset pulse and the status reads with bit 7 clear, below the bound (R152, R153). -/
theorem pcmInit_polls {answers : List Byte} (n : Nat) (hl : s.portDev.listed = sts ++ answers) :
    runAccesses (sts.length + n + 4) (pcmInitAccesses s.cfg) { s with pcmInited := true, initStep := 0 } =
      runAccesses n (.poll :: afterPollAccesses s.cfg)
        (s.inPcmInit .awaitingAck sts.length (sts.length + 2) ⟨answers, s.portDev.drawn + sts.length⟩
          (pulseTrace s.cfg.ports sts)) := by
  have hpulse : runAccesses (sts.length + n + 4) (pcmInitAccesses s.cfg) { s with pcmInited := true, initStep := 0 } =
      runAccesses (sts.length + n) (.poll :: afterPollAccesses s.cfg)
        (s.inPcmInit .awaitingAck 0 2 s.portDev (pulseTrace s.cfg.ports [])) := by
    rw [pcmInitAccesses_eq]
    simp [runAccesses_succ, runAccess, State.initWrite, State.portWrite, State.inPcmInit, pulseTrace, afterPollAccesses]
  rw [hpulse, runAccesses_poll_clear sts answers _ n (s.inPcmInit .awaitingAck 0 2 s.portDev (pulseTrace s.cfg.ports []))
    hclear hl (by simpa [State.inPcmInit] using hbound)]
  simp [State.inPcmInit, pulseTrace, Nat.add_comm]

/-- A status byte with bit 7 set, within the bound (R153). -/
theorem pcmInit_acknowledged {st : Byte} {answers : List Byte} (n : Nat) (hset : st.getLsbD 7 = true)
    (hl : s.portDev.listed = sts ++ st :: answers) :
    runAccesses (sts.length + (n + 1) + 4) (pcmInitAccesses s.cfg) { s with pcmInited := true, initStep := 0 } =
      runAccesses n (afterPollAccesses s.cfg)
        (s.inPcmInit .awaitingAck (sts.length + 1) (sts.length + 3) ⟨answers, s.portDev.drawn + sts.length + 1⟩
          (acknowledgedTrace s.cfg.ports sts st)) := by
  rw [pcmInit_polls hclear hbound (n + 1) hl, runAccesses_goesOn (runAccess_poll_set hset)]
  rfl

/-- The acknowledgement byte, and the first byte of the version query (R154, R155). -/
theorem pcmInit_detected {st major : Byte} {answers : List Byte} (n : Nat) (hset : st.getLsbD 7 = true)
    (hl : s.portDev.listed = sts ++ st :: s.cfg.dspAck :: major :: answers) :
    runAccesses (sts.length + (n + 4) + 4) (pcmInitAccesses s.cfg) { s with pcmInited := true, initStep := 0 } =
      runAccesses n (.readMinor major :: afterVersionAccesses s.cfg)
        (s.inPcmInit .awaitingAck (sts.length + 1) (sts.length + 6) ⟨answers, s.portDev.drawn + sts.length + 3⟩
          (detectedTrace s.cfg sts st major)) := by
  rw [pcmInit_acknowledged hclear hbound (n + 3) hset hl, afterPollAccesses,
    runAccesses_goesOn (runAccess_readAck rfl), List.nil_append, dspWrite, runAccesses_goesOn (runAccess_initWrite ..),
    List.nil_append, runAccesses_goesOn runAccess_readMajor]
  simp [detectedTrace]

/-- A major version high enough, and the writes before the mixer is read back (R155 to R158). -/
theorem pcmInit_configured {st major minor : Byte} {answers : List Byte} (n : Nat) (hset : st.getLsbD 7 = true)
    (hmajor : s.cfg.dspMinMajor.toNat ≤ major.toNat)
    (hl : s.portDev.listed = sts ++ st :: s.cfg.dspAck :: major :: minor :: answers) :
    runAccesses (sts.length + (n + 8) + 4) (pcmInitAccesses s.cfg) { s with pcmInited := true, initStep := 0 } =
      runAccesses n (.readMixer :: afterMixerAccesses s.cfg)
        (s.inPcmInit .versionChecked (sts.length + 1) (sts.length + 10) ⟨answers, s.portDev.drawn + sts.length + 4⟩
          (detectedTrace s.cfg sts st major ++ [.read s.cfg.ports.dspRead minor,
            .write s.cfg.ports.dspMixerAddr s.cfg.ports.mixerRegIrq,
            .write s.cfg.ports.dspMixerData s.cfg.ports.mixerIrqValue,
            .write s.cfg.ports.dspMixerAddr s.cfg.ports.mixerRegIrq])) := by
  rw [pcmInit_detected hclear hbound (n + 4) hset hl, runAccesses_goesOn (runAccess_readMinor hmajor),
    afterVersionAccesses_eq, List.nil_append, runAccesses_goesOn (runAccess_initWrite ..), List.nil_append,
    runAccesses_goesOn (runAccess_initWrite ..), List.nil_append, runAccesses_goesOn (runAccess_initWrite ..)]
  simp

end Stages

/-! ## The failures -/

/-- Settles O26: the pulse, the status reads below the bound, and the one at it. -/
theorem pcmInitTimesOut : Obligations.PcmInitTimesOut := by
  intro s sts rest last ha hw hi hb hm hl
  obtain ⟨hclear, hlast⟩ := List.forall_mem_append.mp hb
  refine exec_pcmInit (m := sts.length + 1 + 4) ha hw hi (by omega) ?_
  rw [pcmInit_polls hclear (by omega) 1 (by simpa using hl),
    runAccesses_ends (runAccess_poll_bound (hlast last (by simp)) hm)]
  have hline := fatalLine_of_digit (code := 0x01#8) s.cfg '1' (by decide) rfl
  simp [State.inPcmInit, State.raiseFatal, hline, codeDetection, pulseTrace]

/-- Settles O27: the handshake up to the acknowledgement byte, which is wrong. -/
theorem pcmInitWrongAcknowledge : Obligations.PcmInitWrongAcknowledge := by
  intro s sts rest st ack ha hw hi hclear hset hbound hack hl
  refine exec_pcmInit (m := sts.length + 2 + 4) ha hw hi (by omega) ?_
  rw [pcmInit_acknowledged hclear hbound 1 hset (by simpa using hl), afterPollAccesses,
    runAccesses_ends (runAccess_readAck_wrong hack)]
  have hline := fatalLine_of_digit (code := 0x01#8) s.cfg '1' (by decide) rfl
  simp [State.inPcmInit, State.raiseFatal, hline, codeDetection, acknowledgedTrace]

/-- Settles O28: the handshake up to the second version byte, with the first too low. -/
theorem pcmInitVersionTooLow : Obligations.PcmInitVersionTooLow := by
  intro s sts rest st major minor ha hw hi hclear hset hbound hmajor hl packed
  refine exec_pcmInit (m := sts.length + 5 + 4) ha hw hi (by omega) ?_
  rw [pcmInit_detected hclear hbound 1 hset (by simpa using hl), runAccesses_ends (runAccess_readMinor_low hmajor)]
  have hline := fatalLine_of_digit (code := 0x03#8) s.cfg '3' (by decide) rfl
  simp [State.inPcmInit, State.raiseFatal, hline, codeVersion, packVersion_eq, detectedTrace, acknowledgedTrace, packed]

/-- Settles O29: the handshake and the mixer's configuration, whose value reads back different. -/
theorem pcmInitMixerMismatch : Obligations.PcmInitMixerMismatch := by
  intro s sts rest st major minor r ha hw hi hclear hset hbound hmajor hr hl
  refine exec_pcmInit (m := sts.length + 9 + 4) ha hw hi (by omega) ?_
  rw [pcmInit_configured hclear hbound 1 hset hmajor (by simpa using hl), runAccesses_ends (runAccess_readMixer_wrong hr)]
  simp [State.inPcmInit, State.raiseFatal, fatalLine_mismatch, codeMismatch, detectedTrace, acknowledgedTrace, mixerTrace]

end Sys2Proof.Machine
end

section
/-!
The system timer (40_timer.md): the divisor that comes closest to a target rate and the rate reported for it (R121, R122), the
timer interrupt (R124, R125), and why it commutes with the fill engine (R241).
-/

namespace Sys2Proof.Machine

/-! ## The divisor -/

/-- The distance of the rate of divisor `d` from the target `t`, for the base clock `num / den` (R121). -/
def rateError (num den t d : Nat) : ℚ := |(num : ℚ) / den / d - t|

/-- `d` is at least as good a divisor as `e`: its error is no larger, and where they are equal it is no larger itself (R121). -/
def AsGoodDivisor (num den t d e : Nat) : Prop :=
  rateError num den t d ≤ rateError num den t e ∧ (rateError num den t d = rateError num den t e → d ≤ e)

theorem AsGoodDivisor.of_lt {num den t d e : Nat} (h : rateError num den t d < rateError num den t e) :
    AsGoodDivisor num den t d e :=
  ⟨h.le, fun heq => absurd heq h.ne⟩

theorem rate_antitone (num den : Nat) {d e : Nat} (hd : 1 ≤ d) (hde : d ≤ e) :
    (num : ℚ) / den / e ≤ (num : ℚ) / den / d :=
  div_le_div_of_nonneg_left (by positivity) (by exact_mod_cast hd) (by exact_mod_cast hde)

theorem rate_strictAnti {num den d e : Nat} (hnum : 1 ≤ num) (hden : 1 ≤ den) (hd : 1 ≤ d) (hde : d < e) :
    (num : ℚ) / den / e < (num : ℚ) / den / d :=
  div_lt_div_of_pos_left (by positivity) (by exact_mod_cast hd) (by exact_mod_cast hde)

/-- The rates not below the target are those of the divisors up to `floor(BASE_CLOCK / T)`. -/
theorem le_rate_iff {num den t d : Nat} (hden : 1 ≤ den) (ht : 1 ≤ t) (hd : 1 ≤ d) :
    (t : ℚ) ≤ (num : ℚ) / den / d ↔ d ≤ num / (den * t) := by
  rw [div_div, le_div_iff₀ (by positivity), Nat.le_div_iff_mul_le (by positivity), show d * (den * t) = t * (den * d) by ring]
  exact_mod_cast Iff.rfl

section RateError

variable {num den t : Nat} (hden : 1 ≤ den) (ht : 1 ≤ t)

include hden ht

theorem rateError_of_le {d : Nat} (hd : 1 ≤ d) (hq : d ≤ num / (den * t)) :
    rateError num den t d = (num : ℚ) / den / d - t :=
  abs_of_nonneg (sub_nonneg.mpr ((le_rate_iff hden ht hd).mpr hq))

theorem rateError_of_lt {d : Nat} (hq : num / (den * t) < d) : rateError num den t d = t - (num : ℚ) / den / d := by
  have hlt : (num : ℚ) / den / d < t := not_le.mp fun h => hq.not_ge ((le_rate_iff hden ht (Nat.one_le_of_lt hq)).mp h)
  rw [rateError, abs_of_neg (sub_neg.mpr hlt), neg_sub]

/-- Up to the quotient the error falls with the divisor, so the largest divisor is the best. -/
theorem asGoodDivisor_of_le_quotient (hnum : 1 ≤ num) {d e : Nat} (he : 1 ≤ e) (hed : e ≤ d)
    (hq : d ≤ num / (den * t)) : AsGoodDivisor num den t d e := by
  rcases hed.eq_or_lt with rfl | hlt
  · exact ⟨le_rfl, fun _ => le_rfl⟩
  · refine .of_lt ?_
    rw [rateError_of_le hden ht (by omega) hq, rateError_of_le hden ht he (by omega)]
    exact sub_lt_sub_right (rate_strictAnti hnum hden he hlt) _

/-- Past the quotient the error grows with the divisor, so the smallest divisor is the best. -/
theorem asGoodDivisor_of_quotient_lt {d e : Nat} (hq : num / (den * t) < d) (hde : d ≤ e) :
    AsGoodDivisor num den t d e := by
  refine ⟨?_, fun _ => hde⟩
  rw [rateError_of_lt hden ht hq, rateError_of_lt hden ht (hq.trans_le hde)]
  exact sub_le_sub_left (rate_antitone num den (Nat.one_le_of_lt hq) hde) _

/-- The comparison that decides between the quotient and its successor, on whole numbers. -/
theorem rateError_quotient_le_succ_iff {q : Nat} (hq : num / (den * t) = q) (hpos : 1 ≤ q) :
    rateError num den t q ≤ rateError num den t (q + 1) ↔ num * (2 * q + 1) ≤ 2 * t * den * q * (q + 1) := by
  have hsum : (num : ℚ) / den / q + num / den / (q + 1 : Nat) = num * (2 * q + 1) / (den * q * (q + 1)) := by
    push_cast
    field_simp
    ring
  rw [rateError_of_le hden ht hpos hq.ge, rateError_of_lt hden ht (by omega), sub_le_iff_le_add, sub_add_eq_add_sub,
    le_sub_iff_add_le, hsum, div_le_iff₀ (by positivity),
    show ((t : ℚ) + t) * (den * q * (q + 1)) = 2 * t * den * q * (q + 1) by ring]
  exact_mod_cast Iff.rfl

end RateError

/-- The divisor fits the timer's range, in which 65536 stands for 0 (R121). -/
theorem bestDivisor_range (num den t : Nat) : 1 ≤ bestDivisor num den t ∧ bestDivisor num den t ≤ 65536 := by
  unfold bestDivisor
  generalize num / (den * t) = q
  dsimp only
  split_ifs <;> omega

/-- The divisor is as good as every divisor up to the quotient, and as every one past it. -/
theorem bestDivisor_asGood {num den t e : Nat} (hnum : 1 ≤ num) (hden : 1 ≤ den) (ht : 1 ≤ t) (he : 1 ≤ e)
    (hmax : e ≤ 65536) : AsGoodDivisor num den t (bestDivisor num den t) e := by
  have below : ∀ {d}, e ≤ d → d ≤ num / (den * t) → AsGoodDivisor num den t d e :=
    asGoodDivisor_of_le_quotient hden ht hnum he
  have above : ∀ {d}, num / (den * t) < d → d ≤ e → AsGoodDivisor num den t d e :=
    asGoodDivisor_of_quotient_lt hden ht
  unfold bestDivisor
  dsimp only
  generalize hq : num / (den * t) = q at *
  split_ifs with hbig hzero hnear
  · exact below hmax hbig
  · exact above (by omega) he
  · have hle := (rateError_quotient_le_succ_iff hden ht hq (by omega)).mpr hnear
    rcases Nat.lt_or_ge q e with hlt | hge
    · exact ⟨hle.trans (asGoodDivisor_of_quotient_lt hden ht (by omega) hlt).1, fun _ => hlt.le⟩
    · exact below hge le_rfl
  · have hlt := not_le.mp (mt (rateError_quotient_le_succ_iff hden ht hq (by omega)).mp hnear)
    rcases Nat.lt_or_ge q e with hgt | hge
    · exact above (Nat.lt_succ_self q) hgt
    · exact .of_lt (hlt.trans_le (asGoodDivisor_of_le_quotient hden ht hnum he hge hq.ge).1)

/-- Settles O10: the error falls up to the quotient and grows past it, so one of its two neighbours is the best, and the model's
comparison says which. -/
theorem bestDivisorIsClosest : Obligations.BestDivisorIsClosest := by
  intro num den t hnum hden ht d
  obtain ⟨hlow, hhigh⟩ := bestDivisor_range num den t
  exact ⟨hlow, hhigh, fun e he hmax => bestDivisor_asGood hnum hden ht he hmax⟩

/-! ## The achieved rate -/

/-- Rounding to the nearest integer, a half up: the integer is above the rate less a half, and at most the rate and a half. -/
theorem roundedRate_spec (num : Nat) {den d : Nat} (hden : 1 ≤ den) (hd : 1 ≤ d) :
    (roundedRate num den d : ℚ) - 1 / 2 ≤ (num : ℚ) / den / d ∧ (num : ℚ) / den / d < roundedRate num den d + 1 / 2 := by
  have hpos : 0 < den * d := Nat.mul_pos hden hd
  have hposQ : (0 : ℚ) < den * d := by exact_mod_cast hpos
  have hle : roundedRate num den d * (2 * (den * d)) ≤ 2 * num + den * d := Nat.div_mul_le_self _ _
  have hlt : 2 * num + den * d < (roundedRate num den d + 1) * (2 * (den * d)) :=
    (Nat.div_lt_iff_lt_mul (by omega)).mp (Nat.lt_succ_self _)
  have hleQ : (roundedRate num den d : ℚ) * (2 * (den * d)) ≤ 2 * num + den * d := by exact_mod_cast hle
  have hltQ : (2 * num + den * d : ℚ) < (roundedRate num den d + 1) * (2 * (den * d)) := by exact_mod_cast hlt
  rw [div_div, le_div_iff₀ hposQ, div_lt_iff₀ hposQ]
  constructor <;> linarith

theorem timerRate_toNat {c : Config} (h : roundedRate c.clockNum c.clockDen (timerDivisor c) < 2 ^ 32) :
    (timerRate c).toNat = roundedRate c.clockNum c.clockDen (timerDivisor c) := by
  simp only [timerRate, if_pos h, BitVec.toNat_ofNat, Nat.mod_eq_of_lt h]

theorem wf_clockDen {c : Config} (h : c.wf = true) : 1 ≤ c.clockDen := by
  obtain ⟨⟨⟨⟨-, hrates⟩, -⟩, -⟩, -⟩ := by simpa only [Config.wf, Bool.and_eq_true] using h
  obtain ⟨-, -, -, -, -, hden, -⟩ := (Config.wfRates_iff c).mp hrates
  exact hden

/-- Settles O11: the register holds the rounded rate, and the denominators of the rate are positive. -/
theorem timerFreqIsNearestHertz : Obligations.TimerFreqIsNearestHertz := by
  intro c hwf hfits
  rw [timerRate_toNat hfits]
  exact roundedRate_spec _ (wf_clockDen hwf) (bestDivisor_range _ _ _).1

/-! ## The timer interrupt -/

/-- The state with the two registers of the timer interrupt (R124) at the given values. -/
def State.withTimer (s : State) (pend : Bool) (count : BitVec 32) : State :=
  { s with pendTimer := pend, tickCount := count }

theorem State.acceptsTimer_iff (s : State) : s.acceptsTimer = true ↔ s.pendTimer = true ∧ s.halted = false := by
  simp [State.acceptsTimer]

/-- An accepted timer interrupt clears its latch and counts (R124). -/
theorem exec_evTimerIrq_accepted {s : State} (h : s.acceptsTimer = true) :
    exec .evTimerIrq s = .next (s.withTimer false (s.tickCount + 1)) :=
  congrArg Host.Outcome.next (if_pos h)

/-- A timer interrupt that is not accepted changes nothing (R240). -/
theorem exec_evTimerIrq_ignored {s : State} (h : s.acceptsTimer = false) : exec .evTimerIrq s = .next s :=
  congrArg Host.Outcome.next (if_neg (by simp [h]))

/-- Counting on in whole numbers is counting on modulo 2^32. -/
theorem ofNat_toNat_add (x : BitVec 32) (n : Nat) : BitVec.ofNat 32 (x.toNat + n) = x + BitVec.ofNat 32 n := by
  simp [BitVec.ofNat_add]

/-- Settles O13: the two arms of the handler. -/
theorem timerIrqEffect : Obligations.TimerIrqEffect := by
  refine fun s => ⟨fun hpend hhalt => ?accepted, fun h => ?ignored⟩
  case accepted =>
    rw [exec_evTimerIrq_accepted (s.acceptsTimer_iff.mpr ⟨hpend, hhalt⟩), ofNat_toNat_add]
    rfl
  case ignored =>
    refine exec_evTimerIrq_ignored (Bool.eq_false_of_not_eq_true fun ha => ?_)
    obtain ⟨hpend, hhalt⟩ := s.acceptsTimer_iff.mp ha
    simp [hpend, hhalt] at h

/-! ## Periods of the timer -/

/-- The next turn and the schedule after it, where a turn is listed. -/
theorem State.takeTurn_cons {s : State} {turn : Turn} {rest : List Turn} (h : s.turns.listed = turn :: rest) :
    s.nextTurn = turn ∧ s.tookTurn = { s with turns := ⟨rest, s.turns.drawn + 1⟩ } := by
  simp [State.nextTurn, State.tookTurn, Source.next, h]

/-- A step of a running configuration with a listed turn. -/
theorem step_of_listed {s : State} {turn : Turn} {rest : List Turn} (hwf : s.cfg.wf = true)
    (h : s.turns.listed = turn :: rest) : step s = runTurn turn { s with turns := ⟨rest, s.turns.drawn + 1⟩ } := by
  obtain ⟨hnext, htook⟩ := State.takeTurn_cons h
  rw [step_of_nextTurn hwf hnext, htook]

/-- A run goes on from the state after its first step. -/
theorem run_succ_of_step {M : Host.Core} {s t : M.State} (h : M.step s = .next t) (k : Nat) :
    M.run (k + 1) s = M.run k t := by
  rw [Host.Core.run, h]

/-- A turn of the running timer device makes its request (R126). -/
theorem step_timerDev_listed {s : State} {rest : List Turn} (hwf : s.cfg.wf = true) (hrun : s.timerRun = true)
    (h : s.turns.listed = .timerDev :: rest) :
    step s = .next { s with turns := ⟨rest, s.turns.drawn + 1⟩, pendTimer := true } :=
  (step_of_listed hwf h).trans (congrArg Host.Outcome.next (State.timerDevStep_running hrun))

/-- A turn of the timer interrupt that is accepted counts (R124). -/
theorem step_timerIrq_listed {s : State} {rest : List Turn} (hwf : s.cfg.wf = true) (ha : s.acceptsTimer = true)
    (h : s.turns.listed = .timerIrq :: rest) :
    step s = .next { s.withTimer false (s.tickCount + 1) with turns := ⟨rest, s.turns.drawn + 1⟩ } :=
  (step_of_listed hwf h).trans (exec_evTimerIrq_accepted ha)

/-- One period: the device requests, and the interrupt is accepted. -/
theorem core_run_timerPeriod {s : State} {rest : List Turn} (hwf : s.cfg.wf = true) (hhalt : s.halted = false)
    (hrun : s.timerRun = true) (hturns : s.turns.listed = .timerDev :: .timerIrq :: rest) (k : Nat) :
    Sys2Proof.core.run (k + 2) s = Sys2Proof.core.run k
      { s.withTimer false (s.tickCount + 1) with turns := ⟨rest, s.turns.drawn + 1 + 1⟩ } := by
  have hrequest := step_timerDev_listed hwf hrun hturns
  have haccept := step_timerIrq_listed (s := { s with turns := ⟨.timerIrq :: rest, s.turns.drawn + 1⟩, pendTimer := true })
    hwf ((State.acceptsTimer_iff _).mpr ⟨rfl, hhalt⟩) rfl
  exact (run_succ_of_step hrequest (k + 1)).trans (run_succ_of_step haccept k)

/-- Settles O14: by induction on the periods, each of which counts one. -/
theorem tickCountCountsInterrupts : Obligations.TickCountCountsInterrupts := by
  intro n
  induction n with
  | zero => exact fun s rest _ _ _ hturns => ⟨s, rfl, by simp, by simpa using hturns⟩
  | succ n ih =>
    intro s rest hwf hhalt hrun hturns
    rw [List.replicate_succ, List.flatten_cons, List.append_assoc] at hturns
    obtain ⟨t, ht, hcount, hrest⟩ := ih
      { s.withTimer false (s.tickCount + 1) with turns := ⟨_, s.turns.drawn + 1 + 1⟩ } rest hwf hhalt hrun rfl
    refine ⟨t, (core_run_timerPeriod hwf hhalt hrun hturns (2 * n)).trans ht, hcount.trans ?_, hrest⟩
    calc BitVec.ofNat 32 ((s.tickCount + 1).toNat + n)
      _ = s.tickCount + 1 + BitVec.ofNat 32 n := ofNat_toNat_add _ _
      _ = s.tickCount + BitVec.ofNat 32 (n + 1) := by rw [BitVec.ofNat_add, BitVec.add_assoc, BitVec.add_comm 1]; rfl
      _ = BitVec.ofNat 32 (s.tickCount.toNat + (n + 1)) := (ofNat_toNat_add _ _).symm

/-! ## The timer and the fill engine

The registers of the timer interrupt are neither read nor written by the fill engine, nor by the acceptance of its interrupt. -/

section WithTimer

variable (s : State) (pend : Bool) (count : BitVec 32)

@[simp] theorem State.withTimer_pendTimer : (s.withTimer pend count).pendTimer = pend := rfl
@[simp] theorem State.withTimer_tickCount : (s.withTimer pend count).tickCount = count := rfl
@[simp] theorem State.withTimer_cfg : (s.withTimer pend count).cfg = s.cfg := rfl
@[simp] theorem State.withTimer_halted : (s.withTimer pend count).halted = s.halted := rfl
@[simp] theorem State.withTimer_fillState : (s.withTimer pend count).fillState = s.fillState := rfl
@[simp] theorem State.withTimer_tickCnt : (s.withTimer pend count).tickCnt = s.tickCnt := rfl

theorem State.portRead_withTimer (a : PortAddr) :
    (s.withTimer pend count).portRead a = (s.portRead a).withTimer pend count := rfl

theorem State.portWrite_withTimer (a : PortAddr) (v : Byte) :
    (s.withTimer pend count).portWrite a v = (s.portWrite a v).withTimer pend count := rfl

theorem State.countDown_withTimer : (s.withTimer pend count).countDown = s.countDown.withTimer pend count := by
  unfold State.countDown
  dsimp only [State.withTimer_tickCnt]
  split_ifs <;> rfl

theorem State.acknowledge_withTimer : (s.withTimer pend count).acknowledge = s.acknowledge.withTimer pend count := by
  by_cases hline : 8 ≤ s.cfg.pcmIrqLine.toNat <;>
    simp [State.acknowledge, State.portRead_withTimer, State.portWrite_withTimer, hline]

variable {s} {t : State}

theorem mixVoices_withTimer {js : List (Fin 8)} {acc acc' : Int} (h : mixVoices js s acc = .ok (t, acc')) :
    mixVoices js (s.withTimer pend count) acc = .ok (t.withTimer pend count, acc') := by
  induction js generalizing s acc with
  | nil => cases h; rfl
  | cons j js ih =>
    rw [mixVoices] at h
    split at h
    · cases h
    · next v x src hv =>
      have hv' : mixVoice (s.withTimer pend count).cfg (s.withTimer pend count).voices[j] (s.withTimer pend count).noise =
          .ok (v, x, src) := hv
      rw [mixVoices, hv']
      exact ih h

theorem mixStep_withTimer (h : mixStep s = .next t) :
    mixStep (s.withTimer pend count) = .next (t.withTimer pend count) := by
  unfold mixStep at h ⊢
  split at h
  · cases h
  · next u acc hu =>
    rw [mixVoices_withTimer pend count hu]
    split at h
    · next hindex => cases h; exact if_pos hindex
    · cases h

theorem countStep_withTimer (h : countStep s = .next t) :
    countStep (s.withTimer pend count) = .next (t.withTimer pend count) := by
  unfold countStep at h
  split_ifs at h with hinside hend
  · cases h
    exact (if_pos hinside).trans (congrArg _ (s.countDown_withTimer pend count))
  · cases h
    exact (if_neg hinside).trans (if_pos hend)

theorem engineStep_withTimer (h : engineStep s = .next t) :
    engineStep (s.withTimer pend count) = .next (t.withTimer pend count) := by
  unfold engineStep at h ⊢
  rw [State.withTimer_halted, State.withTimer_fillState]
  split at h
  · next hhalt => cases h; exact if_pos hhalt
  · next hhalt =>
    rw [if_neg hhalt]
    cases hs : s.fillState <;> rw [hs] at h
    case count => exact countStep_withTimer pend count h
    case mix => exact mixStep_withTimer pend count h
    case exit => cases h; exact congrArg (Host.Outcome.next ∘ State.leaveFill) (s.acknowledge_withTimer pend count)
    all_goals cases h; rfl

theorem exec_evFillIrq_withTimer (h : exec .evFillIrq s = .next t) :
    exec .evFillIrq (s.withTimer pend count) = .next (t.withTimer pend count) := by
  cases h
  exact congrArg Host.Outcome.next (apply_ite (State.withTimer · pend count) (s.acceptsFill = true) s.enterFill s).symm

end WithTimer

/-! Nor does either halt the block, on which acceptance of the timer interrupt depends (R240). -/

@[simp] theorem State.countDown_halted (s : State) : s.countDown.halted = s.halted := by
  unfold State.countDown
  dsimp only
  split <;> rfl

@[simp] theorem State.acknowledge_halted (s : State) : s.acknowledge.halted = s.halted := by
  unfold State.acknowledge
  dsimp only
  split <;> rfl

theorem mixStep_halted {s t : State} (h : mixStep s = .next t) : t.halted = s.halted := by
  unfold mixStep at h
  split at h
  · cases h
  · next u acc hu =>
    obtain ⟨hframe, -⟩ := mixVoices_frame hu
    split at h
    · cases h
      rw [hframe]
      rfl
    · cases h

theorem countStep_halted {s t : State} (h : countStep s = .next t) : t.halted = s.halted := by
  unfold countStep at h
  split_ifs at h
  · cases h; exact s.countDown_halted
  · cases h; rfl

theorem engineStep_keeps_halted {s t : State} (h : engineStep s = .next t) : t.halted = s.halted := by
  unfold engineStep at h
  split at h
  · cases h; rfl
  · cases hs : s.fillState <;> rw [hs] at h
    case count => exact countStep_halted h
    case mix => exact mixStep_halted h
    case exit => cases h; exact s.acknowledge_halted
    all_goals cases h; rfl

theorem exec_evFillIrq_halted {s t : State} (h : exec .evFillIrq s = .next t) : t.halted = s.halted := by
  cases h
  split <;> rfl

/-- What takes `s` to `t` at any values of the timer's registers, and does not halt, commutes with the timer interrupt. -/
theorem evTimerIrq_comm {f : State → Host.Outcome State Fault Refusal} {s t : State}
    (hf : ∀ pend count, f (s.withTimer pend count) = .next (t.withTimer pend count)) (hst : f s = .next t)
    (hhalt : t.halted = s.halted) :
    ∃ a u, exec .evTimerIrq s = .next a ∧ f a = .next u ∧ exec .evTimerIrq t = .next u := by
  have hframe : t = t.withTimer s.pendTimer s.tickCount :=
    Host.Outcome.next.inj (hst.symm.trans (hf s.pendTimer s.tickCount))
  have hpend : t.pendTimer = s.pendTimer := by rw [hframe, State.withTimer_pendTimer]
  have hcount : t.tickCount = s.tickCount := by rw [hframe, State.withTimer_tickCount]
  have haccepts : t.acceptsTimer = s.acceptsTimer := by simp only [State.acceptsTimer, hpend, hhalt]
  cases ha : s.acceptsTimer with
  | true =>
    refine ⟨_, _, exec_evTimerIrq_accepted ha, hf false (s.tickCount + 1), ?_⟩
    rw [exec_evTimerIrq_accepted (haccepts.trans ha), hcount]
  | false => exact ⟨s, t, exec_evTimerIrq_ignored ha, hst, exec_evTimerIrq_ignored (haccepts.trans ha)⟩

/-- Settles O15: the engine's steps and the acceptance of the playback interrupt neither read nor write the registers of the
timer interrupt, and neither halts the block. -/
theorem timerCommutesWithFill : Obligations.TimerCommutesWithFill := by
  refine ⟨fun s t h => ?engine, fun s => ?acceptance⟩
  case engine => exact evTimerIrq_comm (fun pend count => engineStep_withTimer pend count h) h (engineStep_keeps_halted h)
  case acceptance =>
    obtain ⟨b, hb⟩ := exec_next .evFillIrq s
    obtain ⟨a, u, ha, hau, hbu⟩ :=
      evTimerIrq_comm (fun pend count => exec_evFillIrq_withTimer pend count hb) hb (exec_evFillIrq_halted hb)
    exact ⟨a, b, u, ha, hau, hb, hbu⟩

end Sys2Proof.Machine
end

section
/-!
The FM encoder (41_fm_encoder.md): what its commands do and refuse, which registers belong to a voice, and what the register
image holds after a list of register writes.
-/

namespace Sys2Proof.Machine

open Sys2Proof.Claims

/-! ## Commands without a voice -/

/-- Settles O16: the flag is set, then the writes of the sequence are made, which leave the flag alone. -/
theorem fmInitEffect : Obligations.FmInitEffect := by
  intro s ha hw hi
  refine congrArg Host.Outcome.next ((State.command_admits _ ha).trans ((if_neg (by simp [hi])).trans ?_))
  exact State.runCommand_fmWrites (s := { s with fmInited := true }) ha hw (fmInitWrites s.cfg)

/-- Settles O21: the act of the admitted command is to do nothing. -/
theorem fmSetMasterDoesNothing : Obligations.FmSetMasterDoesNothing :=
  fun _ _ ha => congrArg Host.Outcome.next (State.command_admits _ ha)

/-! ## Range checks -/

theorem wf_fm {c : Config} (h : c.wf = true) : c.wfFm = true := by
  obtain ⟨-, hfm⟩ := by simpa only [Config.wf, Bool.and_eq_true] using h
  exact hfm

theorem wf_fmVoices {c : Config} (h : c.wf = true) : c.fmVoices ≤ 6 := by
  obtain ⟨-, hvoices, -⟩ := (Config.wfFm_iff c).mp (wf_fm h)
  exact hvoices

theorem fmVoiceFault_none_iff (c : Config) (voice : Byte) :
    fmVoiceFault c voice = none ↔ voice.toNat < c.fmVoices ∧ voice.toNat < 6 := by
  simp [fmVoiceFault]

theorem fmVoiceFault_of_outOfRange {c : Config} {voice : Byte} (h : c.fmVoices ≤ voice.toNat) :
    fmVoiceFault c voice = some cmdVoiceRange :=
  if_pos (.inl h)

/-- Past the check of its voice, an assignment checks its patch. -/
theorem fmAssignFault_of_voice {c : Config} {voice : Byte} (h : fmVoiceFault c voice = none) (patch : Byte) :
    fmAssignFault c voice patch = if c.patches.length ≤ patch.toNat then some cmdPatchRange else none := by
  simp only [fmAssignFault, h]
  rfl

/-- Past the check of its voice, a note checks nothing else if it is the sentinel. -/
theorem fmNoteFault_of_voice {c : Config} {voice : Byte} (h : fmVoiceFault c voice = none) (octave note : Byte) :
    fmNoteFault c voice octave note =
      if note = c.fmNoteNone then none
      else if note.toNat < 1 ∨ 12 < note.toNat then some cmdNoteRange
      else if 7 < octave.toNat then some cmdOctaveRange
      else none := by
  simp only [fmNoteFault, h]

theorem fmAssignFault_none {c : Config} {voice patch : Byte} (h : fmAssignFault c voice patch = none) :
    fmVoiceFault c voice = none ∧ patch.toNat < c.patches.length := by
  cases hv : fmVoiceFault c voice with
  | some code => simp [fmAssignFault, hv] at h
  | none => simpa [fmAssignFault_of_voice hv] using h

theorem fmNoteFault_none {c : Config} {voice octave note : Byte} (h : fmNoteFault c voice octave note = none) :
    fmVoiceFault c voice = none ∧
      (note ≠ c.fmNoteNone → (1 ≤ note.toNat ∧ note.toNat ≤ 12) ∧ octave.toNat ≤ 7) := by
  cases hv : fmVoiceFault c voice with
  | some code => simp [fmNoteFault, hv] at h
  | none =>
    refine ⟨rfl, fun hne => ?_⟩
    rw [fmNoteFault_of_voice hv, if_neg hne] at h
    split_ifs at h
    omega

theorem execFmAssignInstrument_fault {s : State} {voice patch code : Byte} (ha : s.admits .fmAssignInstrument = true)
    (h : fmAssignFault s.cfg voice patch = some code) :
    exec (.fmAssignInstrument voice patch) s = .next (faulted s code 0x11) := by
  refine congrArg Host.Outcome.next ((State.command_admits _ ha).trans ?_)
  rw [h]
  rfl

theorem execFmSetNote_fault {s : State} {voice octave note code : Byte} (ha : s.admits .fmSetNote = true)
    (h : fmNoteFault s.cfg voice octave note = some code) :
    exec (.fmSetNote voice octave note) s = .next (faulted s code 0x12) := by
  refine congrArg Host.Outcome.next ((State.command_admits _ ha).trans ?_)
  rw [h]
  rfl

/-- Settles O35: the voice is checked first; in a configuration the model runs, a voice below `FM_VOICES` has its slots. -/
theorem fmRangeFaultsInOrder : Obligations.FmRangeFaultsInOrder := by
  refine ⟨fun s voice patch hwf ha => ?assign, fun s voice octave note hwf ha => ?note⟩
  all_goals
    have hvoice : voice.toNat < s.cfg.fmVoices → fmVoiceFault s.cfg voice = none := fun hv =>
      (fmVoiceFault_none_iff _ _).mpr ⟨hv, hv.trans_le (wf_fmVoices hwf)⟩
  case assign =>
    refine ⟨fun hv => execFmAssignInstrument_fault ha ?_, fun hv hp => execFmAssignInstrument_fault ha ?_⟩
    · simp only [fmAssignFault, fmVoiceFault_of_outOfRange hv]
      rfl
    · exact (fmAssignFault_of_voice (hvoice hv) patch).trans (if_pos hp)
  case note =>
    refine ⟨fun hv => execFmSetNote_fault ha ?_, fun hv hne hn => execFmSetNote_fault ha ?_,
      fun hv hne hlow hhigh ho => execFmSetNote_fault ha ?_⟩
    · simp only [fmNoteFault, fmVoiceFault_of_outOfRange hv]
      rfl
    · rw [fmNoteFault_of_voice (hvoice hv), if_neg hne, if_pos hn]
      rfl
    · rw [fmNoteFault_of_voice (hvoice hv), if_neg hne, if_neg (by omega), if_pos ho]
      rfl

/-! ## Commands that run -/

/-- Settles O18: the key-off arm passes the check of its voice, and its accesses are one register write. -/
theorem fmKeyOffEffect : Obligations.FmKeyOffEffect := by
  intro s voice octave ha hw hv h6
  have hfault : fmNoteFault s.cfg voice octave s.cfg.fmNoteNone = none :=
    (fmNoteFault_of_voice (fmVoiceFault_of_inRange hv h6) _ _).trans (if_pos rfl)
  have hops : keyOffAccesses s voice =
      fmWrites [⟨.primary, s.cfg.fmMap.key + voice, s.keycache[fmVoice voice] &&& 0xDF⟩] := rfl
  refine congrArg Host.Outcome.next ((State.command_admits _ ha).trans ?_)
  rw [hfault, State.checked_none, if_pos rfl, hops, State.runCommand_fmWrites ha hw]

/-- An assignment that runs makes the writes of its patch (R132). -/
theorem execFmAssignInstrument_writes {s : State} {voice patch s1 s2 : Byte} {p : Patch}
    (ha : s.admits .fmAssignInstrument = true) (hw : s.runsWhole = true) (hv : voice.toNat < s.cfg.fmVoices)
    (h6 : voice.toNat < 6) (hp : s.cfg.patches[patch.toNat]? = some p) (h1 : s.cfg.op1Slot[voice.toNat]? = some s1)
    (h2 : s.cfg.op2Slot[voice.toNat]? = some s2) :
    exec (.fmAssignInstrument voice patch) s = .next (wrote s (assignWrites s.cfg voice p)) :=
  (fmAssignEffect s voice patch p s1 s2 ha hw hv h6 hp h1 h2).trans
    (by simp [assignWrites, operatorWrites, op1SlotOf, op2SlotOf, h1, h2])

/-! ## The registers of a voice -/

/-- The five registers of an operator, in the order of R132. -/
def operatorRegs (m : FmMap) (slot : Byte) : List Byte :=
  [m.tvsm + slot, m.kslTl + slot, m.ad + slot, m.sr + slot, m.wave + slot]

/-- The 13 registers of a voice: those its assignment writes, in that order (R132, R133). -/
def fmVoiceRegs (c : Config) (voice : Byte) : List Byte :=
  operatorRegs c.fmMap (op1SlotOf c voice) ++ operatorRegs c.fmMap (op2SlotOf c voice) ++
    [c.fmMap.fbSyn + voice, c.fmMap.freq + voice, c.fmMap.key + voice]

theorem assignWrites_regs (c : Config) (voice : Byte) (p : Patch) :
    (assignWrites c voice p).map FmRecord.reg = fmVoiceRegs c voice := rfl

/-- Every write of the list is to one of the registers given, in the primary bank. -/
def WritesOnly (regs : List Byte) (ws : List FmRecord) : Prop := ∀ w ∈ ws, w.bank = .primary ∧ w.reg ∈ regs

theorem assignWrites_writesOnly (c : Config) (voice : Byte) (p : Patch) :
    WritesOnly (fmVoiceRegs c voice) (assignWrites c voice p) := by
  have hbank : ∀ w ∈ assignWrites c voice p, w.bank = .primary := by simp [assignWrites, operatorWrites]
  exact fun w hw => ⟨hbank w hw, List.mem_map_of_mem (f := FmRecord.reg) hw⟩

theorem freq_mem_fmVoiceRegs (c : Config) (voice : Byte) : c.fmMap.freq + voice ∈ fmVoiceRegs c voice := by
  simp [fmVoiceRegs]

theorem key_mem_fmVoiceRegs (c : Config) (voice : Byte) : c.fmMap.key + voice ∈ fmVoiceRegs c voice := by
  simp [fmVoiceRegs]

theorem fmVoiceRegs_of_default {c : Config} (hd : defaultFm c) (voice : Byte) :
    fmVoiceRegs c voice = fmVoiceRegs (Config.reference .fm) voice := by
  obtain ⟨hmap, h1, h2⟩ := hd
  simp [fmVoiceRegs, op1SlotOf, op2SlotOf, hmap, h1, h2, Config.reference]

theorem exists_eq_ofNat_of_lt_six {voice : Byte} (h6 : voice.toNat < 6) : ∃ j : Fin 6, voice = BitVec.ofNat 8 j :=
  ⟨⟨voice.toNat, h6⟩, by simp⟩

/-- With the default tables the registers of a voice are all different (R133). -/
theorem fmVoiceRegs_nodup {c : Config} (hd : defaultFm c) {voice : Byte} (h6 : voice.toNat < 6) :
    (fmVoiceRegs c voice).Nodup := by
  rw [fmVoiceRegs_of_default hd]
  obtain ⟨j, rfl⟩ := exists_eq_ofNat_of_lt_six h6
  clear h6
  revert j
  decide

/-- With the default tables two voices share no register (R138). -/
theorem fmVoiceRegs_disjoint {c : Config} (hd : defaultFm c) {v w : Byte} (hv : v.toNat < 6) (hw : w.toNat < 6)
    (hne : v ≠ w) : ∀ r ∈ fmVoiceRegs c v, r ∉ fmVoiceRegs c w := by
  rw [fmVoiceRegs_of_default hd, fmVoiceRegs_of_default hd]
  obtain ⟨i, rfl⟩ := exists_eq_ofNat_of_lt_six hv
  obtain ⟨j, rfl⟩ := exists_eq_ofNat_of_lt_six hw
  clear hv hw
  revert i j
  decide

/-! ## The register image after register writes -/

/-- Writes one after another, from the first. -/
theorem fmImageAt_wrote_cons (s : State) (w : FmRecord) (ws : List FmRecord) (b : Bank) (r : Byte) :
    (wrote s (w :: ws)).fmImageAt b r = (wrote (s.fmStore w.bank w.reg w.val) ws).fmImageAt b r := rfl

/-- What a register holds after writes depends on what it held, not on the rest of the state. -/
theorem fmImageAt_wrote_congr (ws : List FmRecord) {s t : State} {b : Bank} {r : Byte}
    (h : s.fmImageAt b r = t.fmImageAt b r) : (wrote s ws).fmImageAt b r = (wrote t ws).fmImageAt b r := by
  induction ws generalizing s t with
  | nil => exact h
  | cons w ws ih =>
    rw [fmImageAt_wrote_cons, fmImageAt_wrote_cons]
    exact ih (by simp only [State.fmImageAt_fmStore, h])

/-- A register that is not written keeps its value. -/
theorem fmImageAt_wrote_of_unwritten {ws : List FmRecord} {b : Bank} {r : Byte}
    (h : ∀ w ∈ ws, ¬ (b = w.bank ∧ r = w.reg)) (s : State) : (wrote s ws).fmImageAt b r = s.fmImageAt b r := by
  induction ws generalizing s with
  | nil => rfl
  | cons w ws ih =>
    obtain ⟨hw, hws⟩ := List.forall_mem_cons.mp h
    rw [fmImageAt_wrote_cons, ih hws, State.fmImageAt_fmStore, if_neg hw]

theorem WritesOnly.fmImageAt_wrote {regs : List Byte} {ws : List FmRecord} (h : WritesOnly regs ws) {b : Bank} {r : Byte}
    (hr : ¬ (b = .primary ∧ r ∈ regs)) (s : State) : (wrote s ws).fmImageAt b r = s.fmImageAt b r := by
  refine fmImageAt_wrote_of_unwritten (fun w hw ⟨hbank, hreg⟩ => hr ?_) s
  rw [hbank, hreg]
  exact h w hw

/-- Where no register is written twice, each holds what was written to it. -/
theorem fmImageAt_wrote_of_mem {ws : List FmRecord} (hnodup : (ws.map FmRecord.reg).Nodup) (s : State) :
    ∀ w ∈ ws, (wrote s ws).fmImageAt w.bank w.reg = some w.val := by
  induction ws generalizing s with
  | nil => simp
  | cons w ws ih =>
    rw [List.map_cons, List.nodup_cons] at hnodup
    obtain ⟨hfirst, hrest⟩ := hnodup
    refine List.forall_mem_cons.mpr ⟨?_, ih hrest (s.fmStore w.bank w.reg w.val)⟩
    have hlater : ∀ x ∈ ws, ¬ (w.bank = x.bank ∧ w.reg = x.reg) := fun x hx ⟨_, hreg⟩ =>
      hfirst (hreg ▸ List.mem_map_of_mem hx)
    rw [fmImageAt_wrote_cons, fmImageAt_wrote_of_unwritten hlater, State.fmImageAt_fmStore, if_pos ⟨rfl, rfl⟩]

/-- With the default tables, after an assignment that runs, each of the voice's registers holds what was written to it. -/
theorem fmImageAt_assigned {c : Config} (hd : defaultFm c) {voice : Byte} (h6 : voice.toNat < 6) (p : Patch) (s : State) :
    ∀ w ∈ assignWrites c voice p, (wrote s (assignWrites c voice p)).fmImageAt w.bank w.reg = some w.val :=
  fmImageAt_wrote_of_mem (assignWrites_regs c voice p ▸ fmVoiceRegs_nodup hd h6) s

/-- The register image after writes and then a key-off of the byte cached before them (R134). -/
theorem keyOff_after_writes {s : State} {voice : Byte} (ha : s.admits .fmSetNote = true) (hw : s.runsWhole = true)
    (hv : voice.toNat < s.cfg.fmVoices) (h6 : voice.toNat < 6) (ws : List FmRecord) (octave : Byte) :
    ∃ u, exec (.fmSetNote voice octave s.cfg.fmNoteNone) (wrote s ws) = .next u ∧ ∀ b r, u.fmImageAt b r =
      if b = .primary ∧ r = s.cfg.fmMap.key + voice then some (s.keycache[fmVoice voice] &&& 0xDF)
      else (wrote s ws).fmImageAt b r :=
  ⟨_, fmKeyOffEffect (wrote s ws) voice octave ha hw hv h6,
    fun b r => State.fmImageAt_fmStore (wrote s ws) .primary b _ r _⟩

/-- Settles O22: the 13 registers differ, so each holds what was written to it, and the key-off writes the last of them. -/
theorem fmPatchRoundTrip : Obligations.FmPatchRoundTrip := by
  intro s t voice patch p s1 s2 hd ha hw hv h6 hp h1 h2 hexec
  have ⟨hmap, _⟩ := hd
  obtain rfl : wrote s (assignWrites s.cfg voice p) = t :=
    Host.Outcome.next.inj ((execFmAssignInstrument_writes ha hw hv h6 hp h1 h2).symm.trans hexec)
  have hread := fmImageAt_assigned hd h6 p s
  have hkeep := fun b r hr => (assignWrites_writesOnly s.cfg voice p).fmImageAt_wrote (b := b) (r := r) hr s
  have hoff := keyOff_after_writes (s := s) ha hw hv h6 (assignWrites s.cfg voice p)
  generalize wrote s (assignWrites s.cfg voice p) = t at *
  simp only [assignWrites, operatorWrites, fmVoiceRegs, operatorRegs, op1SlotOf, op2SlotOf, List.getD_eq_getElem?_getD, h1,
    h2, Option.getD_some, hmap, defaultFmMap, List.cons_append, List.nil_append, List.forall_mem_cons] at hread hkeep hoff
  obtain ⟨tvsm1, kslTl1, ad1, sr1, wave1, tvsm2, kslTl2, ad2, sr2, wave2, fbSyn, freq, key, -⟩ := hread
  refine ⟨fbSyn, ad1, sr1, kslTl1, wave1, tvsm1, ad2, sr2, kslTl2, wave2, tvsm2, freq, key, fun r hr => hkeep _ r ?frame,
    fun r => hkeep _ r (by simp), fun octave => ?keyOff⟩
  case frame =>
    simp only [List.mem_cons, List.not_mem_nil, or_false, not_or, true_and] at hr ⊢
    tauto
  case keyOff =>
    obtain ⟨u, hu, himage⟩ := hoff octave
    refine ⟨u, hu, (himage _ _).trans (if_pos ⟨rfl, rfl⟩), fun b r hr => (himage b r).trans (if_neg ?_)⟩
    tauto

/-! ## Commands on different voices -/

/-- The state after an FM voice command: its register writes, and its byte of the key cache. -/
def State.fmVoiceEffect (s : State) (voice : Byte) (ws : List FmRecord) (key : Byte) : State :=
  { wrote s ws with keycache := s.keycache.set (fmVoice voice) key }

/-- A command that raises a fault in every state of the configuration that admits it. -/
def AlwaysFaults (c : Config) (i : Instr) : Prop :=
  ∃ code, ∀ s : State, s.cfg = c → s.admits i.op = true → exec i s = .next (faulted s code i.op.byte)

/-- A command that, in the states of the configuration with this byte in the voice's cache, writes registers of its voice only,
and always the same. -/
def RunsOnVoice (c : Config) (cached voice : Byte) (i : Instr) : Prop :=
  voice.toNat < 6 ∧ ∃ ws key, WritesOnly (fmVoiceRegs c voice) ws ∧
    ∀ s : State, s.cfg = c → s.keycache[fmVoice voice] = cached → s.admits i.op = true → s.runsWhole = true →
      exec i s = .next (s.fmVoiceEffect voice ws key)

theorem State.fmVoiceEffect_cached (s : State) (voice : Byte) (ws : List FmRecord) :
    s.fmVoiceEffect voice ws s.keycache[fmVoice voice] = wrote s ws := by
  simp [State.fmVoiceEffect, wrote]

/-- A command on one voice leaves the cached byte of another alone. -/
theorem State.fmVoiceEffect_keycache_ne {v w : Byte} (h : fmVoice v ≠ fmVoice w) (s : State) (ws : List FmRecord)
    (key : Byte) : (s.fmVoiceEffect v ws key).keycache[fmVoice w] = s.keycache[fmVoice w] :=
  Vector.getElem_set_ne (fmVoice v).isLt (fmVoice w).isLt (Fin.val_ne_of_ne h)

theorem fmAssignInstrument_faults_or_runs {c : Config} (hwf : c.wf = true) (cached voice patch : Byte) :
    AlwaysFaults c (.fmAssignInstrument voice patch) ∨ RunsOnVoice c cached voice (.fmAssignInstrument voice patch) := by
  cases hf : fmAssignFault c voice patch with
  | some code => exact .inl ⟨code, fun s hs ha => execFmAssignInstrument_fault ha (hs ▸ hf)⟩
  | none =>
    obtain ⟨hvoice, hpatch⟩ := fmAssignFault_none hf
    obtain ⟨hv, h6⟩ := (fmVoiceFault_none_iff _ _).mp hvoice
    obtain ⟨-, -, hslots1, hslots2, -⟩ := (Config.wfFm_iff c).mp (wf_fm hwf)
    refine .inr ⟨h6, assignWrites c voice c.patches[patch.toNat], cached, assignWrites_writesOnly _ _ _, ?_⟩
    rintro s rfl rfl ha hw
    rw [State.fmVoiceEffect_cached]
    exact execFmAssignInstrument_writes ha hw hv h6 (List.getElem?_eq_getElem hpatch)
      (List.getElem?_eq_getElem (hslots1 ▸ h6)) (List.getElem?_eq_getElem (hslots2 ▸ h6))

theorem fmSetNote_faults_or_runs {c : Config} (hwf : c.wf = true) (cached voice octave note : Byte) :
    AlwaysFaults c (.fmSetNote voice octave note) ∨ RunsOnVoice c cached voice (.fmSetNote voice octave note) := by
  cases hf : fmNoteFault c voice octave note with
  | some code => exact .inl ⟨code, fun s hs ha => execFmSetNote_fault ha (hs ▸ hf)⟩
  | none =>
    obtain ⟨hvoice, hrange⟩ := fmNoteFault_none hf
    obtain ⟨hv, h6⟩ := (fmVoiceFault_none_iff _ _).mp hvoice
    refine .inr ⟨h6, ?_⟩
    by_cases hnote : note = c.fmNoteNone
    case pos =>
      refine ⟨[⟨.primary, c.fmMap.key + voice, cached &&& 0xDF⟩], cached,
        by simp [WritesOnly, key_mem_fmVoiceRegs], ?_⟩
      rintro s rfl rfl ha hw
      rw [State.fmVoiceEffect_cached, hnote]
      exact fmKeyOffEffect s voice octave ha hw hv h6
    case neg =>
      obtain ⟨⟨hlow, hhigh⟩, hoctave⟩ := hrange hnote
      obtain ⟨hfnum, -⟩ := (Config.wfFm_iff c).mp (wf_fm hwf)
      obtain ⟨f, hf⟩ : ∃ f, c.fnum[note.toNat - 1]? = some f := ⟨_, List.getElem?_eq_getElem (by omega)⟩
      let key : Byte := BitVec.ofNat 8 (f.toNat / 256 + 4 * octave.toNat + 32)
      refine ⟨[⟨.primary, c.fmMap.freq + voice, BitVec.ofNat 8 f.toNat⟩, ⟨.primary, c.fmMap.key + voice, key⟩], key,
        by simp [WritesOnly, freq_mem_fmVoiceRegs, key_mem_fmVoiceRegs], ?_⟩
      rintro s rfl - ha hw
      exact fmNoteOnEffect s voice octave note f ha hw hv h6 hnote hlow hhigh hoctave hf

theorem fmVoiceCommand_faults_or_runs {c : Config} (hwf : c.wf = true) (cached : Byte) {i : Instr} {voice : Byte}
    (hi : fmVoiceCommand i voice) : AlwaysFaults c i ∨ RunsOnVoice c cached voice i := by
  obtain ⟨patch, rfl⟩ | ⟨octave, note, rfl⟩ := hi
  · exact fmAssignInstrument_faults_or_runs hwf cached voice patch
  · exact fmSetNote_faults_or_runs hwf cached voice octave note

/-- The build has all FM voice commands or none. -/
theorem fmVoiceCommand_admits {i : Instr} {voice : Byte} (hi : fmVoiceCommand i voice) (s : State) :
    s.admits i.op = s.admits .fmSetNote := by
  obtain ⟨patch, rfl⟩ | ⟨octave, note, rfl⟩ := hi <;> rfl

/-- A command that does not halt its admitted state runs. -/
theorem RunsOnVoice.of_not_halted {c : Config} {cached voice : Byte} {i : Instr} {s t : State} (hwf : c.wf = true)
    (hi : fmVoiceCommand i voice) (hs : s.cfg = c) (ha : s.admits i.op = true) (h : exec i s = .next t)
    (ht : t.halted = false) : RunsOnVoice c cached voice i := by
  refine (fmVoiceCommand_faults_or_runs hwf cached hi).resolve_left fun ⟨code, hfault⟩ => ?_
  obtain rfl := Host.Outcome.next.inj ((hfault s hs ha).symm.trans h)
  exact Bool.noConfusion ht

theorem not_halted_of_exec {i : Instr} {s t : State} (h : exec i s = .next t) (ht : t.halted = false) :
    s.halted = false := by
  by_contra hs
  obtain rfl := Host.Outcome.next.inj ((exec_halted i (by simpa using hs)).symm.trans h)
  exact hs ht

theorem fmVoice_ne {v w : Byte} (hv : v.toNat < 6) (hw : w.toNat < 6) (hne : v ≠ w) : fmVoice v ≠ fmVoice w := by
  intro e
  have := congrArg Fin.val e
  simp only [fmVoice, Fin.ofNat, Nat.mod_eq_of_lt hv, Nat.mod_eq_of_lt hw] at this
  exact hne (BitVec.eq_of_toNat_eq this)

/-- Writes to different registers commute on the register image. -/
theorem fmImageAt_wrote_comm {regs regs' : List Byte} {ws ws' : List FmRecord} (h : WritesOnly regs ws)
    (h' : WritesOnly regs' ws') (hdisjoint : ∀ r ∈ regs, r ∉ regs') (s : State) (b : Bank) (r : Byte) :
    (wrote (wrote s ws) ws').fmImageAt b r = (wrote (wrote s ws') ws).fmImageAt b r := by
  by_cases hr : b = .primary ∧ r ∈ regs'
  · have hr' : ¬ (b = .primary ∧ r ∈ regs) := fun ⟨_, hmem⟩ => hdisjoint r hmem hr.2
    rw [h.fmImageAt_wrote hr']
    exact fmImageAt_wrote_congr ws' (h.fmImageAt_wrote hr' s)
  · rw [h'.fmImageAt_wrote hr]
    exact fmImageAt_wrote_congr ws (h'.fmImageAt_wrote hr s).symm

/-- Settles O23: neither command faults, so each makes its own writes, to the registers and the cached byte of its voice. -/
theorem fmVoicesAreIndependent : Obligations.FmVoicesAreIndependent := by
  intro s a b c d i j v w hd hwf hw hne hi hj ha hia hjb hb hjc hid
  have hadmits : s.admits j.op = true := by rwa [fmVoiceCommand_admits hj, ← fmVoiceCommand_admits hi]
  obtain ⟨hv6, ws, key, hws, hruns⟩ := RunsOnVoice.of_not_halted (cached := s.keycache[fmVoice v]) hwf hi rfl ha hia
    (not_halted_of_exec hjb hb)
  obtain rfl := Host.Outcome.next.inj ((hruns s rfl rfl ha hw).symm.trans hia)
  obtain ⟨hw6, ws', key', hws', hruns'⟩ := RunsOnVoice.of_not_halted (s := s.fmVoiceEffect v ws key)
    (cached := s.keycache[fmVoice w]) hwf hj rfl hadmits hjb hb
  obtain rfl := Host.Outcome.next.inj ((hruns' s rfl rfl hadmits hw).symm.trans hjc)
  have hvoices := fmVoice_ne hv6 hw6 hne
  obtain rfl := Host.Outcome.next.inj ((hruns' (s.fmVoiceEffect v ws key) rfl
    (State.fmVoiceEffect_keycache_ne hvoices s ws key) hadmits hw).symm.trans hjb)
  obtain rfl := Host.Outcome.next.inj ((hruns (s.fmVoiceEffect w ws' key') rfl
    (State.fmVoiceEffect_keycache_ne hvoices.symm s ws' key') ha hw).symm.trans hid)
  refine ⟨hb, ?cache, ?image⟩
  case cache =>
    exact Vector.set_comm (hi := (fmVoice w).isLt) (hj := (fmVoice v).isLt) _ _ (Fin.val_ne_of_ne hvoices.symm)
  case image => exact fmImageAt_wrote_comm hws' hws (fmVoiceRegs_disjoint hd hw6 hv6 hne.symm) s

end Sys2Proof.Machine
end

section
/-!
`PCM_INIT` where the device answers well (42_pcm_init.md): the arming of playback (R159 to R162), the voices silenced (R163) and
the front half preloaded (R164), each as the state its accesses leave.
-/

namespace Sys2Proof.Machine

open Sys2Proof.Claims

/-- A command that no interrupt cuts leaves what its accesses leave, if they end within its count. -/
theorem State.runCommand_of_ends {s t : State} {ops : List Access} {m : Nat} (hw : s.runsWhole = true)
    (hh : s.tickOpen = false → s.hostOps = []) (hm : m ≤ ops.length + s.cfg.resetPollMax)
    (hrun : runAccesses m ops s = (t, [])) : s.runCommand ops = t := by
  refine State.runCommand_done (runAccesses_done_mono hrun (State.budget_of_whole ops hw ▸ hm)) fun htick => ?_
  have hkeep := runAccesses_keeps (P := fun t => t.hostOps = []) (fun a t h => by simpa [runAccess_frame] using h) m ops s
    (hh htick)
  rwa [hrun] at hkeep

/-! ## The mixer -/

/-- The mixer's value read back as it was written (R158). -/
theorem runAccess_readMixer {s : State} {p : PcmState} {polls steps d : Nat} {trace : List PortAccess} {b : Byte}
    {bs : List Byte} (h : b = s.cfg.ports.mixerIrqValue) :
    runAccess .readMixer (s.inPcmInit p polls steps ⟨b :: bs, d⟩ trace) =
      (s.inPcmInit .ready polls (steps + 1) ⟨bs, d + 1⟩ (trace ++ [.read s.cfg.ports.dspMixerData b]), some []) :=
  (if_pos h).trans (by rw [State.inPcmInit_initRead]; rfl)

/-! ## Playback arming -/

/-- The DMA offset is the buffer's address halved, in 16 bits (R71). -/
theorem dmaOffset_eq (c : Config) : dmaOffset c = BitVec.ofNat 16 (c.bufPhys.toNat / 2) := by
  apply BitVec.eq_of_toNat_eq
  simp [dmaOffset, BitVec.extractLsb'_toNat, Nat.shiftRight_eq_div_pow]

/-- The DMA page is the top byte of the buffer's address (R71). -/
theorem dmaPageByte_eq (c : Config) : dmaPageByte c = BitVec.ofNat 8 (c.bufPhys.toNat / 65536) := by
  apply BitVec.eq_of_toNat_eq
  simp [dmaPageByte, BitVec.extractLsb'_toNat, Nat.shiftRight_eq_div_pow]

/-- The writes of the arming, and the start of the DMA agent (R159 to R162). -/
theorem foldl_arming (s : State) (p : PcmState) (polls steps : Nat) (answers : Source Byte) (trace : List PortAccess) :
    (dmaAccesses s.cfg ++ rateAccesses s.cfg ++ playAccesses s.cfg).foldl (fun t a => (runAccess a t).1)
        (s.inPcmInit p polls steps answers trace) =
      { s.inPcmInit p polls (steps + 18) answers (trace ++ armTrace s.cfg) with dmaRun := true } := by
  have hstart : ∀ t, (runAccess .dmaStart t).1 = { t with dmaRun := true } := fun _ => rfl
  simp [dmaAccesses, rateAccesses, playAccesses, dspWrite, runAccess_initWrite, hstart, armTrace, dmaOffset_eq,
    dmaPageByte_eq, dmaLength, dspBlock, Config.halfSamples]

/-! ## The voices -/

/-- A voice as `InitVoices` leaves it (R163): silent, with the default waveform, its volume and phase kept. -/
def Voice.initialised (c : Config) (v : Voice) : Voice := { v with note := 0, wave := c.defaultWave }

/-- The two stores of one voice (R163). -/
theorem State.setNote_setWave_default (s : State) (j : Fin 8) :
    (s.setNote j 0).setWave j s.cfg.defaultWave = { s with voices := s.voices.set j (s.voices[j].initialised s.cfg) } := by
  simp [State.setNote, State.setWave, Voice.initialised]

/-- The stores of a list of voices: those of the list are initialised, the others are left alone. -/
theorem foldl_initVoices {c : Config} (js : List (Fin 8)) (s : State) (hc : s.cfg = c) :
    (js.flatMap fun j => [.storeNote j 0x00, .storeWave j c.defaultWave]).foldl (fun t a => (runAccess a t).1) s =
      { s with voices := Vector.ofFn fun i => if i ∈ js then s.voices[i].initialised c else s.voices[i] } := by
  induction js generalizing s with
  | nil => simp
  | cons j js ih =>
    subst hc
    refine (ih ((s.setNote j 0).setWave j s.cfg.defaultWave) rfl).trans ?_
    rw [State.setNote_setWave_default]
    refine congrArg (fun vs => { s with voices := vs }) (Vector.ext fun i hi => ?_)
    by_cases hij : (j : Nat) = i
    · subst hij
      simp [Voice.initialised]
    · have hne : (⟨i, hi⟩ : Fin 8) ≠ j := fun h => hij (congrArg Fin.val h).symm
      simp [hij, hne]

/-- `InitVoices` (R163). -/
theorem foldl_initVoiceAccesses {c : Config} (s : State) (hc : s.cfg = c) :
    (initVoiceAccesses c).foldl (fun t a => (runAccess a t).1) s =
      { s with voices := s.voices.map (Voice.initialised c) } := by
  refine (foldl_initVoices _ s hc).trans (congrArg (fun vs => { s with voices := vs }) (Vector.ext fun i hi => ?_))
  simp

/-! ## The preload -/

/-- Memory after the first `n` stores of the preload (R164). -/
def preloaded (c : Config) (m : Memory) : Nat → Memory
  | 0 => m
  | n + 1 => (preloaded c m n).writeSample (c.bufPhys.toNat + 2 * n) (preloadSample c n)

/-- `Preload` (R164). -/
theorem foldl_preloadAccesses {c : Config} (s : State) (hc : s.cfg = c) :
    (preloadAccesses c).foldl (fun t a => (runAccess a t).1) s = { s with mem := preloaded c s.mem c.halfSamples } := by
  subst hc
  rw [preloadAccesses]
  induction s.cfg.halfSamples with
  | zero => rfl
  | succ n ih =>
    rw [List.range_succ, List.map_append, List.foldl_append, ih]
    rfl

section Preloaded

variable (c : Config) {m : Memory} (hm : m.wf = true)

include hm

theorem preloaded_wf (n : Nat) : (preloaded c m n).wf = true := by
  induction n with
  | zero => exact hm
  | succ n ih => exact Memory.writeSample_wf _ _ ih

/-- Outside the samples stored, the preload leaves every byte alone. -/
theorem read_preloaded {n a : Nat} (h : a < c.bufPhys.toNat ∨ c.bufPhys.toNat + 2 * n ≤ a) :
    (preloaded c m n).read a = m.read a := by
  induction n with
  | zero => rfl
  | succ n ih =>
    rw [preloaded, Memory.read_writeSample _ _ _ (preloaded_wf c hm n), if_neg (by omega), if_neg (by omega),
      ih (by omega)]

/-- Each sample stored is the reference waveform's. -/
theorem readSample_preloaded {n k : Nat} (h : k < n) :
    (preloaded c m n).readSample (c.bufPhys.toNat + 2 * k) = preloadSample c k := by
  induction n with
  | zero => omega
  | succ n ih =>
    rcases Nat.lt_succ_iff_lt_or_eq.mp h with hlt | rfl
    · rw [preloaded, Memory.readSample_writeSample_other _ (preloaded_wf c hm n) (by omega), ih hlt]
    · exact Memory.readSample_writeSample_same _ _ (preloaded_wf c hm k)

end Preloaded

/-- A sample of the preload is the table's entry, from the start again past its end, times 128 (R164). -/
theorem preloadSample_of_table {c : Config} {k : Nat} {table : List (BitVec 8)} {t : BitVec 8}
    (htable : c.waveTable c.refWave = some table) (ht : table[k % c.waveLen]? = some t) :
    preloadSample c k = BitVec.ofInt 16 (t.toInt * 128) := by
  simp [preloadSample, htable, ht, trunc16]

/-! ## The command -/

/-- The state a `PCM_INIT` that succeeds leaves, from the state in which the mixer was read back. -/
theorem foldl_afterMixer (s : State) (p : PcmState) (polls steps : Nat) (answers : Source Byte) (trace : List PortAccess) :
    (afterMixerAccesses s.cfg).foldl (fun t a => (runAccess a t).1) (s.inPcmInit p polls steps answers trace) =
      { s.inPcmInit .armed polls (steps + 18) answers (trace ++ armTrace s.cfg) with
        dmaRun := true
        voices := s.voices.map (Voice.initialised s.cfg)
        mem := preloaded s.cfg s.mem s.cfg.halfSamples } := by
  rw [afterMixerAccesses, List.foldl_append, List.foldl_append, List.foldl_append, foldl_arming,
    foldl_initVoiceAccesses (c := s.cfg), foldl_preloadAccesses (c := s.cfg)] <;> rfl

theorem afterMixerAccesses_straight (c : Config) : ∀ a ∈ afterMixerAccesses c, ∀ t, (runAccess a t).2 = some [] := by
  simp [afterMixerAccesses, dmaAccesses, rateAccesses, playAccesses, initVoiceAccesses, preloadAccesses, dspWrite, runAccess,
    or_imp, forall_and]

/-- What follows the mixer asks for nothing more, so it runs to its end. -/
theorem runAccesses_afterMixer (c : Config) (s : State) :
    runAccesses (afterMixerAccesses c).length (afterMixerAccesses c) s =
      ((afterMixerAccesses c).foldl (fun t a => (runAccess a t).1) s, []) := by
  simpa using runAccesses_straight _ [] s (afterMixerAccesses_straight c) 0

theorem pcmInitAccesses_length (c : Config) : (pcmInitAccesses c).length = (afterMixerAccesses c).length + 12 := by
  simp [pcmInitAccesses_eq, afterVersionAccesses_eq]

/-- Settles O25: the handshake and the mixer's configuration, then the arming, the voices and the preload, which ask for
nothing more. -/
theorem pcmInitSucceeds : Obligations.PcmInitSucceeds := by
  intro s sts rest st major minor hwf hmem ha hw hi hclear hset hbound hmajor hl
  obtain ⟨-, hready, -⟩ := (s.admits_iff _).mp ha
  refine ⟨preloaded s.cfg s.mem s.cfg.halfSamples, ?next, preloaded_wf s.cfg hmem _, ?samples, ?frame⟩
  case next =>
    refine congrArg Host.Outcome.next ((State.command_admits _ ha).trans ((if_neg (by simp [hi])).trans ?_))
    refine State.runCommand_of_ends (m := sts.length + ((afterMixerAccesses s.cfg).length + 1 + 8) + 4) hw
      (State.hostOps_of_cmdReady hready) ?count ?run
    case count =>
      rw [pcmInitAccesses_length]
      dsimp only
      omega
    case run =>
      rw [pcmInit_configured hclear hbound _ hset hmajor (by simpa using hl),
        runAccesses_goesOn (runAccess_readMixer rfl), List.nil_append, runAccesses_afterMixer,
        foldl_afterMixer]
      simp [State.inPcmInit, detectedTrace, acknowledgedTrace, mixerTrace, Voice.initialised]
  case samples =>
    intro table htable k hk t ht
    rw [readSample_preloaded s.cfg hmem hk, preloadSample_of_table htable ht]
  case frame => exact fun a => read_preloaded s.cfg hmem

end Sys2Proof.Machine
end

section
/-!
The mixer commands (43_pcm_commands.md): what `PCM_SET_WAVEFORM`, `PCM_SET_VOLUME` and `PCM_SET_MASTER` store, and the range
checks of the voice commands (60_exceptions.md R237).
-/

namespace Sys2Proof.Machine

open Sys2Proof.Claims

/-! ## The stores -/

/-- A command of the Sequencer, or of a Host's turn without a cut, has no open order of stores (R74, R196). -/
theorem State.mayBeCut_of_runsWhole {s : State} (hw : s.runsWhole = true) : s.mayBeCut = false := by
  rcases (Bool.or_eq_true _ _).mp hw with htick | hslice
  · simp [State.mayBeCut, htick]
  · simp [State.mayBeCut, Option.isNone_iff_eq_none.mp hslice]

/-- Settles O31: the operands pass the checks, and uncut the two stores are made one after the other. -/
theorem pcmSetWaveformEffect : Obligations.PcmSetWaveformEffect := by
  intro s voice w x ha hw hv hwave
  obtain ⟨-, hready, -⟩ := (s.admits_iff _).mp ha
  refine congrArg Host.Outcome.next ((State.command_admits _ ha).trans ?_)
  rw [pcmWaveformFault_of_inRange hv hwave, State.checked_none, State.mayBeCut_of_runsWhole hw]
  exact State.runCommand_of_ends hw (State.hostOps_of_cmdReady hready) (Nat.le_add_right 2 _)
    (runAccesses_waveform false (pcmVoice voice) w x 0 s)

theorem pcmVolumeFault_of_inRange {voice : Byte} (hv : voice.toNat < 8) : pcmVolumeFault voice = none :=
  if_neg (Nat.not_le.mpr hv)

/-- Settles O33: each command is one store; the voice's passes its check, and the master volume has none. -/
theorem pcmVolumesEffect : Obligations.PcmVolumesEffect := by
  refine ⟨fun s voice x ha hv => ?volume, fun s x ha => ?master⟩
  case volume =>
    refine congrArg Host.Outcome.next ((State.command_admits _ ha).trans ?_)
    rw [pcmVolumeFault_of_inRange hv, State.checked_none]
    rfl
  case master => exact congrArg Host.Outcome.next (State.command_admits _ ha)

/-! ## The range checks -/

/-- A command whose checks find a fault raises it and does nothing else (R236). -/
theorem State.command_checked_fault {s : State} {op : Op} {fault : State → Option Byte} {code : Byte} {act : State → State}
    (ha : s.admits op = true) (h : fault s = some code) :
    s.command op (fun s => s.checked op (fault s) act) = faulted s code op.byte := by
  rw [State.command_admits _ ha, h]
  rfl

theorem pcmNoteFault_of_voice {voice : Byte} (hv : 8 ≤ voice.toNat) (c : Config) (octave note : Byte) :
    pcmNoteFault c voice octave note = some cmdVoiceRange :=
  if_pos hv

theorem pcmNoteFault_of_note {voice note : Byte} (hv : voice.toNat < 8) (hn : 12 < note.toNat) (c : Config) (octave : Byte) :
    pcmNoteFault c voice octave note = some cmdNoteRange :=
  (if_neg (Nat.not_le.mpr hv)).trans (if_pos hn)

/-- The two checks of the octave raise one code: the width of its field, then the octaves a sounding note has. -/
theorem pcmNoteFault_of_octave {c : Config} {voice octave note : Byte} (hv : voice.toNat < 8) (hn : note.toNat ≤ 12)
    (ho : 15 < octave.toNat ∨ (note ≠ 0 ∧ c.numOctaves ≤ octave.toNat)) :
    pcmNoteFault c voice octave note = some cmdOctaveRange := by
  unfold pcmNoteFault
  rw [if_neg (Nat.not_le.mpr hv), if_neg (Nat.not_lt.mpr hn)]
  by_cases hwidth : 15 < octave.toNat
  · exact if_pos hwidth
  · rw [if_neg hwidth, if_pos (ho.resolve_left hwidth)]

theorem pcmVolumeFault_of_voice {voice : Byte} (hv : 8 ≤ voice.toNat) : pcmVolumeFault voice = some cmdVoiceRange :=
  if_pos hv

theorem pcmWaveformFault_of_voice {voice : Byte} (hv : 8 ≤ voice.toNat) (c : Config) (w : Byte) :
    pcmWaveformFault c voice w = some cmdVoiceRange :=
  if_pos hv

theorem pcmWaveformFault_of_wave {c : Config} {voice w : Byte} (hv : voice.toNat < 8)
    (hw : w ∉ [c.waveSine, c.waveSquare, c.waveNoise, c.waveTriangle]) :
    pcmWaveformFault c voice w = some cmdWaveformRange := by
  have hwave : c.isWave w = false := decide_eq_false hw
  simp [pcmWaveformFault, Nat.not_le.mpr hv, hwave]

/-- Settles O34: the first check that fails gives the code, and the fault is all the command does. -/
theorem pcmRangeFaultsInOrder : Obligations.PcmRangeFaultsInOrder := by
  refine ⟨fun s voice octave note ha => ?note, fun s voice w x ha => ?waveform, fun s voice x ha hv => ?volume⟩
  case note =>
    have hfault {code : Byte} (h : pcmNoteFault s.cfg voice octave note = some code) :
        exec (.pcmSetNote voice octave note) s = .next (faulted s code 0x21) :=
      congrArg Host.Outcome.next (State.command_checked_fault ha h)
    exact ⟨fun hv => hfault (pcmNoteFault_of_voice hv _ _ _), fun hv hn => hfault (pcmNoteFault_of_note hv hn _ _),
      fun hv hn ho => hfault (pcmNoteFault_of_octave hv hn ho)⟩
  case waveform =>
    have hfault {code : Byte} (h : pcmWaveformFault s.cfg voice w = some code) :
        exec (.pcmSetWaveform voice w x) s = .next (faulted s code 0x22) :=
      congrArg Host.Outcome.next (State.command_checked_fault ha h)
    exact ⟨fun hv => hfault (pcmWaveformFault_of_voice hv _ _), fun hv hw => hfault (pcmWaveformFault_of_wave hv hw)⟩
  case volume => exact congrArg Host.Outcome.next (State.command_checked_fault ha (pcmVolumeFault_of_voice hv))

end Sys2Proof.Machine
end

section
/-!
The voices of the mixer (44_pcm_fill.md R193, R198 to R205): one voice silent, on a table or on the noise source, and the loop
over the eight of them.
-/

namespace Sys2Proof.Machine

/-! ## One voice -/

/-- A note byte is silent where the low four bits are clear (R96, R198). -/
theorem noteOf_eq_zero_iff (nb : Byte) : noteOf nb = 0 ↔ nb.extractLsb' 0 4 = 0 := by
  rw [← BitVec.toNat_inj, BitVec.extractLsb'_toNat]
  rfl

theorem mixVoice_silent {c : Config} {v : Voice} (h : noteOf v.note = 0) (src : Source Byte) :
    mixVoice c v src = .ok ({ v with phase := 0 }, 0, src) :=
  if_pos h

theorem phaseInc_of_entries {c : Config} {nb : Byte} {base : BitVec 16} {mul : Nat} (hn : 1 ≤ noteOf nb)
    (hbase : c.noteBase[noteOf nb - 1]? = some base) (hmul : c.octMul[octaveOf nb]? = some mul) :
    phaseInc c nb = some (base.toNat * mul * c.waveLen / c.sampleRate.toNat) := by
  obtain ⟨n, hn'⟩ := Nat.exists_eq_add_of_le' hn
  have hat : c.noteBaseAt (noteOf nb) = some base := by
    rw [hn'] at hbase ⊢
    exact hbase
  unfold phaseInc
  rw [hat, hmul]

/-- An increment comes from an entry of each table. -/
theorem exists_entries_of_phaseInc {c : Config} {nb : Byte} {inc : Nat} (h : phaseInc c nb = some inc) :
    ∃ base ∈ c.noteBase, ∃ mul ∈ c.octMul, inc = base.toNat * mul * c.waveLen / c.sampleRate.toNat := by
  unfold phaseInc at h
  split at h
  · next base mul hbase hmul =>
    refine ⟨base, ?_, mul, List.mem_of_getElem? hmul, (Option.some.inj h).symm⟩
    unfold Config.noteBaseAt at hbase
    split at hbase
    · cases hbase
    · exact List.mem_of_getElem? hbase
  · cases h

theorem waveValue_noise {c : Config} {w : Byte} (h : w = c.waveNoise) (phase : BitVec 32) (src : Source Byte) :
    waveValue c w phase src = .ok (noiseValue src, (src.next Config.freeNoise).2) :=
  if_pos h

theorem waveValue_table {c : Config} {w : Byte} {phase : BitVec 32} {table : List Byte} {t : Byte} (hn : w ≠ c.waveNoise)
    (htable : c.waveTable w = some table) (ht : table[phase.toNat / 256]? = some t) (src : Source Byte) :
    waveValue c w phase src = .ok (t.toInt, src) := by
  unfold waveValue
  rw [if_neg hn, htable]
  simp only [ht]

/-- A sounding voice with an increment and a waveform value (R201, R204). -/
theorem mixVoice_sounding {c : Config} {v : Voice} {src src' : Source Byte} {inc : Nat} {t : Int} (hn : 1 ≤ noteOf v.note)
    (hinc : phaseInc c v.note = some inc)
    (hwave : waveValue c v.wave (advancePhase c v.phase inc) src = .ok (t, src')) :
    mixVoice c v src = .ok ({ v with phase := advancePhase c v.phase inc }, voiceScale t v.vol, src') := by
  unfold mixVoice
  rw [if_neg (Nat.one_le_iff_ne_zero.mp hn), hinc]
  simp only [hwave]

/-- Settles O43: the silent arm of the mixer. -/
theorem silentVoiceIsZero : Obligations.SilentVoiceIsZero :=
  fun _ v src h => mixVoice_silent ((noteOf_eq_zero_iff v.note).mpr h) src

/-- Settles O44: the sounding arm with a table value. In a configuration of empty tables the increment is 0, so there, too, the
lookup reads the phase the statement names. -/
theorem tableVoiceSample : Obligations.TableVoiceSample := by
  intro c v src base mul table t hlen hn hbase hmul hwave htable inc phase ht
  have hphase : (advancePhase c v.phase inc).toNat = phase := by
    rcases Nat.eq_zero_or_pos c.waveLen with h0 | hpos
    · simp [advancePhase, Config.phaseMod, phase, inc, h0]
    · exact (toNat_advancePhase hlen v.phase inc hpos).1
  rw [← hphase] at ht
  exact ⟨mixVoice_sounding hn (phaseInc_of_entries hn hbase hmul) (waveValue_table hwave htable ht src),
    fun hpos => ⟨Nat.mod_lt _ (by omega), hphase⟩⟩

/-- Settles O45: the sounding arm with a draw, which takes the head of the list or, where it is empty, the free value. -/
theorem noiseVoiceSample : Obligations.NoiseVoiceSample := by
  intro c v src base mul hn hbase hmul hwave phase sounds
  have hmix := mixVoice_sounding hn (phaseInc_of_entries hn hbase hmul) (waveValue_noise hwave _ src)
  refine ⟨fun draw rest hlisted => hmix.trans ?_, fun hlisted => hmix.trans ?_⟩ <;>
    · simp only [noiseValue, Source.next, hlisted]
      rfl

/-! ## The loop over the voices -/

/-- The loop over different voices, each of which is mixed with the source that the one before left: it writes each voice's
result and sums the contributions (R193, R205). -/
theorem mixVoices_of_each {n : Nat} (f : Fin n → Fin 8) (hf : Function.Injective f) {s : State} {v : Fin n → Voice}
    {x : Fin n → Int} {src : Fin (n + 1) → Source Byte} (acc : Int) (hsrc : src 0 = s.noise)
    (hmix : ∀ i, mixVoice s.cfg s.voices[f i] (src i.castSucc) = .ok (v i, x i, src i.succ)) :
    ∃ t, mixVoices ((List.finRange n).map f) s acc = .ok (t, acc + ∑ i, x i) ∧ t.noise = src (Fin.last n) ∧
      ∀ i, t.voices[f i] = v i := by
  induction n generalizing s acc with
  | zero => exact ⟨s, by simp [mixVoices], hsrc.symm, fun i => i.elim0⟩
  | succ n ih =>
    have hfirst : mixVoice s.cfg s.voices[f 0] s.noise = .ok (v 0, x 0, src (Fin.succ 0)) := hsrc ▸ hmix 0
    have hother (i : Fin n) : ((f 0 : Fin 8) : Nat) ≠ f i.succ := fun e =>
      absurd (hf (Fin.ext e)) (Fin.succ_ne_zero i).symm
    obtain ⟨t, ht, hnoise, hvoices⟩ := ih (f ∘ Fin.succ) (hf.comp (Fin.succ_injective n))
      (s := { s with voices := s.voices.set (f 0) (v 0), noise := src (Fin.succ 0) }) (v := v ∘ Fin.succ) (x := x ∘ Fin.succ)
      (src := src ∘ Fin.succ) (acc + x 0) rfl fun i => by simpa [hother i] using hmix i.succ
    have hkept : t.voices[f 0] = v 0 := by
      obtain ⟨-, -, hunvisited⟩ := mixVoices_frame ht
      rw [hunvisited (f 0) (by simpa using fun i => hf.ne (Fin.succ_ne_zero i))]
      simp
    refine ⟨t, ?_, hnoise, Fin.cases hkept hvoices⟩
    rw [List.finRange_succ, List.map_cons, List.map_map, mixVoices, hfirst, Fin.sum_univ_succ, ← add_assoc]
    exact ht

theorem allVoices_eq_finRange : allVoices = (List.finRange 8).map id := by
  decide

/-- Settles O46: the loop over all the voices, which leaves every other register alone. -/
theorem voicesAreSummedInOrder : Obligations.VoicesAreSummedInOrder := by
  intro s v x src hsrc hmix
  obtain ⟨t, ht, hnoise, hvoices⟩ := mixVoices_of_each id Function.injective_id 0 hsrc hmix
  rw [← allVoices_eq_finRange, zero_add] at ht
  obtain ⟨hframe, -, -⟩ := mixVoices_frame ht
  have hall : t.voices = Vector.ofFn v := Vector.ext fun i hi => by simpa using hvoices ⟨i, hi⟩
  rw [ht, hframe, hnoise, hall]

/-! ## The contribution of a voice alone -/

/-- The voice draws no noise: it is silent, or on a table waveform (R198, R203). -/
def Voice.drawsNoNoise (c : Config) (v : Voice) : Prop := noteOf v.note = 0 ∨ v.wave ≠ c.waveNoise

/-- What such a voice contributes, whatever the noise source (0 where the mixer faults). -/
def Voice.contribution (c : Config) (v : Voice) : Int :=
  match mixVoice c v Source.fresh with
  | .ok (_, x, _) => x
  | .error _ => 0

theorem Voice.contribution_silent {c : Config} {v : Voice} (h : noteOf v.note = 0) : v.contribution c = 0 := by
  rw [Voice.contribution, mixVoice_silent h]

/-- A value of a table waveform is the same with any noise source. -/
theorem waveValue_any_source {c : Config} {w : Byte} {phase : BitVec 32} {src src' : Source Byte} {t : Int}
    (hn : w ≠ c.waveNoise) (h : waveValue c w phase src = .ok (t, src')) (other : Source Byte) :
    waveValue c w phase other = .ok (t, other) := by
  unfold waveValue at h ⊢
  rw [if_neg hn] at h ⊢
  split at h
  · cases h
  · split at h
    · cases h
    · cases h; rfl

theorem Voice.contribution_of_mixVoice {c : Config} {v v' : Voice} {src src' : Source Byte} {x : Int}
    (hv : v.drawsNoNoise c) (h : mixVoice c v src = .ok (v', x, src')) : v.contribution c = x := by
  by_cases h0 : noteOf v.note = 0
  · cases (mixVoice_silent h0 src).symm.trans h
    exact Voice.contribution_silent h0
  · unfold mixVoice at h
    rw [if_neg h0] at h
    split at h
    · cases h
    · next inc hinc =>
      dsimp only at h
      split at h
      · cases h
      · next t src'' hwave =>
        cases h
        have hfresh := mixVoice_sounding (Nat.one_le_iff_ne_zero.mpr h0) hinc
          (waveValue_any_source (hv.resolve_left h0) hwave Source.fresh)
        rw [Voice.contribution, hfresh]

/-- Where no voice draws noise, the loop sums what each voice contributes alone (R205). -/
theorem sum_contribution_of_mixVoices {js : List (Fin 8)} (hjs : js.Nodup) {s t : State} {acc acc' : Int}
    (hv : ∀ j ∈ js, s.voices[j].drawsNoNoise s.cfg) (h : mixVoices js s acc = .ok (t, acc')) :
    acc' = acc + (js.map fun j => s.voices[j].contribution s.cfg).sum := by
  induction js generalizing s acc with
  | nil => cases h; simp
  | cons i js ih =>
    obtain ⟨hi, hjs⟩ := List.nodup_cons.mp hjs
    rw [mixVoices] at h
    split at h
    · cases h
    · next v x src hx =>
      have hkept : ∀ j ∈ js, (s.voices.set i v)[j] = s.voices[j] := fun j hj => by
        have hij : (i : Nat) ≠ j := fun e => hi (Fin.ext e ▸ hj)
        simp [hij]
      have hsum := ih hjs (fun j hj => (hkept j hj).symm ▸ hv j (List.mem_cons_of_mem _ hj)) h
      have hmap : (js.map fun j => (s.voices.set i v)[j].contribution s.cfg) =
          js.map fun j => s.voices[j].contribution s.cfg :=
        List.map_congr_left fun j hj => congrArg (Voice.contribution s.cfg) (hkept j hj)
      rw [hsum, hmap, List.map_cons, List.sum_cons, Voice.contribution_of_mixVoice (hv i (List.mem_cons_self ..)) hx,
        add_assoc]

/-- What voice `j` contributes once voice `i` is silenced. -/
theorem contribution_setNote_zero (s : State) (i j : Fin 8) :
    (s.setNote i 0).voices[j].contribution s.cfg = if j = i then 0 else s.voices[j].contribution s.cfg := by
  by_cases hji : j = i
  · subst hji
    rw [if_pos rfl]
    exact Voice.contribution_silent (by simp [noteOf])
  · have : (i : Nat) ≠ j := fun e => hji (Fin.ext e.symm)
    simp [hji, this]

theorem drawsNoNoise_setNote_zero {s : State} {j : Fin 8} (h : s.voices[j].drawsNoNoise s.cfg) (i : Fin 8) :
    (s.setNote i 0).voices[j].drawsNoNoise s.cfg := by
  by_cases hji : j = i
  · subst hji
    exact .inl (by simp [noteOf])
  · have : (i : Nat) ≠ j := fun e => hji (Fin.ext e.symm)
    simpa [this] using h

/-- Settles O50: no voice draws noise, so each sum is one of contributions; and each voice sounds in one of the two states or is
silent. -/
theorem twoVoicesAdd : Obligations.TwoVoicesAdd := by
  intro s u ua ub a b acc accA accB hab hsilent ha hb hu hua hub
  have hdraw (j : Fin 8) : s.voices[j].drawsNoNoise s.cfg := by
    by_cases hja : j = a
    · exact .inr (hja ▸ ha)
    · by_cases hjb : j = b
      · exact .inr (hjb ▸ hb)
      · exact .inl ((noteOf_eq_zero_iff _).mpr (hsilent j hja hjb))
  have hsplit (j : Fin 8) : s.voices[j].contribution s.cfg =
      (s.setNote b 0).voices[j].contribution s.cfg + (s.setNote a 0).voices[j].contribution s.cfg := by
    rw [contribution_setNote_zero, contribution_setNote_zero]
    by_cases hja : j = a
    · simp [hja, hab]
    · by_cases hjb : j = b
      · simp [hjb, hab.symm]
      · rw [if_neg hjb, if_neg hja, Voice.contribution_silent ((noteOf_eq_zero_iff _).mpr (hsilent j hja hjb)), add_zero]
  have hnodup : allVoices.Nodup := by decide
  have hsum := sum_contribution_of_mixVoices hnodup (fun j _ => hdraw j) hu
  have hsumA := sum_contribution_of_mixVoices hnodup (fun j _ => drawsNoNoise_setNote_zero (hdraw j) b) hua
  have hsumB := sum_contribution_of_mixVoices hnodup (fun j _ => drawsNoNoise_setNote_zero (hdraw j) a) hub
  rw [hsum, hsumA, hsumB, zero_add, zero_add, zero_add, List.map_congr_left fun j _ => hsplit j, List.sum_map_add]
  rfl

end Sys2Proof.Machine
end

section
/-!
The arithmetic of the mixer (44_pcm_fill.md R199 to R201, R204 to R207, R211, R212): the ranges of its values, the bound below
which no sample wraps, how the magnitude grows with the volumes, and the widths.
-/

namespace Sys2Proof.Machine

/-! ## Products with a byte -/

/-- A product with an unsigned byte stays inside 255 times the bounds of its other factor. -/
theorem mul_byte_bounds {x : Int} {lo hi : Nat} (hlo : -(lo : Int) ≤ x) (hhi : x ≤ hi) (b : Byte) :
    -(lo * 255 : Int) ≤ x * b.toNat ∧ x * b.toNat ≤ hi * 255 := by
  have hb : (b.toNat : Int) ≤ 255 := by have := b.isLt; omega
  constructor
  · calc -(lo * 255 : Int) ≤ -(lo * b.toNat) := neg_le_neg (mul_le_mul_of_nonneg_left hb (Int.natCast_nonneg _))
      _ = -lo * b.toNat := (neg_mul _ _).symm
      _ ≤ x * b.toNat := mul_le_mul_of_nonneg_right hlo (Int.natCast_nonneg _)
  · calc x * b.toNat ≤ hi * b.toNat := mul_le_mul_of_nonneg_right hhi (Int.natCast_nonneg _)
      _ ≤ hi * 255 := mul_le_mul_of_nonneg_left hb (Int.natCast_nonneg _)

theorem toInt_byte_bounds (t : Byte) : -128 ≤ t.toInt ∧ t.toInt ≤ 127 := by
  have := BitVec.toInt_lt (x := t)
  have := BitVec.le_toInt (x := t)
  omega

/-! ## Ranges -/

/-- The contribution is the floor of half the product (R204). -/
theorem voiceScale_eq (t : Int) (vol : Byte) : voiceScale t vol = t * vol.toNat / 2 := by
  have hprod : t * 128 * vol.toNat = 128 * (t * vol.toNat) := by ring
  simp only [voiceScale, asr, hprod]
  omega

theorem voiceScale_bounds {t : Int} (hlo : -128 ≤ t) (hhi : t ≤ 127) (vol : Byte) :
    -16320 ≤ voiceScale t vol ∧ voiceScale t vol ≤ 16192 := by
  have := mul_byte_bounds (lo := 128) (hi := 127) hlo hhi vol
  rw [voiceScale_eq]
  omega

/-- A contribution is at most 64 times the volume in magnitude. -/
theorem natAbs_voiceScale_le {t : Int} (hlo : -128 ≤ t) (hhi : t ≤ 127) (vol : Byte) :
    (voiceScale t vol).natAbs ≤ 64 * vol.toNat := by
  have : -128 * (vol.toNat : Int) ≤ t * vol.toNat := mul_le_mul_of_nonneg_right hlo (Int.natCast_nonneg _)
  have : t * vol.toNat ≤ 127 * (vol.toNat : Int) := mul_le_mul_of_nonneg_right hhi (Int.natCast_nonneg _)
  rw [voiceScale_eq]
  omega

/-- Up to eight contributions sum to at most eight times their bounds (R205). -/
theorem sum_contributions_bounds {cs : List Int} (hlen : cs.length ≤ 8) (h : ∀ c ∈ cs, -16320 ≤ c ∧ c ≤ 16192) :
    -130560 ≤ cs.sum ∧ cs.sum ≤ 129536 := by
  have hlo := List.card_nsmul_le_sum cs (-16320) fun c hc => (h c hc).1
  have hhi := List.sum_le_card_nsmul cs 16192 fun c hc => (h c hc).2
  simp only [nsmul_eq_mul] at hlo hhi
  omega

/-- The magnitude of a sum is at most the sum of bounds of its terms' magnitudes. -/
theorem natAbs_sum_map_le {α : Type} {f : α → Int} {g : α → Nat} {xs : List α} (h : ∀ x ∈ xs, (f x).natAbs ≤ g x) :
    (xs.map f).sum.natAbs ≤ (xs.map g).sum := by
  induction xs with
  | nil => rfl
  | cons x xs ih =>
    have hx := h x (List.mem_cons_self ..)
    have hxs := ih fun y hy => h y (List.mem_cons_of_mem _ hy)
    simp only [List.map_cons, List.sum_cons]
    omega

/-- A value of 16 signed bits is not wrapped (R207). -/
theorem toInt_trunc16 {v : Int} (hlo : -32768 ≤ v) (hhi : v < 32768) : (trunc16 v).toInt = v := by
  rw [trunc16, BitVec.toInt_ofInt]
  exact Int.bmod_eq_of_le (by omega) (by omega)

/-- Below the bound of R275 the scaled sum fits a sample. -/
theorem masterScale_fits {acc : Int} {bound : Nat} {master : Byte} (hacc : acc.natAbs ≤ bound)
    (hbound : bound * master.toNat < 32768 * 256) : -32768 ≤ masterScale acc master ∧ masterScale acc master < 32768 := by
  have hprod : (acc * master.toNat).natAbs < 32768 * 256 := by
    rw [Int.natAbs_mul, Int.natAbs_natCast]
    exact (Nat.mul_le_mul_right _ hacc).trans_lt hbound
  simp only [masterScale, asr]
  omega

/-- Settles O48: the ranges follow from those of one product with a byte; and the magnitude of the sum is at most the sum of the
magnitudes, each at most 64 times its volume. -/
theorem mixerRanges : Obligations.MixerRanges := by
  refine ⟨fun t vol hlo hhi => ⟨voiceScale_eq t vol, voiceScale_bounds hlo hhi vol⟩, fun cs master hlen hcs => ?sum,
    fun tv master htv hbound => ?exact⟩
  case sum =>
    obtain ⟨hlo, hhi⟩ := sum_contributions_bounds hlen.le hcs
    have := mul_byte_bounds (lo := 130560) (hi := 129536) hlo hhi master
    refine ⟨hlo, hhi, ?_⟩
    simp only [masterScale, asr]
    omega
  case exact =>
    have hsum : (tv.map fun x => voiceScale x.1 x.2).sum.natAbs ≤ (tv.map fun x => 64 * x.2.toNat).sum :=
      natAbs_sum_map_le fun x hx => natAbs_voiceScale_le (htv x hx).1 (htv x hx).2 x.2
    obtain ⟨hlo, hhi⟩ := masterScale_fits hsum hbound
    exact toInt_trunc16 hlo hhi

/-! ## Magnitudes -/

/-- `y` lies on the same side of zero as `x`, no nearer to it. -/
def FurtherOut (x y : Int) : Prop := (0 ≤ x ∧ x ≤ y) ∨ (y ≤ x ∧ x ≤ 0)

theorem FurtherOut.refl (x : Int) : FurtherOut x x := by
  unfold FurtherOut
  omega

theorem FurtherOut.natAbs_le {x y : Int} (h : FurtherOut x y) : x.natAbs ≤ y.natAbs := by
  unfold FurtherOut at h
  omega

theorem FurtherOut.mul {x y : Int} {m n : Nat} (h : FurtherOut x y) (hmn : m ≤ n) : FurtherOut (x * m) (y * n) := by
  have hmn' : (m : Int) ≤ n := by exact_mod_cast hmn
  rcases h with ⟨hx, hxy⟩ | ⟨hyx, hx⟩
  · exact .inl ⟨mul_nonneg hx (Int.natCast_nonneg _), mul_le_mul hxy hmn' (Int.natCast_nonneg _) (hx.trans hxy)⟩
  · exact .inr ⟨(mul_le_mul_of_nonneg_right hyx (Int.natCast_nonneg _)).trans' (mul_le_mul_of_nonpos_left hmn' (hyx.trans hx)),
      mul_nonpos_of_nonpos_of_nonneg hx (Int.natCast_nonneg _)⟩

/-- The floor keeps the side and the order. -/
theorem FurtherOut.asr {x y : Int} (h : FurtherOut x y) (k : Nat) : FurtherOut (asr x k) (asr y k) := by
  have hpos : (0 : Int) < 2 ^ k := by positivity
  rcases h with ⟨hx, hxy⟩ | ⟨hyx, hx⟩
  · exact .inl ⟨Int.ediv_nonneg hx hpos.le, Int.ediv_le_ediv hpos hxy⟩
  · exact .inr ⟨Int.ediv_le_ediv hpos hyx, Int.ediv_nonpos_of_nonpos_of_neg hx hpos⟩

/-- Settles O49: each scaling, a product and a floor, keeps the side of zero and the order of the distances from it. -/
theorem louderIsNotQuieter : Obligations.LouderIsNotQuieter := by
  intro t vol vol' master master' _ _ hvol hmaster
  have hvoice : FurtherOut (voiceScale t vol) (voiceScale t vol') := ((FurtherOut.refl (t * 128)).mul hvol).asr 8
  exact ((hvoice.mul hmaster).asr 8).natAbs_le

/-! ## Widths -/

/-- The product with the table length stays inside the width of R211. -/
theorem wf_freq_mul_waveLen {c : Config} (h : c.wf = true) (base : BitVec 16) {mul : Nat} (hm : mul ∈ c.octMul) :
    base.toNat * mul * c.waveLen < 2 ^ 55 :=
  calc base.toNat * mul * c.waveLen ≤ base.toNat * mul * 2 ^ 24 := Nat.mul_le_mul_left _ (wf_waveLen h).2
    _ < 2 ^ 31 * 2 ^ 24 := Nat.mul_lt_mul_of_pos_right (wf_freq h base hm) (by decide)
    _ = 2 ^ 55 := by decide

/-- An increment is at most the product it is divided from. -/
theorem wf_phaseInc_lt {c : Config} (h : c.wf = true) {nb : Byte} {inc : Nat} (hinc : phaseInc c nb = some inc) :
    inc < 2 ^ 55 := by
  obtain ⟨base, -, mul, hmul, rfl⟩ := exists_entries_of_phaseInc hinc
  exact (Nat.div_le_self _ _).trans_lt (wf_freq_mul_waveLen h base hmul)

/-- Settles O60: the widths of the configuration's tables, those of the mixer's values as for their ranges, and the invariant's
clause on `tick_cnt`. -/
theorem noIntermediateOverflow : Obligations.NoIntermediateOverflow := by
  refine ⟨fun c hwf => ⟨fun base _ mul hmul => ⟨wf_freq hwf base hmul, wf_freq_mul_waveLen hwf base hmul⟩,
    fun nb inc phase hinc => ?phase⟩, fun t vol => ?product, fun tv master hlen => ?sum, fun s hinv => ?counter⟩
  case phase =>
    have := phase.isLt
    have := wf_phaseInc_lt hwf hinc
    omega
  case product =>
    obtain ⟨hlo, hhi⟩ := toInt_byte_bounds t
    have := mul_byte_bounds (lo := 128 * 128) (hi := 127 * 128) (by omega : _ ≤ t.toInt * 128) (by omega) vol
    omega
  case sum =>
    have hterms : ∀ c ∈ tv.map (fun x => voiceScale x.1.toInt x.2), -16320 ≤ c ∧ c ≤ 16192 := by
      intro c hc
      obtain ⟨x, -, rfl⟩ := List.mem_map.mp hc
      exact voiceScale_bounds (toInt_byte_bounds x.1).1 (toInt_byte_bounds x.1).2 x.2
    obtain ⟨hlo, hhi⟩ := sum_contributions_bounds (by simpa using hlen) hterms
    have := mul_byte_bounds (lo := 130560) (hi := 129536) hlo hhi master
    dsimp only
    omega
  case counter =>
    have := (s.inv_iff.mp hinv).tickCnt_ne_zero
    bv_omega

end Sys2Proof.Machine
end

section
/-!
The fill engine (44_pcm_fill.md R190 to R197, R206 to R210): what each row of R210 does, the events that start and resume it, and
a whole fill in which no tick falls.
-/

namespace Sys2Proof.Machine

open Sys2Proof.Claims

/-! ## The events -/

theorem State.acceptsFill_iff (s : State) :
    s.acceptsFill = true ↔ s.pendFill = true ∧ s.inFill = false ∧ s.halted = false ∧ s.cfg.backend = .pcm := by
  simp [State.acceptsFill, and_assoc]

theorem State.acceptsTickReturn_iff (s : State) :
    s.acceptsTickReturn = true ↔ s.fillState = .waitTick ∧ s.halted = false ∧ s.cfg.backend = .pcm := by
  simp [State.acceptsTickReturn, and_assoc]

/-- Settles O40: the two arms of the acceptance. -/
theorem fillIrqStartsTheEngine : Obligations.FillIrqStartsTheEngine := by
  refine fun s => ⟨fun hbuild hpend hfill hhalt => ?accepted, fun h => ?refused⟩
  case accepted =>
    exact congrArg _ (if_pos (s.acceptsFill_iff.mpr ⟨hpend, hfill, hhalt, hbuild⟩))
  case refused =>
    refine congrArg _ (if_neg fun ha => ?_)
    obtain ⟨hpend, hfill, hhalt, -⟩ := s.acceptsFill_iff.mp ha
    simp [hpend, hfill, hhalt] at h

/-- Settles O41: the two arms of the tick's return. -/
theorem tickReturnResumesTheEngine : Obligations.TickReturnResumesTheEngine :=
  fun s => ⟨fun hbuild hwait hhalt => congrArg _ (if_pos (s.acceptsTickReturn_iff.mpr ⟨hwait, hhalt, hbuild⟩)),
    fun hwait => congrArg _ (if_neg fun ha => hwait (s.acceptsTickReturn_iff.mp ha).1)⟩

/-! ## The rows of R210 -/

theorem engineStep_count {s : State} (hh : s.halted = false) (hs : s.fillState = .count) : engineStep s = countStep s := by
  simp [engineStep, hh, hs]

theorem engineStep_mix {s : State} (hh : s.halted = false) (hs : s.fillState = .mix) : engineStep s = mixStep s := by
  simp [engineStep, hh, hs]

theorem engineStep_exit {s : State} (hh : s.halted = false) (hs : s.fillState = .exit) :
    engineStep s = .next s.acknowledge.leaveFill := by
  simp [engineStep, hh, hs, exitStep]

/-- An engine that is idle or waits for the tick's return has no step. -/
theorem engineStep_still {s : State} (hs : s.fillState = .waitTick ∨ s.fillState = .idle) : engineStep s = .next s := by
  rcases hs with hs | hs <;> simp [engineStep, hs]

theorem countStep_inside {s : State} (hi : s.fillI < s.cfg.halfSamples) : countStep s = .next s.countDown :=
  if_pos hi

theorem countStep_end {s : State} (hi : s.fillI = s.cfg.halfSamples) : countStep s = .next { s with fillState := .exit } :=
  (if_neg hi.not_lt).trans (if_pos hi)

/-- The decrement that does not end the quantum (R194). -/
theorem State.countDown_of_ne_one {s : State} (h : s.tickCnt ≠ 1) :
    s.countDown = { s with tickCnt := s.tickCnt - 1, fillState := .mix } :=
  if_neg (sub_ne_zero.mpr h)

/-- The decrement that ends the quantum: the reload and the tick (R196). -/
theorem State.countDown_of_eq_one {s : State} (h : s.tickCnt = 1) :
    s.countDown = State.openTick { s with tickCnt := s.cfg.samplesPerTick } :=
  if_pos (sub_eq_zero.mpr h)

/-- Settles O42: the three cases of COUNT, and the states in which the engine does not step. -/
theorem countdownAndTick : Obligations.CountdownAndTick := by
  refine ⟨fun s hhalt hcount => ?_, fun s => engineStep_still⟩
  rw [engineStep_count hhalt hcount]
  refine ⟨fun hi hcnt => ?decrement, fun hi hcnt => ?tick, countStep_end⟩
  case decrement =>
    have hdec : s.tickCnt - 1 = BitVec.ofNat 32 (s.tickCnt.toNat + (2 ^ 32 - 1)) := by bv_omega
    rw [countStep_inside hi, State.countDown_of_ne_one hcnt, hdec]
  case tick =>
    rw [countStep_inside hi, State.countDown_of_eq_one hcnt]
    rfl

/-- MIX, where the mixer answers and the index lies in the buffer (R206, R207, R210). -/
theorem mixStep_of_mixVoices {s u : State} {acc : Int} (hu : mixVoices allVoices s 0 = .ok (u, acc))
    (hk : s.fillIndex < s.cfg.bufferSamples) :
    mixStep s = .next
      { s with
        voices := u.voices
        noise := u.noise
        mem := s.mem.writeSample (s.sampleAddr s.fillIndex) (trunc16 (masterScale acc s.master))
        fillI := s.fillI + 1
        samplesDone := s.samplesDone + 1
        fillState := .count } := by
  obtain ⟨hframe, -, -⟩ := mixVoices_frame hu
  unfold mixStep
  simp only [hu, hk, if_true]
  rw [hframe]
  rfl

/-- Settles O47: the row of MIX, whose store is a sample store at the next index of the half not drained. -/
theorem mixStoresOneSample : Obligations.MixStoresOneSample := by
  intro s u acc hhalt hmix hwf hu w k hk
  have hindex : s.fillIndex = k := by
    cases hd : s.drainHalf <;> simp [State.fillIndex, State.fillBase, Half.other, Half.index, k, w, hd]
  refine ⟨_, (engineStep_mix hhalt hmix).trans (mixStep_of_mixVoices hu (hindex ▸ hk)), Memory.writeSample_wf _ _ hwf, ?_, ?_⟩
  · rw [hindex]
    exact Memory.readSample_writeSample_same _ _ hwf
  · intro a hlow hhigh
    rw [hindex, Memory.read_writeSample _ _ _ hwf]
    exact (if_neg hlow).trans (if_neg hhigh)

/-- The acknowledge as one update (R208). -/
theorem State.acknowledge_eq (s : State) :
    s.acknowledge =
      { s with
        portDev := (s.portDev.next Config.freePortByte).2
        portTrace := s.portTrace ++ [.read s.cfg.ports.dspAck16 s.portAnswer] ++
          (if 8 ≤ s.cfg.pcmIrqLine.toNat then [.write s.cfg.ports.pic2Cmd s.cfg.ports.picEoi] else []) ++
          [.write s.cfg.ports.pic1Cmd s.cfg.ports.picEoi] } := by
  unfold State.acknowledge
  by_cases hline : 8 ≤ s.cfg.pcmIrqLine.toNat
  · simp only [if_pos hline]
    rfl
  · simp only [if_neg hline, List.append_nil]
    rfl

/-- Settles O51: the acknowledge and the return from the handler. -/
theorem exitAcknowledges : Obligations.ExitAcknowledges := by
  intro s hhalt hexit
  rw [engineStep_exit hhalt hexit, State.acknowledge_eq]
  rfl

/-! ## A whole fill -/

theorem engineRun_one (s : State) : engineRun 1 s = engineStep s := by
  unfold engineRun
  cases engineStep s <;> rfl

/-- A run in two parts. -/
theorem engineRun_trans {m : Nat} {s t : State} (h : engineRun m s = .next t) (n : Nat) :
    engineRun (m + n) s = engineRun n t := by
  induction m generalizing s with
  | zero =>
    cases h
    rw [Nat.zero_add]
  | succ m ih =>
    rw [Nat.add_right_comm, engineRun]
    rw [engineRun] at h
    split at h
    · next u hu => exact ih h
    · cases h
    · cases h

/-- A run of two steps. -/
theorem engineRun_two {s t u : State} (hs : engineStep s = .next t) (ht : engineStep t = .next u) :
    engineRun 2 s = .next u :=
  (engineRun_trans (m := 1) ((engineRun_one s).trans hs) 1).trans ((engineRun_one t).trans ht)

/-- `t` stands at the engine's step `p` of the fill that `s` began, with `n` samples counted, `i` of them stored, and no tick. -/
structure State.Fills (s t : State) (p : FillState) (n i : Nat) : Prop where
  inv : t.Invariant
  halted : t.halted = false
  fillState : t.fillState = p
  fillI : t.fillI = i
  tickCnt : t.tickCnt.toNat + n = s.tickCnt.toNat
  cfg : t.cfg = s.cfg
  drainHalf : t.drainHalf = s.drainHalf
  pendFill : t.pendFill = s.pendFill
  samplesDone : t.samplesDone = s.samplesDone + i
  tickTrace : t.tickTrace = s.tickTrace
  drainedHalf : ∀ k < s.cfg.halfSamples, t.sample (s.drainHalf.index * s.cfg.halfSamples + k) =
    s.sample (s.drainHalf.index * s.cfg.halfSamples + k)
  voices : ∀ j : Fin 8, t.voices[j].note = s.voices[j].note ∧ t.voices[j].wave = s.voices[j].wave ∧
    t.voices[j].vol = s.voices[j].vol

theorem State.Invariant.of_engineStep {s t : State} (h : s.Invariant) (ht : Machine.engineStep s = .next t) : t.Invariant := by
  obtain ⟨u, hu, hinv⟩ := h.engineStep
  cases hu.symm.trans ht
  exact hinv

/-- The index of the sample produced lies outside the half that the flip flag names (R192). -/
theorem State.Invariant.fillIndex_ne_drained {s : State} (h : s.Invariant) (hm : s.fillState = .mix) {k : Nat}
    (hk : k < s.cfg.halfSamples) : s.drainHalf.index * s.cfg.halfSamples + k ≠ s.fillIndex := by
  obtain ⟨-, hpos⟩ := wf_halves h.cfg_wf
  obtain ⟨-, hhalf⟩ := h.fillIndex_mem hm
  intro e
  have hdrained : (s.drainHalf.index * s.cfg.halfSamples + k) / s.cfg.halfSamples = s.drainHalf.index := by
    rw [Nat.mul_comm, Nat.mul_add_div hpos, Nat.div_eq_of_lt hk, Nat.add_zero]
  rw [e, hhalf] at hdrained
  omega

/-- COUNT counts the next sample, where the quantum does not end with it (R194). -/
theorem State.Fills.count {s t : State} {i : Nat} (h : s.Fills t .count i i) (hi : i < s.cfg.halfSamples)
    (hcnt : s.cfg.halfSamples < s.tickCnt.toNat) : ∃ t', engineStep t = .next t' ∧ s.Fills t' .mix (i + 1) i := by
  have hti : t.fillI < t.cfg.halfSamples := by rw [h.fillI, h.cfg]; exact hi
  have htoNat := h.tickCnt
  have hne : t.tickCnt ≠ 1 := by bv_omega
  have hdec : (t.tickCnt - 1).toNat + (i + 1) = s.tickCnt.toNat := by bv_omega
  have hstep : engineStep t = .next { t with tickCnt := t.tickCnt - 1, fillState := .mix } := by
    rw [engineStep_count h.halted h.fillState, countStep_inside hti, State.countDown_of_ne_one hne]
  exact ⟨_, hstep, { h with inv := h.inv.of_engineStep hstep, fillState := rfl, tickCnt := hdec }⟩

/-- MIX stores the sample counted, outside the half that the flip flag names (R192). -/
theorem State.Fills.mix {s t : State} {n i : Nat} (h : s.Fills t .mix n i) :
    ∃ t', engineStep t = .next t' ∧ s.Fills t' .count n (i + 1) := by
  obtain ⟨u, acc, hu, -, -⟩ := h.inv.mixVoices
  obtain ⟨-, hregs, -⟩ := mixVoices_frame hu
  have hstep := (engineStep_mix h.halted h.fillState).trans (mixStep_of_mixVoices hu (h.inv.fillIndex_mem h.fillState).1)
  refine ⟨_, hstep,
    { h with
      inv := h.inv.of_engineStep hstep
      fillState := rfl
      fillI := congrArg (· + 1) h.fillI
      samplesDone := congrArg (· + 1) h.samplesDone
      drainedHalf := fun k hk => ?drained
      voices := fun j => ?registers }⟩
  case drained =>
    have hother := h.inv.fillIndex_ne_drained h.fillState (k := k) (by rw [h.cfg]; exact hk)
    rw [← h.drainedHalf k hk, ← h.drainHalf, ← h.cfg]
    exact (State.sample_setSample _ _ _ h.inv.mem_wf).trans (if_neg hother)
  case registers =>
    rw [hregs j]
    exact h.voices j

/-- `i` samples of a fill take two steps each (R209, R273). -/
theorem State.Fills.run {s : State} (h : s.Fills s .count 0 0) (hcnt : s.cfg.halfSamples < s.tickCnt.toNat) {i : Nat}
    (hi : i ≤ s.cfg.halfSamples) : ∃ t, engineRun (2 * i) s = .next t ∧ s.Fills t .count i i := by
  induction i with
  | zero => exact ⟨s, rfl, h⟩
  | succ i ih =>
    obtain ⟨t, ht, hfills⟩ := ih (Nat.le_of_succ_le hi)
    obtain ⟨u, hu, hcounted⟩ := hfills.count hi hcnt
    obtain ⟨v, hv, hstored⟩ := hcounted.mix
    exact ⟨v, (engineRun_trans ht 2).trans (engineRun_two hu hv), hstored⟩

/-- Settles O52: two steps a sample, by induction on the samples, then COUNT at the end of the half and EXIT. -/
theorem fillRunsToItsEnd : Obligations.FillRunsToItsEnd := by
  intro s hinv hhalt hcount hi hcnt
  have hstart : s.Fills s .count 0 0 :=
    ⟨s.inv_iff.mp hinv, hhalt, hcount, hi, rfl, rfl, rfl, rfl, rfl, rfl, fun _ _ => rfl, fun _ => ⟨rfl, rfl, rfl⟩⟩
  obtain ⟨t, ht, h⟩ := hstart.run hcnt le_rfl
  have hend : engineStep t = .next { t with fillState := .exit } :=
    (engineStep_count h.halted h.fillState).trans (countStep_end (by rw [h.fillI, h.cfg]))
  have hexit := engineStep_exit (s := { t with fillState := .exit }) h.halted rfl
  rw [State.acknowledge_eq] at hexit
  have hleft : t.tickCnt = BitVec.ofNat 32 (s.tickCnt.toNat - s.cfg.halfSamples) := by
    rw [← h.tickCnt, Nat.add_sub_cancel, BitVec.ofNat_toNat, BitVec.setWidth_eq]
  exact ⟨_, (engineRun_trans ht 2).trans (engineRun_two hend hexit), rfl, rfl, h.halted, h.drainHalf, h.pendFill, h.samplesDone,
    h.tickTrace, hleft, h.drainedHalf, h.voices⟩

end Sys2Proof.Machine
end

section
/-!
Operands outside the ranges of every configuration (60_exceptions.md R236, R237; 70_reset_and_hazards.md R266 (a)).
-/

namespace Sys2Proof.Machine

open Sys2Proof.Claims

theorem fmVoiceOk_eq_false_iff (voice : Byte) : fmVoiceOk voice = false ↔ 6 ≤ voice.toNat := by
  simp [fmVoiceOk]

theorem pcmVoiceOk_eq_false_iff (voice : Byte) : pcmVoiceOk voice = false ↔ 8 ≤ voice.toNat := by
  simp [pcmVoiceOk]

/-- The three ranges in the order of their checks: past the voice and the note, it is the octave that is outside. -/
theorem pcmSetNote_illFormed_iff (voice octave note : Byte) :
    (Instr.pcmSetNote voice octave note).wellFormed = false ↔
      (voice.toNat < 8 → note.toNat ≤ 12 → 15 < octave.toNat) := by
  simp [Instr.wellFormed, pcmVoiceOk, pcmNoteOk, pcmOctaveOk]

/-- The slot tables bound the FM voice in every configuration, whatever its `FM_VOICES` (R43, R140). -/
theorem fmVoiceFault_of_noSlot {voice : Byte} (h : 6 ≤ voice.toNat) (c : Config) :
    fmVoiceFault c voice = some cmdVoiceRange :=
  if_pos (.inr h)

theorem fmAssignFault_of_voiceFault {c : Config} {voice code : Byte} (h : fmVoiceFault c voice = some code) (patch : Byte) :
    fmAssignFault c voice patch = some code := by
  simp only [fmAssignFault, h]

theorem fmNoteFault_of_voiceFault {c : Config} {voice code : Byte} (h : fmVoiceFault c voice = some code)
    (octave note : Byte) : fmNoteFault c voice octave note = some code := by
  simp only [fmNoteFault, h]

/-- The first of the three fixed ranges that an ill-formed note leaves gives its code. -/
theorem exec_pcmSetNote_illFormed {s : State} {voice octave note : Byte}
    (hi : (Instr.pcmSetNote voice octave note).wellFormed = false) (ha : s.admits .pcmSetNote = true) :
    ∃ code ∈ ([0x22, 0x23, 0x24] : List Byte), exec (.pcmSetNote voice octave note) s = .next (faulted s code 0x21) := by
  obtain ⟨hvoice, hnote, hoctave⟩ := pcmRangeFaultsInOrder.1 s voice octave note ha
  rcases Nat.lt_or_ge voice.toNat 8 with hv | hv
  · rcases Nat.lt_or_ge 12 note.toNat with hn | hn
    · exact ⟨0x23, by decide, hnote hv hn⟩
    · have ho : 15 < octave.toNat := (pcmSetNote_illFormed_iff voice octave note).mp hi hv hn
      exact ⟨0x24, by decide, hoctave hv hn (.inl ho)⟩
  · exact ⟨0x22, by decide, hvoice hv⟩

/-- Settles O36: only the voice commands have fixed ranges, and each checks its voice first; what is left is a note. -/
theorem illFormedOperandsHalt : Obligations.IllFormedOperandsHalt := by
  obtain ⟨-, hwaveform, hvolume⟩ := pcmRangeFaultsInOrder
  intro i s hi ha
  cases i with
  | fmAssignInstrument voice patch =>
    have hv := fmVoiceFault_of_noSlot ((fmVoiceOk_eq_false_iff voice).mp hi) s.cfg
    exact ⟨0x22, by decide, execFmAssignInstrument_fault ha (fmAssignFault_of_voiceFault hv patch)⟩
  | fmSetNote voice octave note =>
    have hv := fmVoiceFault_of_noSlot ((fmVoiceOk_eq_false_iff voice).mp hi) s.cfg
    exact ⟨0x22, by decide, execFmSetNote_fault ha (fmNoteFault_of_voiceFault hv octave note)⟩
  | pcmSetNote voice octave note => exact exec_pcmSetNote_illFormed hi ha
  | pcmSetWaveform voice w x =>
    exact ⟨0x22, by decide, (hwaveform s voice w x ha).1 ((pcmVoiceOk_eq_false_iff voice).mp hi)⟩
  | pcmSetVolume voice x => exact ⟨0x22, by decide, hvolume s voice x ha ((pcmVoiceOk_eq_false_iff voice).mp hi)⟩
  | timerInit | timerGetTicks | fmInit | fmSetMaster | pcmInit | pcmSetMaster | evTimerIrq | evFillIrq | evTickReturn =>
    cases hi

end Sys2Proof.Machine
end
